-- ==== Sys2Proof/Word.lean ====
section
/-! DEFINITION. The value types of the block (00_scope.md R8, R11). -/

namespace Sys2Proof

/-- A register or bus word: 32 bits, bit 0 the least significant (R8, R20). -/
abbrev Word := BitVec 32

/-- An element of the BYTE buffer (R11, R42). -/
abbrev Byte := BitVec 8

/-- A binary symbol, an element of the SYM buffer: `true` is 1, carrier present (R11, R90). -/
abbrev Symbol := Bool

/-- An element of the SIG buffer: 17 bits, two's complement (R11, R44, R92). -/
abbrev Sample := BitVec 17

/-- A sample word from an integer; exact for -65536 to 65535, so for the legal range of R92 (log 14). -/
def Sample.ofInt (v : Int) : Sample := BitVec.ofInt 17 v

/-- The legal range of a sample, -32768 to +32768 (R45, R92). -/
def Sample.inRange (v : Sample) : Bool := decide (-32768 ≤ v.toInt) && decide (v.toInt ≤ 32768)

end Sys2Proof
end

