-- ==== Sys2Proof/Config.lean ====
section
/-! DEFINITION. What an implementation fixes (00_scope.md R6) and the free values of the model. -/

namespace Sys2Proof.Config

/-- The open parameters of R6 that the block's state depends on. A capacity is at most 2^32 - 2 by its
type (R6, D10); BASE is a multiple of 256 because its page number is what is held (R6, D16). -/
structure Params where
  /-- BYTE_MAX, the capacity of the BYTE buffer in bytes. -/
  byteMax : Fin 4294967295
  /-- SYM_MAX, the capacity of the SYM buffer in symbols. -/
  symMax : Fin 4294967295
  /-- SIG_MAX, the capacity of the SIG buffer in samples. -/
  sigMax : Fin 4294967295
  /-- BASE divided by 256. -/
  basePage : Nat
deriving DecidableEq, Repr

/-- BASE, the byte address of register offset 0 on the host bus (R6). -/
def Params.base (p : Params) : Nat := 256 * p.basePage

/-- FREE VALUE (U1, log 5): what BYTE element `i` holds, after `resets` resets, until it is written. -/
opaque unwrittenByte (resets i : Nat) : Byte

/-- FREE VALUE (U1, log 5): what SYM element `i` holds, after `resets` resets, until it is written. -/
opaque unwrittenSymbol (resets i : Nat) : Symbol

/-- FREE VALUE (U1, log 5): 32768 more than what SIG element `i` holds, after `resets` resets, until it is
written; the type keeps the element inside -32768 to +32768, as U1 says. -/
opaque unwrittenSample (resets i : Nat) : Fin 65537

/-- FREE VALUE (log 8): where the carrier's exact value lies closer to a half-integer than the model's
interval can tell, whether the lower neighbour is taken, for phase index `m` of sample rate `fs` (R124). -/
opaque carrierRoundsDown (fs m : Nat) : Bool

end Sys2Proof.Config
end

