-- ==== Sys2Proof/Syntax.lean ====
section
/-! DEFINITION. The commands of the block: one constructor per row of the opcode map (30_encoding.md R100). -/

namespace Sys2Proof

/-- The ten commands (R100). No command has an operand field (R97). -/
inductive Instr where
  | nop    -- R200
  | enc    -- R120
  | mod    -- R123
  | rect   -- R140
  | lpf    -- R143
  | slice  -- R160
  | sync   -- R175
  | dec    -- R181
  | tx     -- R203
  | rx     -- R204
deriving DecidableEq, Repr

end Sys2Proof
end

