-- ==== Sys2Proof/WellFormed.lean ====
section
/-! DEFINITION. What is well formed: commands, command words, host bus addresses. -/

namespace Sys2Proof

/-- A command has no operand, so each of the ten is well formed (R97). -/
def Instr.wellFormed (i : Instr) : Bool :=
  match i with
  | .nop | .enc | .mod | .rect | .lpf | .slice | .sync | .dec | .tx | .rx => true

/-- A CMD word is legal: ZERO is 0 and OPC is not reserved (R97, R101). -/
def wellFormedCommandWord (w : Word) : Bool :=
  w.extractLsb' 4 28 == 0 && decide ((w.extractLsb' 0 4).toNat < 10)

/-- A bus address names a register of the block: inside the 256-byte window, on a word (R64, R66, U5). -/
def wellFormedBusAddress (p : Config.Params) (a : Nat) : Bool :=
  decide (p.base ≤ a) && decide (a < p.base + 256) && decide (a % 4 = 0)

end Sys2Proof
end

