-- ==== Sys2Proof/Decode.lean ====
section
/-! DEFINITION. The command word: decoder and encoder (30_encoding.md R97, R100, R101). -/

namespace Sys2Proof

/-- Why a CMD word is illegal (R101). -/
inductive DecodeReject where
  /-- A bit of ZERO, bits 31:4, is set, whatever OPC is. -/
  | zeroFieldSet
  /-- OPC is 10 to 15. -/
  | reservedOpcode
deriving DecidableEq, Repr

/-- The opcode map, from OPC to the command (R100); `none` for the reserved values 10 to 15 (R101). -/
def instrOfOpcode (opc : Nat) : Option Instr :=
  match opc with
  | 0 => some .nop
  | 1 => some .enc
  | 2 => some .mod
  | 3 => some .rect
  | 4 => some .lpf
  | 5 => some .slice
  | 6 => some .sync
  | 7 => some .dec
  | 8 => some .tx
  | 9 => some .rx
  | _ => none

/-- The decoder, total on 32-bit words: one of the ten commands or "illegal" (R101). -/
def decode (w : Word) : Except DecodeReject Instr :=
  if w.extractLsb' 4 28 = 0 then
    match instrOfOpcode (w.extractLsb' 0 4).toNat with
    | some i => .ok i
    | none => .error .reservedOpcode
  else .error .zeroFieldSet

/-- OPC of a command (R100); also the value of STATUS.OP after the command is accepted (R23, R195). -/
def opcode (i : Instr) : BitVec 4 :=
  match i with
  | .nop => 0
  | .enc => 1
  | .mod => 2
  | .rect => 3
  | .lpf => 4
  | .slice => 5
  | .sync => 6
  | .dec => 7
  | .tx => 8
  | .rx => 9

/-- The encoder: OPC in bits 3:0, ZERO in bits 31:4 (R97). -/
def encode (i : Instr) : Word := (0 : BitVec 28) ++ opcode i

/-- The command that `decode` reads from a table word of `nbits` bits; bits above `nbits` are 0. A command
is one whole 32-bit word, which the bus moves at once, so no byte order enters (R62, R97). -/
def decodeTableWord (nbits w : Nat) : Option Instr :=
  let v := w % 2 ^ nbits
  if v < 4294967296 then
    match decode (BitVec.ofNat 32 v) with
    | .ok i => some i
    | .error _ => none
  else none

end Sys2Proof
end

