-- ==== Sys2Proof/Machine/State.lean ====
section
/-! DEFINITION. The state of the block (10_state.md R21), why the model can stop, and reset (R50). -/

namespace Sys2Proof.Machine

/-- The seven stages (00_scope.md R1, 30_encoding.md R103). "No stage" is `none` of `Option Stage`. -/
inductive Stage where
  | enc
  | mod
  | rect
  | lpf
  | slice
  | sync
  | dec
deriving DecidableEq, Repr

/-- The errors of the block (60_exceptions.md R215). CODE 0 is `none` of `Option ErrCode`. -/
inductive ErrCode where
  /-- E_CMD, an illegal command word (R216). -/
  | cmd
  /-- E_CFG, a configuration value that the stage cannot use (R217). -/
  | cfg
  /-- E_RANGE, a length above its capacity, or PAYLOAD_START above SYM_LEN (R218). -/
  | range
  /-- E_OVF, a result that does not fit its buffer (R219). -/
  | ovf
deriving DecidableEq, Repr

/-- What follows a stage of a command (44_sequencer_commands.md R196). -/
inductive Successor where
  /-- Another stage. -/
  | stage (t : Stage)
  /-- `end`: the command finishes. -/
  | done
  /-- The table of R196 has no such row. -/
  | offTable
deriving DecidableEq, Repr

/-- The registers of the map (20_memory.md R67). -/
inductive Reg where
  | cmd | status | ctrl | irqEn
  | sampleRate | baudRate | carrierFreq | bitDepth | lpfN | period | thresh | sps
  | byteLen | symLen | sigLen | payloadStart | errInfo
  | capByte | capSym | capSig
  | byteIdx | byteData | symIdx | symData | sigIdx | sigData
deriving DecidableEq, Repr

/-- One entry of the schedule (00_scope.md R12, U2, log 2): a HOST access, an ENGINE turn, or an edge of `rst`. -/
inductive Event where
  /-- HostRead at a bus address (R66). -/
  | read (addr : Nat)
  /-- HostWrite of a word at a bus address (R66). -/
  | write (addr : Nat) (w : Word)
  /-- The ENGINE's turn (R197). -/
  | engine
  /-- The input `rst` is asserted (70_reset_and_hazards.md R245); it stays so until it is released. -/
  | assertRst
  /-- The input `rst` is released (R245). -/
  | releaseRst
deriving DecidableEq, Repr

/-- Why the machine stops with a fault. -/
inductive Fault where
  /-- Raised by the ENGINE step when a stage has run and (OP, STAGE) is no row of the table of R196, so that no
  rule gives what follows. Safe: no state with the invariant of R52 raises it (log 9). -/
  | sequencerOffTable
deriving DecidableEq, Repr

/-- Why a step has no meaning. -/
inductive Refusal where
  /-- Raised by the dispatcher for a command without a meaning, of which there is none. Safe. -/
  | notModelled (mnemonic : String)
  /-- Raised by a bus access that is not an aligned word inside the block's window: the bus interface cannot
  express it, and U5 says that a model refuses it (R64). Safe (log 10). -/
  | notAWordAccess
deriving DecidableEq, Repr

/-- The state of the block. -/
structure State where
  /-- STATUS.BUSY (R23). -/
  busy : Bool
  /-- STATUS.DONE (R23). -/
  done : Bool
  /-- STATUS.FOUND (R23). -/
  found : Bool
  /-- STATUS.NOTFOUND (R23). -/
  notfound : Bool
  /-- STATUS.ERR (R23). -/
  err : Bool
  /-- STATUS.STAGE, the stage that the ENGINE runs next (R23, R46). -/
  stage : Option Stage
  /-- STATUS.OP, the last accepted command (R23, R46). -/
  op : Instr
  /-- ERR_INFO.CODE (R38). -/
  errCode : Option ErrCode
  /-- ERR_INFO.ESTAGE (R38). -/
  errStage : Option Stage
  /-- CTRL.REFSCAN (R24). -/
  refscan : Bool
  /-- IRQ_EN.IE_DONE (R25). -/
  ieDone : Bool
  /-- IRQ_EN.IE_NOTFOUND (R25). -/
  ieNotfound : Bool
  /-- IRQ_EN.IE_ERR (R25). -/
  ieErr : Bool
  /-- SAMPLE_RATE (R26). -/
  sampleRate : Word
  /-- BAUD_RATE (R27). -/
  baudRate : Word
  /-- CARRIER_FREQ (R28). -/
  carrierFreq : Word
  /-- BIT_DEPTH (R29). -/
  bitDepth : Word
  /-- LPF_N (R30). -/
  lpfN : Word
  /-- PERIOD (R31). -/
  period : Word
  /-- THRESH (R32). -/
  thresh : Word
  /-- BYTE_LEN (R34). -/
  byteLen : Word
  /-- SYM_LEN (R35). -/
  symLen : Word
  /-- SIG_LEN (R36). -/
  sigLen : Word
  /-- PAYLOAD_START (R37). -/
  payloadStart : Word
  /-- BYTE_IDX (R40). -/
  byteIdx : Word
  /-- SYM_IDX (R40). -/
  symIdx : Word
  /-- SIG_IDX (R40). -/
  sigIdx : Word
  /-- The BYTE elements written since the last reset, by index (R42, log 7). -/
  byteBuf : List Host.Cell
  /-- The SYM elements written since the last reset, by index (R43, log 7). -/
  symBuf : List (Nat × Symbol)
  /-- The SIG elements written since the last reset, by index (R44, log 7). -/
  sigBuf : List (Nat × Sample)
  /-- The level of the input `rst`: it is asserted now (70_reset_and_hazards.md R245). -/
  rstAsserted : Bool
  /-- CONFIGURATION, not state: the open parameters of R6; no step changes them (log 4). -/
  params : Config.Params
  /-- THE MODEL'S OWN: the pending HOST accesses, ENGINE turns and resets, the next one first (log 2). -/
  agenda : List Event
  /-- THE MODEL'S OWN: the word that the last HostRead returned to the host (R66, log 3). -/
  busOut : Word
  /-- THE MODEL'S OWN: how many times `rst` was asserted, the argument of the free buffer values (log 5). -/
  resets : Nat
deriving DecidableEq, Repr

/-- The state right after reset (R50, R246), `rst` released: every register 0, no buffer element written. The parameters and
the model's own fields are DESIGN CHOICES (log 2, log 3, log 4, log 5). -/
def State.reset : State where
  busy := false
  done := false
  found := false
  notfound := false
  err := false
  stage := none
  op := .nop
  errCode := none
  errStage := none
  refscan := false
  ieDone := false
  ieNotfound := false
  ieErr := false
  sampleRate := 0
  baudRate := 0
  carrierFreq := 0
  bitDepth := 0
  lpfN := 0
  period := 0
  thresh := 0
  byteLen := 0
  symLen := 0
  sigLen := 0
  payloadStart := 0
  byteIdx := 0
  symIdx := 0
  sigIdx := 0
  byteBuf := []
  symBuf := []
  sigBuf := []
  rstAsserted := false
  params := { byteMax := 1024, symMax := 8200, sigMax := 1048576, basePage := 0 }
  agenda := []
  busOut := 0
  resets := 0

end Sys2Proof.Machine
end

