-- ==== Sys2Proof/Machine/Operands.lean ====
section
/-! DEFINITION. Operand forms: field codes, port conversions, computed registers, the register map. -/

namespace Sys2Proof.Machine

/-- The value of STATUS.STAGE and ERR_INFO.ESTAGE for "no stage" or a stage (30_encoding.md R103). -/
def stageCode (st : Option Stage) : BitVec 4 :=
  match st with
  | none => 0
  | some .enc => 1
  | some .mod => 2
  | some .rect => 3
  | some .lpf => 4
  | some .slice => 5
  | some .sync => 6
  | some .dec => 7

/-- The value of ERR_INFO.CODE for "none" or an error (60_exceptions.md R215). -/
def errorCode (c : Option ErrCode) : BitVec 8 :=
  match c with
  | none => 0
  | some .cmd => 1
  | some .cfg => 2
  | some .range => 3
  | some .ovf => 4

/-- The preamble PRE, index 0 first on the wire (00_scope.md R7, 30_encoding.md R94). -/
def preamble : List Symbol := [true, false, true, false, true, false, true, false]

/-- The sample rate divided by the baud rate, truncated; 0 when the baud rate is 0 (10_state.md R33, R128). -/
def samplesPerSymbol (sampleRate baudRate : Word) : Nat :=
  if baudRate.toNat = 0 then 0 else sampleRate.toNat / baudRate.toNat

/-- The computed register SPS (10_state.md R33). -/
def State.sps (s : State) : Nat := samplesPerSymbol s.sampleRate s.baudRate

/-- ToElem for BYTE: bits 7:0 (20_memory.md R72). -/
def toByte (w : Word) : Byte := w.extractLsb' 0 8

/-- ToElem for SYM: bit 0 (20_memory.md R72). -/
def toSymbol (w : Word) : Symbol := w.getLsbD 0

/-- ToElem for SIG: bits 15:0, sign-extended to the 17-bit element (20_memory.md R72). -/
def toSample (w : Word) : Sample := (w.extractLsb' 0 16).signExtend 17

/-- FromElem for BYTE: zero-extended (20_memory.md R72). -/
def fromByte (b : Byte) : Word := b.zeroExtend 32

/-- FromElem for SYM: 0 or 1 (20_memory.md R72). -/
def fromSymbol (b : Symbol) : Word := (BitVec.ofBool b).zeroExtend 32

/-- FromElem for SIG: sign-extended from 17 bits (20_memory.md R72). -/
def fromSample (v : Sample) : Word := v.signExtend 32

/-- The register at an offset of the window; `none` for the reserved offsets (20_memory.md R67, R68). -/
def regAt (off : Nat) : Option Reg :=
  match off with
  | 0x00 => some .cmd
  | 0x04 => some .status
  | 0x08 => some .ctrl
  | 0x0C => some .irqEn
  | 0x10 => some .sampleRate
  | 0x14 => some .baudRate
  | 0x18 => some .carrierFreq
  | 0x1C => some .bitDepth
  | 0x20 => some .lpfN
  | 0x24 => some .period
  | 0x28 => some .thresh
  | 0x2C => some .sps
  | 0x30 => some .byteLen
  | 0x34 => some .symLen
  | 0x38 => some .sigLen
  | 0x3C => some .payloadStart
  | 0x40 => some .errInfo
  | 0x44 => some .capByte
  | 0x48 => some .capSym
  | 0x4C => some .capSig
  | 0x50 => some .byteIdx
  | 0x54 => some .byteData
  | 0x58 => some .symIdx
  | 0x5C => some .symData
  | 0x60 => some .sigIdx
  | 0x64 => some .sigData
  | _ => none

/-- The register offset that a bus address names; `none` where the bus cannot express the access (R64, U5). -/
def busOffset (p : Config.Params) (a : Nat) : Option Nat :=
  if wellFormedBusAddress p a then some (a - p.base) else none

end Sys2Proof.Machine
end

