-- ==== Sys2Proof/Machine/Ops.lean ====
section
/-! DEFINITION. Operations over the buffers and the status registers, error entry and error return among them. -/

namespace Sys2Proof.Machine

/-! ### Buffers: element spaces as lists of (index, element), indices strictly rising -/

/-- The element written at an index since the last reset, if one was. -/
def Memory.read? {α : Type} (m : List (Nat × α)) (i : Nat) : Option α :=
  match m with
  | [] => none
  | (k, v) :: rest => if k = i then some v else Memory.read? rest i

/-- Write one element. -/
def Memory.write {α : Type} (m : List (Nat × α)) (i : Nat) (v : α) : List (Nat × α) :=
  match m with
  | [] => [(i, v)]
  | (k, u) :: rest =>
    if i < k then (i, v) :: (k, u) :: rest
    else if i = k then (i, v) :: rest
    else (k, u) :: Memory.write rest i v

/-- A sequence as cells at consecutive indices from `k`. -/
def Memory.number {α : Type} (k : Nat) (vs : List α) : List (Nat × α) :=
  match vs with
  | [] => []
  | v :: rest => (k, v) :: Memory.number (k + 1) rest

/-- Write a whole sequence to indices 0 up to its length; elements above keep their contents (20_memory.md
R81, U15). Every stage result is written so. -/
def Memory.replacePrefix {α : Type} (m : List (Nat × α)) (vs : List α) : List (Nat × α) :=
  Memory.number 0 vs ++ m.filter (fun c => decide (vs.length ≤ c.1))

/-- The canonical form: indices strictly rising (log 7). -/
abbrev Memory.wf {α : Type} (m : List (Nat × α)) : Prop :=
  (m.map Prod.fst).Pairwise (fun a b => a < b)

/-- Every listed index is below a capacity (20_memory.md R60). -/
abbrev Memory.below {α : Type} (m : List (Nat × α)) (cap : Nat) : Prop :=
  ∀ c ∈ m, c.1 < cap

/-- BYTE[i]; a free value where nothing was written since reset (10_state.md R42, U1). -/
def State.byteAt (s : State) (i : Nat) : Byte :=
  (Memory.read? s.byteBuf i).getD (Config.unwrittenByte s.resets i)

/-- SYM[i]; a free value where nothing was written since reset (10_state.md R43, U1). -/
def State.symAt (s : State) (i : Nat) : Symbol :=
  (Memory.read? s.symBuf i).getD (Config.unwrittenSymbol s.resets i)

/-- SIG[i]; a free value of the legal range where nothing was written since reset (10_state.md R44, U1). -/
def State.sigAt (s : State) (i : Nat) : Sample :=
  (Memory.read? s.sigBuf i).getD
    (Sample.ofInt (((Config.unwrittenSample s.resets i).val : Int) - 32768))

/-- BYTE[0 .. n). -/
def State.bytes (s : State) (n : Nat) : List Byte := (List.range n).map s.byteAt

/-- SYM[0 .. n). -/
def State.syms (s : State) (n : Nat) : List Symbol := (List.range n).map s.symAt

/-- SIG[0 .. n). -/
def State.sigs (s : State) (n : Nat) : List Sample := (List.range n).map s.sigAt

/-! ### The end of a command, error entry and error return -/

/-- `finish` of the ENGINE step (44_sequencer_commands.md R197). -/
def finish (s : State) : State :=
  { s with stage := none, busy := false, done := true }

/-- Error entry, for an error `c` raised by stage `st` (60_exceptions.md R221). DONE, OP, FOUND and NOTFOUND are
not written. -/
def errorEntry (c : ErrCode) (st : Stage) (s : State) : State :=
  { s with errCode := some c, errStage := some st, err := true, stage := none, busy := false }

/-- The entry for E_CMD, an illegal command word (44_sequencer_commands.md R195 third branch, R216). -/
def commandErrorEntry (s : State) : State :=
  { s with done := false, err := true, errCode := some .cmd, errStage := none }

/-- Error return: the host's acknowledge of ERR (60_exceptions.md R224). -/
def errorReturn (s : State) : State :=
  { s with err := false, errCode := none, errStage := none }

/-! ### The input `rst` -/

/-- The reset state of this block (10_state.md R50): the registers and the buffers as `State.reset` has them. The
level of `rst`, the parameters, the schedule, the host's last word and the count of resets are no state of the
block. -/
def resetOf (s : State) : State :=
  { State.reset with
    rstAsserted := s.rstAsserted
    params := s.params, agenda := s.agenda, busOut := s.busOut, resets := s.resets }

/-- `rst` is asserted (70_reset_and_hazards.md R245 to R247): the reset state, with every buffer element unknown
afresh (log 6). -/
def assertReset (s : State) : State :=
  { resetOf s with rstAsserted := true, resets := s.resets + 1 }

/-- `rst` is released (R245): the state stays the reset state, and the block takes host accesses again. -/
def releaseReset (s : State) : State := { s with rstAsserted := false }

end Sys2Proof.Machine
end

