-- ==== Sys2Proof/Machine/Flags.lean ====
section
/-! DEFINITION. STATUS, ERR_INFO, CTRL and IRQ_EN as words, the W1C write, and the wire `irq`. -/

namespace Sys2Proof.Machine

/-- STATUS as the host reads it, the reserved bits 0 (10_state.md R23, R51). -/
def State.statusWord (s : State) : Word :=
  (0 : BitVec 16) ++ opcode s.op ++ stageCode s.stage ++ (0 : BitVec 3) ++ BitVec.ofBool s.err
    ++ BitVec.ofBool s.notfound ++ BitVec.ofBool s.found ++ BitVec.ofBool s.done ++ BitVec.ofBool s.busy

/-- ERR_INFO as the host reads it (10_state.md R38). -/
def State.errInfoWord (s : State) : Word :=
  (0 : BitVec 20) ++ stageCode s.errStage ++ errorCode s.errCode

/-- CTRL as the host reads it (10_state.md R24). -/
def State.ctrlWord (s : State) : Word := (0 : BitVec 31) ++ BitVec.ofBool s.refscan

/-- IRQ_EN as the host reads it (10_state.md R25). -/
def State.irqEnWord (s : State) : Word :=
  (0 : BitVec 27) ++ BitVec.ofBool s.ieErr ++ BitVec.ofBool s.ieNotfound ++ (0 : BitVec 1)
    ++ BitVec.ofBool s.ieDone ++ (0 : BitVec 1)

/-- The output wire `irq` (10_state.md R49). -/
def State.irq (s : State) : Bool :=
  (s.done && s.ieDone) || (s.notfound && s.ieNotfound) || (s.err && s.ieErr)

/-- A host write to STATUS while BUSY = 0: each of DONE, FOUND, NOTFOUND, ERR whose written bit is 1 is
cleared (10_state.md R23); clearing ERR is error return, and bit 4 has no effect when ERR = 0 (R224, log 12). -/
def writeStatus (w : Word) (s : State) : State :=
  let t := { s with
    done := s.done && !w.getLsbD 1
    found := s.found && !w.getLsbD 2
    notfound := s.notfound && !w.getLsbD 3 }
  if w.getLsbD 4 && s.err then errorReturn t else t

/-- FOUND and NOTFOUND after a SYNC stage: exactly one of them is 1 (43_framesync_deserializer.md R175, R179). -/
def setSyncFlags (hit : Bool) (s : State) : State :=
  { s with found := hit, notfound := !hit }

end Sys2Proof.Machine
end

