-- ==== Sys2Proof/Machine/BitEncoder.lean ====
section
/-! DEFINITION. Stage ENC: the byte-to-bit serializer with preamble insertion (40_bitencoder_modulator.md). -/

namespace Sys2Proof.Machine

/-- The 8 symbols of a byte, most significant bit first (30_encoding.md R91). -/
def byteSymbols (b : Byte) : List Symbol := (List.range 8).map (fun j => b.getLsbD (7 - j))

/-- `encode`: the preamble, then the bytes in order (R120). -/
def encodeBytes (bs : List Byte) : List Symbol := preamble ++ bs.flatMap byteSymbols

/-- Stage ENC (R120). -/
def stageEnc (s : State) : Except ErrCode State :=
  let m := s.byteLen.toNat
  if s.params.byteMax.val < m then .error .range
  else if s.params.symMax.val < 8 + 8 * m then .error .ovf
  else .ok { s with
    symBuf := Memory.replacePrefix s.symBuf (encodeBytes (s.bytes m))
    symLen := BitVec.ofNat 32 (8 + 8 * m) }

end Sys2Proof.Machine
end

