-- ==== Sys2Proof/Machine/Deserializer.lean ====
section
/-! DEFINITION. Stage DEC: the bit-to-byte deserializer (43_framesync_deserializer.md). -/

namespace Sys2Proof.Machine

/-- The byte of the 8 symbols from index `p` on, the first one its most significant bit (R181, R183). -/
def symbolsByte (x : Nat → Symbol) (p : Nat) : Byte :=
  BitVec.ofNat 8
    ((x p).toNat * 128 + (x (p + 1)).toNat * 64 + (x (p + 2)).toNat * 32 + (x (p + 3)).toNat * 16
      + (x (p + 4)).toNat * 8 + (x (p + 5)).toNat * 4 + (x (p + 6)).toNat * 2 + (x (p + 7)).toNat)

/-- `decode`: one byte per full group of 8 symbols from `p` up to `l`; the rest is dropped (R181, R182). -/
def decodeSymbols (x : Nat → Symbol) (p l : Nat) : List Byte :=
  (List.range ((l - p) / 8)).map (fun c => symbolsByte x (p + 8 * c))

/-- Stage DEC (R181). -/
def stageDec (s : State) : Except ErrCode State :=
  let l := s.symLen.toNat
  let p := s.payloadStart.toNat
  if s.params.symMax.val < l then .error .range
  else if l < p then .error .range
  else if s.params.byteMax.val < (l - p) / 8 then .error .ovf
  else .ok { s with
    byteBuf := Memory.replacePrefix s.byteBuf (decodeSymbols s.symAt p l)
    byteLen := BitVec.ofNat 32 ((l - p) / 8) }

end Sys2Proof.Machine
end

