-- ==== Sys2Proof/Machine/FrameSync.lean ====
section
/-! DEFINITION. Stage SYNC: preamble correlation and frame synchronisation (43_framesync_deserializer.md). -/

namespace Sys2Proof.Machine

/-- The 8 symbols from index `i` on equal the preamble exactly (R175, R178). -/
def preambleAt (x : Nat → Symbol) (i : Nat) : Bool :=
  decide ((List.range 8).map (fun j => x (i + j)) = preamble)

/-- How many candidate positions the scan tests: 0 to L - 8, or with REFSCAN = 1 only 0 to L - 9 (R176). -/
def candidates (refscan : Bool) (l : Nat) : Nat := if refscan then l - 8 else l + 1 - 8

/-- `findPreamble`: the least position in the scanned range that matches (R175, R177). -/
def findPreamble (refscan : Bool) (l : Nat) (x : Nat → Symbol) : Option Nat :=
  (List.range (candidates refscan l)).find? (preambleAt x)

/-- Stage SYNC (R175, R179). -/
def stageSync (s : State) : Except ErrCode State :=
  let l := s.symLen.toNat
  if s.params.symMax.val < l then .error .range
  else match findPreamble s.refscan l s.symAt with
    | some hit => .ok { setSyncFlags true s with payloadStart := BitVec.ofNat 32 (hit + 8) }
    | none => .ok { setSyncFlags false s with payloadStart := 0xFFFFFFFF }

end Sys2Proof.Machine
end

