-- ==== Sys2Proof/Machine/Carrier.lean ====
section
/-! DEFINITION. The carrier generator SinQ (40_bitencoder_modulator.md R124): 32768 times the sine of a
rational part of the circle, rounded to the nearest integer, computed by exact rational arithmetic with a
proved-size error margin (log 8). -/

namespace Sys2Proof.Machine

/-- A truncation of pi to 20 decimals, times 10^20: pi lies between this and one unit more. -/
def piNumerator : Nat := 314159265358979323846

/-- Denominator of `piNumerator`. -/
def piDenominator : Nat := 100000000000000000000

/-- The nested form of the sine series, as a fraction: for x = a / b,
1 - x^2 / ((2j)(2j+1)) * (1 - x^2 / ((2j+2)(2j+3)) * ...), `n` levels deep. -/
def sineNest (a b : Nat) (n j : Nat) : Int × Nat :=
  match n with
  | 0 => (1, 1)
  | n + 1 =>
    let (p, q) := sineNest a b n (j + 1)
    let c := 2 * j * (2 * j + 1) * (b * b)
    ((c * q : Nat) - ((a * a : Nat) : Int) * p, c * q)

/-- The sine series of a / b up to the power 25, as a fraction. -/
def sineSeries (a b : Nat) : Int × Nat :=
  let (p, q) := sineNest a b 12 1
  ((a : Int) * p, b * q)

/-- 32768 sin(2 pi p / q) rounded to the nearest integer, for 4 p <= q. The series at a truncated angle is
within 10^-20 of the sine; where both ends of that margin round alike the result is decided, and elsewhere a
free value chooses between the two (log 8). `fs` and `m` only name that choice. -/
def sineQuarter (fs m p q : Nat) : Int :=
  let (n, d) := sineSeries (2 * piNumerator * p) (piDenominator * q)
  let e := piDenominator
  let lo := (65536 * (n * e - d) + d * e) / (2 * d * e : Nat)
  let hi := (65536 * (n * e + d) + d * e) / (2 * d * e : Nat)
  let v := if lo = hi then lo else if Config.carrierRoundsDown fs m then lo else hi
  max 0 (min 32768 v)

/-- SINTAB: the sine at phase index `m` of `fs`, 0 <= m < fs, by the symmetries of the sine (R124, R125). -/
def sineTable (fs m : Nat) : Int :=
  if 2 * m ≤ fs then
    if 4 * m ≤ fs then sineQuarter fs m (2 * m) (2 * fs) else sineQuarter fs m (fs - 2 * m) (2 * fs)
  else
    let m' := fs - m
    if 4 * m' ≤ fs then -sineQuarter fs m' (2 * m') (2 * fs)
    else -sineQuarter fs m' (fs - 2 * m') (2 * fs)

/-- SinQ(fs, fc, k), through the phase index (fc * k) mod fs (R124). -/
def sinQ (fs fc k : Nat) : Int := sineTable fs (fc * k % fs)

end Sys2Proof.Machine
end

