-- ==== Sys2Proof/Machine/Modulator.lean ====
section
/-! DEFINITION. Stage MOD: the on-off-keying carrier modulator (40_bitencoder_modulator.md). -/

namespace Sys2Proof.Machine

/-- The samples of one symbol: the carrier from k = 0, or silence (R123, R126). -/
def symbolSamples (fs fc sps : Nat) (b : Symbol) : List Sample :=
  (List.range sps).map (fun k => if b then Sample.ofInt (sinQ fs fc k) else 0)

/-- `modulate`: the samples of every symbol in order, the phase restarting at each (R123, R126). -/
def modulate (fs fc sps : Nat) (syms : List Symbol) : List Sample :=
  syms.flatMap (symbolSamples fs fc sps)

/-- Stage MOD (R123). -/
def stageMod (s : State) : Except ErrCode State :=
  let l := s.symLen.toNat
  if s.sps < 1 then .error .cfg
  else if s.params.symMax.val < l then .error .range
  else if s.params.sigMax.val < l * s.sps then .error .ovf
  else .ok { s with
    sigBuf := Memory.replacePrefix s.sigBuf
      (modulate s.sampleRate.toNat s.carrierFreq.toNat s.sps (s.syms l))
    sigLen := BitVec.ofNat 32 (l * s.sps) }

end Sys2Proof.Machine
end

