-- ==== Sys2Proof/Machine/Envelope.lean ====
section
/-! DEFINITION. Stages RECT and LPF: the envelope detector (41_envelope_detector.md). -/

namespace Sys2Proof.Machine

/-- The sum x[lo] + ... + x[lo + n - 1], exact (R143, R160). -/
def windowSum (x : Nat → Int) (lo n : Nat) : Int :=
  ((List.range n).map (fun j => x (lo + j))).sum

/-- A sequence of samples as exact integers, by index. -/
def sampleValue (xs : List Sample) (i : Nat) : Int := (xs.getD i 0).toInt

/-- `rectify`: the absolute value of every sample (R140, R142). -/
def rectify (xs : List Sample) : List Sample :=
  xs.map (fun v => Sample.ofInt (v.toInt.natAbs : Int))

/-- Stage RECT (R140). -/
def stageRect (s : State) : Except ErrCode State :=
  let l := s.sigLen.toNat
  if s.params.sigMax.val < l then .error .range
  else .ok { s with sigBuf := Memory.replacePrefix s.sigBuf (rectify (s.sigs l)) }

/-- Output `i` of the moving average: the floor of the mean over the window from max(0, i - n + 1) to i,
whose count is min(i + 1, n) (R143). -/
def movingAverage (n : Nat) (x : Nat → Int) (i : Nat) : Int :=
  let c := min (i + 1) n
  windowSum x (i + 1 - c) c / (c : Int)

/-- `lowPass`: the moving average at every index (R143). -/
def lowPass (n : Nat) (xs : List Sample) : List Sample :=
  (List.range xs.length).map (fun i => Sample.ofInt (movingAverage n (sampleValue xs) i))

/-- Stage LPF (R143). -/
def stageLpf (s : State) : Except ErrCode State :=
  let l := s.sigLen.toNat
  if s.lpfN.toNat < 1 then .error .cfg
  else if s.params.sigMax.val < l then .error .range
  else .ok { s with sigBuf := Memory.replacePrefix s.sigBuf (lowPass s.lpfN.toNat (s.sigs l)) }

end Sys2Proof.Machine
end

