-- ==== Sys2Proof/Machine/Slicer.lean ====
section
/-! DEFINITION. Stage SLICE: the symbol-rate sampler and slicer (42_sampler_slicer.md). -/

namespace Sys2Proof.Machine

/-- The bit of window `i`: the window sum times 2^B strictly above TH * P, on unbounded integers (R160, R162). -/
def sliceBit (p b th : Nat) (x : Nat → Int) (i : Nat) : Symbol :=
  decide (windowSum x (i * p) p * 2 ^ b > (th : Int) * p)

/-- `sampleAndThreshold`: one symbol per full window; trailing samples are dropped (R160, R161). -/
def sampleAndThreshold (p b th : Nat) (xs : List Sample) : List Symbol :=
  (List.range (xs.length / p)).map (sliceBit p b th (sampleValue xs))

/-- Stage SLICE (R160). -/
def stageSlice (s : State) : Except ErrCode State :=
  let l := s.sigLen.toNat
  let p := s.period.toNat
  if p < 1 then .error .cfg
  else if s.bitDepth.toNat < 1 ∨ 32 < s.bitDepth.toNat then .error .cfg
  else if s.params.sigMax.val < l then .error .range
  else if s.params.symMax.val < l / p then .error .ovf
  else .ok { s with
    symBuf := Memory.replacePrefix s.symBuf
      (sampleAndThreshold p s.bitDepth.toNat s.thresh.toNat (s.sigs l))
    symLen := BitVec.ofNat 32 (l / p) }

end Sys2Proof.Machine
end

