-- ==== Sys2Proof/Machine/Sequencer.lean ====
section
/-! DEFINITION. The sequencer: acceptance of a command and the ENGINE step (44_sequencer_commands.md). -/

namespace Sys2Proof.Machine

/-- The stage a command starts with; NOP has none (R196). -/
def firstStage (i : Instr) : Option Stage :=
  match i with
  | .nop => none
  | .enc => some .enc
  | .mod => some .mod
  | .rect => some .rect
  | .lpf => some .lpf
  | .slice => some .slice
  | .sync => some .sync
  | .dec => some .dec
  | .tx => some .enc
  | .rx => some .rect

/-- What follows stage `st` of command `i`; `found` is STATUS.FOUND as SYNC has just written it (R196, R205). -/
def nextStage (i : Instr) (st : Stage) (found : Bool) : Successor :=
  match i, st with
  | .enc, .enc => .done
  | .mod, .mod => .done
  | .rect, .rect => .done
  | .lpf, .lpf => .done
  | .slice, .slice => .done
  | .sync, .sync => .done
  | .dec, .dec => .done
  | .tx, .enc => .stage .mod
  | .tx, .mod => .done
  | .rx, .rect => .stage .lpf
  | .rx, .lpf => .stage .slice
  | .rx, .slice => .stage .sync
  | .rx, .sync => if found then .stage .dec else .done
  | .rx, .dec => .done
  | _, _ => .offTable

/-- Run one stage: its result, or the error it raises with nothing written (R197, R222). -/
def runStage (st : Stage) (s : State) : Except ErrCode State :=
  match st with
  | .enc => stageEnc s
  | .mod => stageMod s
  | .rect => stageRect s
  | .lpf => stageLpf s
  | .slice => stageSlice s
  | .sync => stageSync s
  | .dec => stageDec s

/-- One ENGINE step of command `i` (R197). -/
def engineStep (i : Instr) (s : State) : Host.Outcome State Fault Refusal :=
  match s.stage with
  | none => .next (finish s)
  | some st =>
    match runStage st s with
    | .error c => .next (errorEntry c st s)
    | .ok t =>
      match nextStage i st t.found with
      | .stage st' => .next { t with stage := some st' }
      | .done => .next (finish t)
      | .offTable => .fault .sequencerOffTable

/-- A command is taken: OP, STAGE, DONE and BUSY (R195 fourth branch). -/
def acceptCommand (i : Instr) (s : State) : State :=
  { s with op := i, stage := firstStage i, done := false, busy := true }

/-- The next step of command `i` (log 1): while BUSY = 1 the ENGINE step (R197); else acceptance, which is
dropped while ERR = 1 (R195, R225). -/
def commandStep (i : Instr) (s : State) : Host.Outcome State Fault Refusal :=
  if s.busy then engineStep i s
  else if s.err then .next s
  else .next (acceptCommand i s)

end Sys2Proof.Machine
end

