-- ==== Sys2Proof/Machine/Commands.lean ====
section
/-! DEFINITION. The meaning of each command: its next step. Acceptance and sequencing are common to all ten
(44_sequencer_commands.md R195 to R197); the stages are in the stage files. -/

namespace Sys2Proof.Machine

/-- NOP (R200): no stage; the one ENGINE step finishes. -/
def execNop (s : State) : Host.Outcome State Fault Refusal := commandStep .nop s

/-- ENC (R120, R201): the stage ENC. -/
def execEnc (s : State) : Host.Outcome State Fault Refusal := commandStep .enc s

/-- MOD (R123, R201): the stage MOD. -/
def execMod (s : State) : Host.Outcome State Fault Refusal := commandStep .mod s

/-- RECT (R140, R201): the stage RECT. -/
def execRect (s : State) : Host.Outcome State Fault Refusal := commandStep .rect s

/-- LPF (R143, R201): the stage LPF. -/
def execLpf (s : State) : Host.Outcome State Fault Refusal := commandStep .lpf s

/-- SLICE (R160, R201): the stage SLICE. -/
def execSlice (s : State) : Host.Outcome State Fault Refusal := commandStep .slice s

/-- SYNC (R175, R201): the stage SYNC. -/
def execSync (s : State) : Host.Outcome State Fault Refusal := commandStep .sync s

/-- DEC (R181, R201): the stage DEC. -/
def execDec (s : State) : Host.Outcome State Fault Refusal := commandStep .dec s

/-- TX (R203): the stages ENC and MOD, one ENGINE step each. -/
def execTx (s : State) : Host.Outcome State Fault Refusal := commandStep .tx s

/-- RX (R204, R205): the stages RECT, LPF, SLICE, SYNC, and DEC only if FOUND, one ENGINE step each. -/
def execRx (s : State) : Host.Outcome State Fault Refusal := commandStep .rx s

end Sys2Proof.Machine
end

