-- ==== Sys2Proof/Machine/Dispatch.lean ====
section
/-! DEFINITION. The dispatcher: one arm per command. -/

namespace Sys2Proof.Machine

def exec (i : Instr) (s : State) : Host.Outcome State Fault Refusal :=
  match i with
  | .nop => Sys2Proof.Machine.execNop s
  | .enc => Sys2Proof.Machine.execEnc s
  | .mod => Sys2Proof.Machine.execMod s
  | .rect => Sys2Proof.Machine.execRect s
  | .lpf => Sys2Proof.Machine.execLpf s
  | .slice => Sys2Proof.Machine.execSlice s
  | .sync => Sys2Proof.Machine.execSync s
  | .dec => Sys2Proof.Machine.execDec s
  | .tx => Sys2Proof.Machine.execTx s
  | .rx => Sys2Proof.Machine.execRx s

end Sys2Proof.Machine
end

