-- ==== Sys2Proof/Machine/HostPort.lean ====
section
/-! DEFINITION. HostRead and HostWrite: the registers and the data ports (20_memory.md R66 to R74), and what
a CMD write asks for (44_sequencer_commands.md R195). -/

namespace Sys2Proof.Machine

/-- HostRead of BYTE_DATA: the element and the index moved on, or 0 with no effect (R71). -/
def readByteData (s : State) : State :=
  if !s.busy && decide (s.byteIdx.toNat < s.params.byteMax.val) then
    { s with busOut := fromByte (s.byteAt s.byteIdx.toNat), byteIdx := s.byteIdx + 1 }
  else { s with busOut := 0 }

/-- HostRead of SYM_DATA (R71). -/
def readSymData (s : State) : State :=
  if !s.busy && decide (s.symIdx.toNat < s.params.symMax.val) then
    { s with busOut := fromSymbol (s.symAt s.symIdx.toNat), symIdx := s.symIdx + 1 }
  else { s with busOut := 0 }

/-- HostRead of SIG_DATA (R71). -/
def readSigData (s : State) : State :=
  if !s.busy && decide (s.sigIdx.toNat < s.params.sigMax.val) then
    { s with busOut := fromSample (s.sigAt s.sigIdx.toNat), sigIdx := s.sigIdx + 1 }
  else { s with busOut := 0 }

/-- The value of a register that is no data port, as the host reads it (R67, R74). CMD reads 0 (R22). -/
def State.regValue (s : State) (r : Reg) : Word :=
  match r with
  | .cmd => 0
  | .status => s.statusWord
  | .ctrl => s.ctrlWord
  | .irqEn => s.irqEnWord
  | .sampleRate => s.sampleRate
  | .baudRate => s.baudRate
  | .carrierFreq => s.carrierFreq
  | .bitDepth => s.bitDepth
  | .lpfN => s.lpfN
  | .period => s.period
  | .thresh => s.thresh
  | .sps => BitVec.ofNat 32 s.sps
  | .byteLen => s.byteLen
  | .symLen => s.symLen
  | .sigLen => s.sigLen
  | .payloadStart => s.payloadStart
  | .errInfo => s.errInfoWord
  | .capByte => BitVec.ofNat 32 s.params.byteMax.val
  | .capSym => BitVec.ofNat 32 s.params.symMax.val
  | .capSig => BitVec.ofNat 32 s.params.sigMax.val
  | .byteIdx => s.byteIdx
  | .byteData => 0
  | .symIdx => s.symIdx
  | .symData => 0
  | .sigIdx => s.sigIdx
  | .sigData => 0

/-- HostRead(off): the word goes to the host (`busOut`); only the data ports have a side effect (R66, R75). A
reserved offset reads 0 (R68). -/
def hostRead (off : Nat) (s : State) : State :=
  match regAt off with
  | none => { s with busOut := 0 }
  | some .byteData => readByteData s
  | some .symData => readSymData s
  | some .sigData => readSigData s
  | some r => { s with busOut := s.regValue r }

/-- HostWrite of BYTE_DATA while BUSY = 0 (R70). -/
def writeByteData (w : Word) (s : State) : State :=
  if s.byteIdx.toNat < s.params.byteMax.val then
    { s with byteBuf := Memory.write s.byteBuf s.byteIdx.toNat (toByte w), byteIdx := s.byteIdx + 1 }
  else s

/-- HostWrite of SYM_DATA while BUSY = 0 (R70). -/
def writeSymData (w : Word) (s : State) : State :=
  if s.symIdx.toNat < s.params.symMax.val then
    { s with symBuf := Memory.write s.symBuf s.symIdx.toNat (toSymbol w), symIdx := s.symIdx + 1 }
  else s

/-- HostWrite of SIG_DATA while BUSY = 0 (R70). -/
def writeSigData (w : Word) (s : State) : State :=
  if s.sigIdx.toNat < s.params.sigMax.val then
    { s with sigBuf := Memory.write s.sigBuf s.sigIdx.toNat (toSample w), sigIdx := s.sigIdx + 1 }
  else s

/-- A host write to a register other than CMD while BUSY = 0 (R67). Read-only registers ignore it. -/
def writeReg (r : Reg) (w : Word) (s : State) : State :=
  match r with
  | .cmd => s
  | .status => writeStatus w s
  | .ctrl => { s with refscan := w.getLsbD 0 }
  | .irqEn => { s with ieDone := w.getLsbD 1, ieNotfound := w.getLsbD 3, ieErr := w.getLsbD 4 }
  | .sampleRate => { s with sampleRate := w }
  | .baudRate => { s with baudRate := w }
  | .carrierFreq => { s with carrierFreq := w }
  | .bitDepth => { s with bitDepth := w }
  | .lpfN => { s with lpfN := w }
  | .period => { s with period := w }
  | .thresh => { s with thresh := w }
  | .sps => s
  | .byteLen => { s with byteLen := w }
  | .symLen => { s with symLen := w }
  | .sigLen => { s with sigLen := w }
  | .payloadStart => { s with payloadStart := w }
  | .errInfo => s
  | .capByte => s
  | .capSym => s
  | .capSig => s
  | .byteIdx => { s with byteIdx := w }
  | .byteData => writeByteData w s
  | .symIdx => { s with symIdx := w }
  | .symData => writeSymData w s
  | .sigIdx => { s with sigIdx := w }
  | .sigData => writeSigData w s

/-- HostWrite(off, w) for every register but CMD: no effect while BUSY = 1 (R73), none at a reserved offset (R68). -/
def hostWrite (off : Nat) (w : Word) (s : State) : State :=
  if s.busy then s
  else match regAt off with
    | none => s
    | some r => writeReg r w s

/-- What a CMD write does before a command runs: the command to run, or the state of the branches of R195 that
run none (dropped while BUSY = 1 or ERR = 1; E_CMD for an illegal word). -/
def commandRequest (w : Word) (s : State) : Except State Instr :=
  if s.busy then .error s
  else if s.err then .error s
  else match decode w with
    | .error _ => .error (commandErrorEntry s)
    | .ok i => .ok i

end Sys2Proof.Machine
end

