-- ==== Sys2Proof/Machine/Bus.lean ====
section
/-! DEFINITION. What one entry of the schedule does: a bus access, the ENGINE's turn, an edge of `rst`. -/

namespace Sys2Proof.Machine

/-- A HostWrite of CMD: the command word is decoded as it is written and never read again (R79, R195). -/
def writeCommand (w : Word) (s : State) : Host.Outcome State Fault Refusal :=
  match commandRequest w s with
  | .error t => .next t
  | .ok i => exec i s

/-- A HostRead at a register offset (R66). While `rst` is asserted the host reads the reset state and leaves it as
it is: no index moves on (R245, log 15). -/
def busRead (off : Nat) (s : State) : State :=
  if s.rstAsserted then { s with busOut := (hostRead off s).busOut }
  else hostRead off s

/-- A HostWrite at a register offset (R66). While `rst` is asserted it has no effect, because the state is the
reset state (R245, log 15). -/
def busWrite (off : Nat) (w : Word) (s : State) : Host.Outcome State Fault Refusal :=
  if s.rstAsserted then .next s
  else if regAt off = some .cmd then writeCommand w s else .next (hostWrite off w s)

/-- The ENGINE's turn: its step if it has one, which is exactly while BUSY = 1 (R197); never while `rst` is
asserted, since BUSY = 0 in the reset state. -/
def engineTurn (s : State) : Host.Outcome State Fault Refusal :=
  if s.busy then exec s.op s else .next s

/-- What one entry of the schedule does. -/
def eventStep (e : Event) (s : State) : Host.Outcome State Fault Refusal :=
  match e with
  | .engine => engineTurn s
  | .assertRst => .next (assertReset s)
  | .releaseRst => .next (releaseReset s)
  | .read a =>
    match busOffset s.params a with
    | none => .refused .notAWordAccess
    | some off => .next (busRead off s)
  | .write a w =>
    match busOffset s.params a with
    | none => .refused .notAWordAccess
    | some off => busWrite off w s

end Sys2Proof.Machine
end

