-- ==== Sys2Proof/Machine/Step.lean ====
section
/-! DEFINITION. One step of the block: the next entry of the schedule (00_scope.md R12, log 2). -/

namespace Sys2Proof.Machine

/-- One step: the next entry of the schedule. With nothing scheduled the ENGINE takes its enabled step (R262),
and an idle block waits for the host (R50). -/
def step (s : State) : Host.Outcome State Fault Refusal :=
  match s.agenda with
  | [] => engineTurn s
  | e :: rest => eventStep e { s with agenda := rest }

/-- `s` with the command word `w` written to CMD by the host as its next access, the block ready to take it:
out of reset, idle and with no error to acknowledge (R195, R245). From reset only the schedule changes (log 13). -/
def State.withFetchWord (s : State) (nbits w : Nat) : State :=
  { s with
    rstAsserted := false, busy := false, stage := none, err := false, errCode := none, errStage := none
    agenda := .write s.params.base (BitVec.ofNat 32 (w % 2 ^ nbits)) :: s.agenda }

end Sys2Proof.Machine
end

