-- ==== Sys2Proof/Safety.lean ====
section
/-! DEFINITION. What counts as a sound state and a sound schedule, in the terms the statements use. -/

namespace Sys2Proof.Machine

/-- (OP, STAGE) is a pair that the sequencer can hold while BUSY = 1: a stage of the command, or no stage for
NOP (44_sequencer_commands.md R195, R196). -/
def sequencerOnTable (i : Instr) (st : Option Stage) : Bool :=
  match st with
  | none => decide (i = .nop)
  | some t => decide (nextStage i t false ≠ .offTable)

/-- A sample buffer holds only samples of the legal range (10_state.md R45). -/
abbrev samplesInRange (m : List (Nat × Sample)) : Prop := ∀ c ∈ m, c.2.inRange = true

/-- The invariants of 10_state.md R52 and R45, with the canonical form of the buffers (20_memory.md R60) and the
reset state held while `rst` is asserted (70_reset_and_hazards.md R245). -/
structure State.Inv (s : State) : Prop where
  /-- R52 (a). -/
  notBothFlags : ¬(s.found = true ∧ s.notfound = true)
  /-- R52 (b). -/
  busyClean : s.busy = true → s.done = false ∧ s.err = false
  /-- R52 (c). -/
  idleNoStage : s.busy = false → s.stage = none
  /-- R52 (d), first half. -/
  noErrorNoInfo : s.err = false → s.errCode = none ∧ s.errStage = none
  /-- R52 (d), second half. -/
  errorHasCode : s.err = true → s.errCode ≠ none
  /-- R196: while BUSY = 1 the sequencer stands on its table. -/
  onTable : s.busy = true → sequencerOnTable s.op s.stage = true
  /-- R45, R52 (f). -/
  sigRange : samplesInRange s.sigBuf
  byteWf : Memory.wf s.byteBuf
  symWf : Memory.wf s.symBuf
  sigWf : Memory.wf s.sigBuf
  byteBelow : Memory.below s.byteBuf s.params.byteMax.val
  symBelow : Memory.below s.symBuf s.params.symMax.val
  sigBelow : Memory.below s.sigBuf s.params.sigMax.val
  /-- While `rst` is asserted the state is the reset state (70_reset_and_hazards.md R245). -/
  heldInReset : s.rstAsserted = true → s = resetOf s

/-- The bus can express an entry of the schedule (20_memory.md R64). -/
def eventExpressible (p : Config.Params) (e : Event) : Bool :=
  match e with
  | .read a => wellFormedBusAddress p a
  | .write a _ => wellFormedBusAddress p a
  | .engine => true
  | .assertRst => true
  | .releaseRst => true

/-- A host read of the register at offset `off` gives the word `v` and has no other effect (20_memory.md R66). -/
def ReadsAs (s : State) (off : Nat) (v : Word) : Prop :=
  ∀ rest, s.agenda = .read (s.params.base + off) :: rest →
    step s = .next { s with agenda := rest, busOut := v }

/-- A host write of `w` at offset `off` leaves the state `t`, the schedule aside (R66). -/
def WriteLeaves (s : State) (off : Nat) (w : Word) (t : State) : Prop :=
  ∀ rest, s.agenda = .write (s.params.base + off) w :: rest → step s = .next { t with agenda := rest }

/-- What the model holds of the block itself, the model's own schedule and host word set aside: two states
with one value of this agree in everything that the spec calls state. -/
def State.block (s : State) : State := { s with agenda := [], busOut := 0 }

/-! ### What a stage needs and what it does, by reads of elements: the rules of the stages as relations -/

/-- The `require` block of ENC (40_bitencoder_modulator.md R120). -/
def EncReady (s : State) : Prop :=
  s.byteLen.toNat ≤ s.params.byteMax.val ∧ 8 + 8 * s.byteLen.toNat ≤ s.params.symMax.val

/-- The `require` block of MOD (R123). -/
def ModReady (s : State) : Prop :=
  1 ≤ s.sps ∧ s.symLen.toNat ≤ s.params.symMax.val ∧ s.symLen.toNat * s.sps ≤ s.params.sigMax.val

/-- The `require` block of RECT (41_envelope_detector.md R140). -/
def RectReady (s : State) : Prop := s.sigLen.toNat ≤ s.params.sigMax.val

/-- The `require` block of LPF (R143). -/
def LpfReady (s : State) : Prop := 1 ≤ s.lpfN.toNat ∧ s.sigLen.toNat ≤ s.params.sigMax.val

/-- The `require` block of SLICE (42_sampler_slicer.md R160). -/
def SliceReady (s : State) : Prop :=
  1 ≤ s.period.toNat ∧ (1 ≤ s.bitDepth.toNat ∧ s.bitDepth.toNat ≤ 32)
    ∧ s.sigLen.toNat ≤ s.params.sigMax.val
    ∧ s.sigLen.toNat / s.period.toNat ≤ s.params.symMax.val

/-- The `require` block of SYNC (43_framesync_deserializer.md R175). -/
def SyncReady (s : State) : Prop := s.symLen.toNat ≤ s.params.symMax.val

/-- The `require` block of DEC (R181). -/
def DecReady (s : State) : Prop :=
  s.symLen.toNat ≤ s.params.symMax.val ∧ s.payloadStart.toNat ≤ s.symLen.toNat
    ∧ (s.symLen.toNat - s.payloadStart.toNat) / 8 ≤ s.params.byteMax.val

/-- The effect of ENC from `s` to `t`, the handshake (BUSY, DONE, STAGE) set aside (R120). -/
def EncEffect (s t : State) : Prop :=
  { t with symBuf := s.symBuf, symLen := s.symLen,
           busy := s.busy, done := s.done, stage := s.stage } = s
  ∧ t.symLen.toNat = 8 + 8 * s.byteLen.toNat
  ∧ (∀ j, j < 8 → t.symAt j = decide (j % 2 = 0))
  ∧ (∀ c j, c < s.byteLen.toNat → j < 8 → t.symAt (8 + 8 * c + j) = (s.byteAt c).getLsbD (7 - j))
  ∧ (∀ i, 8 + 8 * s.byteLen.toNat ≤ i → t.symAt i = s.symAt i)

/-- The effect of MOD from `s` to `t`, the handshake set aside (R123, R126, R127). -/
def ModEffect (s t : State) : Prop :=
  { t with sigBuf := s.sigBuf, sigLen := s.sigLen,
           busy := s.busy, done := s.done, stage := s.stage } = s
  ∧ t.sigLen.toNat = s.symLen.toNat * s.sps
  ∧ (∀ a k, a < s.symLen.toNat → k < s.sps →
      (t.sigAt (a * s.sps + k)).toInt
        = if s.symAt a then sinQ s.sampleRate.toNat s.carrierFreq.toNat k else 0)
  ∧ (∀ i, s.symLen.toNat * s.sps ≤ i → t.sigAt i = s.sigAt i)

/-- The effect of RECT from `s` to `t`, the handshake set aside (R140). -/
def RectEffect (s t : State) : Prop :=
  { t with sigBuf := s.sigBuf, busy := s.busy, done := s.done, stage := s.stage } = s
  ∧ (∀ i, i < s.sigLen.toNat → (t.sigAt i).toInt = |(s.sigAt i).toInt|)
  ∧ (∀ i, s.sigLen.toNat ≤ i → t.sigAt i = s.sigAt i)

/-- The effect of LPF from `s` to `t`, the handshake set aside: output `i` is the floor of the mean of the
samples from max(0, i - n + 1) to i (R143). -/
def LpfEffect (s t : State) : Prop :=
  { t with sigBuf := s.sigBuf, busy := s.busy, done := s.done, stage := s.stage } = s
  ∧ (∀ i, i < s.sigLen.toNat →
      let lo := i + 1 - s.lpfN.toNat
      (t.sigAt i).toInt
        = (∑ j ∈ Finset.Icc lo i, (s.sigAt j).toInt) / ((i - lo + 1 : Nat) : Int))
  ∧ (∀ i, s.sigLen.toNat ≤ i → t.sigAt i = s.sigAt i)

/-- The effect of SLICE from `s` to `t`, the handshake set aside (R160). -/
def SliceEffect (s t : State) : Prop :=
  { t with symBuf := s.symBuf, symLen := s.symLen,
           busy := s.busy, done := s.done, stage := s.stage } = s
  ∧ t.symLen.toNat = s.sigLen.toNat / s.period.toNat
  ∧ (∀ i, i < s.sigLen.toNat / s.period.toNat →
      t.symAt i = decide
        ((∑ j ∈ Finset.range s.period.toNat, (s.sigAt (i * s.period.toNat + j)).toInt)
            * 2 ^ s.bitDepth.toNat > (s.thresh.toNat : Int) * s.period.toNat))
  ∧ (∀ i, s.sigLen.toNat / s.period.toNat ≤ i → t.symAt i = s.symAt i)

/-- The preamble stands in SYM from index `i` on (R175, R178). -/
def PreambleStandsAt (s : State) (i : Nat) : Prop := ∀ j, j < 8 → s.symAt (i + j) = decide (j % 2 = 0)

/-- The scan of SYNC tests position `i`: i <= L - 8, or i <= L - 9 with REFSCAN = 1 (R175, R176). -/
def ScanTests (s : State) (i : Nat) : Prop :=
  i + 8 + (if s.refscan then 1 else 0) ≤ s.symLen.toNat

/-- The effect of SYNC from `s` to `t`, the handshake set aside (R175, R177, R179). -/
def SyncEffect (s t : State) : Prop :=
  { t with payloadStart := s.payloadStart, found := s.found, notfound := s.notfound,
           busy := s.busy, done := s.done, stage := s.stage } = s
  ∧ (∀ hit, ScanTests s hit → PreambleStandsAt s hit → (∀ i, i < hit → ¬PreambleStandsAt s i) →
      t.payloadStart.toNat = hit + 8 ∧ t.found = true ∧ t.notfound = false)
  ∧ ((∀ i, ScanTests s i → ¬PreambleStandsAt s i) →
      t.payloadStart = 0xFFFFFFFF ∧ t.found = false ∧ t.notfound = true)

/-- The effect of DEC from `s` to `t`, the handshake set aside (R181). -/
def DecEffect (s t : State) : Prop :=
  { t with byteBuf := s.byteBuf, byteLen := s.byteLen,
           busy := s.busy, done := s.done, stage := s.stage } = s
  ∧ t.byteLen.toNat = (s.symLen.toNat - s.payloadStart.toNat) / 8
  ∧ (∀ c j, c < (s.symLen.toNat - s.payloadStart.toNat) / 8 → j < 8 →
      (t.byteAt c).getLsbD (7 - j) = s.symAt (s.payloadStart.toNat + 8 * c + j))
  ∧ (∀ i, (s.symLen.toNat - s.payloadStart.toNat) / 8 ≤ i → t.byteAt i = s.byteAt i)

/-- The command has finished (44_sequencer_commands.md R197). -/
def Finished (t : State) : Prop := t.busy = false ∧ t.stage = none ∧ t.done = true

/-- The command goes on with stage `st` (R197). -/
def GoesOn (s t : State) (st : Stage) : Prop :=
  t.busy = true ∧ t.stage = some st ∧ t.done = s.done

/-- The state after error entry with code `c` raised by stage `st` (60_exceptions.md R221): nothing else changed. -/
def afterError (s : State) (c : ErrCode) (st : Stage) : State :=
  { s with errCode := some c, errStage := some st, err := true, stage := none, busy := false }

/-! ### The causes of the stage errors -/

/-- All causes of E_CFG (60_exceptions.md R217). -/
def CfgCause (s : State) (st : Stage) : Prop :=
  match st with
  | .mod => s.baudRate = 0 ∨ s.sampleRate = 0 ∨ s.sampleRate.toNat < s.baudRate.toNat
  | .lpf => s.lpfN = 0
  | .slice => s.period = 0 ∨ s.bitDepth = 0 ∨ 32 < s.bitDepth.toNat
  | .enc | .rect | .sync | .dec => False

/-- All causes of E_RANGE (R218). -/
def RangeCause (s : State) (st : Stage) : Prop :=
  match st with
  | .enc => s.params.byteMax.val < s.byteLen.toNat
  | .mod => s.params.symMax.val < s.symLen.toNat
  | .rect | .lpf | .slice => s.params.sigMax.val < s.sigLen.toNat
  | .sync => s.params.symMax.val < s.symLen.toNat
  | .dec => s.params.symMax.val < s.symLen.toNat ∨ s.symLen.toNat < s.payloadStart.toNat

/-- All causes of E_OVF (R219). -/
def OvfCause (s : State) (st : Stage) : Prop :=
  match st with
  | .enc => s.params.symMax.val < 8 + 8 * s.byteLen.toNat
  | .mod => s.params.sigMax.val < s.symLen.toNat * s.sps
  | .slice => s.params.symMax.val < s.sigLen.toNat / s.period.toNat
  | .dec => s.params.byteMax.val < (s.symLen.toNat - s.payloadStart.toNat) / 8
  | .rect | .lpf | .sync => False

end Sys2Proof.Machine
end

