-- ==== Sys2Proof/Certificates/Slice0/Obligations.lean ====
section
/-! DEFINITION. The statements about the model, each from the numbered rules of spec/. -/

open Sys2Proof Sys2Proof.Machine

/-! ### Encoding -/

/-- The opcode map of R100 on the words written out, and one illegal word of each kind of R101. -/
def Obligations.DecoderReadsTheOpcodeMap : Prop :=
  decode 0x00000000 = .ok .nop ∧ decode 0x00000001 = .ok .enc ∧ decode 0x00000002 = .ok .mod
  ∧ decode 0x00000003 = .ok .rect ∧ decode 0x00000004 = .ok .lpf ∧ decode 0x00000005 = .ok .slice
  ∧ decode 0x00000006 = .ok .sync ∧ decode 0x00000007 = .ok .dec ∧ decode 0x00000008 = .ok .tx
  ∧ decode 0x00000009 = .ok .rx
  ∧ decode 0x0000000A = .error .reservedOpcode ∧ decode 0x00000011 = .error .zeroFieldSet

/-- Decoder and encoder agree on every well-formed command and on every 32-bit word, and the illegal words are
exactly those of R101. -/
def Obligations.DecodeAndEncodeAgree : Prop :=
  (∀ i : Instr, i.wellFormed = true → decode (encode i) = .ok i)
  ∧ (∀ (w : Word) (i : Instr), decode w = .ok i → encode i = w)
  ∧ (∀ w : Word, (∃ r, decode w = .error r) ↔ (16 ≤ w.toNat ∨ 10 ≤ w.toNat % 16))

/-! ### Reset and the step -/

/-- R50: every register and field after reset, `irq`, and buffer elements that nothing has written. -/
def Obligations.ResetLeavesEveryRegisterZero : Prop :=
  State.reset.busy = false ∧ State.reset.done = false ∧ State.reset.found = false
  ∧ State.reset.notfound = false ∧ State.reset.err = false
  ∧ stageCode State.reset.stage = 0 ∧ opcode State.reset.op = 0
  ∧ errorCode State.reset.errCode = 0 ∧ stageCode State.reset.errStage = 0
  ∧ State.reset.refscan = false ∧ State.reset.irqEnWord = 0
  ∧ State.reset.sampleRate = 0 ∧ State.reset.baudRate = 0 ∧ State.reset.carrierFreq = 0
  ∧ State.reset.bitDepth = 0 ∧ State.reset.lpfN = 0 ∧ State.reset.period = 0 ∧ State.reset.thresh = 0
  ∧ State.reset.byteLen = 0 ∧ State.reset.symLen = 0 ∧ State.reset.sigLen = 0
  ∧ State.reset.payloadStart = 0
  ∧ State.reset.byteIdx = 0 ∧ State.reset.symIdx = 0 ∧ State.reset.sigIdx = 0
  ∧ State.reset.byteBuf = [] ∧ State.reset.symBuf = [] ∧ State.reset.sigBuf = []
  ∧ State.reset.irq = false

/-- R245, R247: asserting `rst` in any state, at any moment, leaves the reset state with `rst` asserted and
every buffer element unknown afresh; releasing an input that is not asserted changes nothing. The parameters,
the rest of the schedule and the host's word are the model's own (log 2, log 3, log 4, log 6). -/
def Obligations.ResetInputLeavesTheResetState : Prop :=
  ∀ (s : State) (rest : List Event),
    (s.agenda = .assertRst :: rest →
      step s = .next { State.reset with
        rstAsserted := true, params := s.params, agenda := rest, busOut := s.busOut, resets := s.resets + 1 })
    ∧ (s.agenda = .releaseRst :: rest → s.rstAsserted = false → step s = .next { s with agenda := rest })

/-- R245, R12: while `rst` is asserted the state is the reset state, whatever the host and the ENGINE do, until
`rst` is released; at its release it is the reset state too. The premise is the invariant, which says that an
asserted `rst` holds the reset state. That a read gives the value that stands in the reset state and moves no
index, and that a write is dropped, is read from these rules (log 15). -/
def Obligations.HeldResetIsLeftOnlyByItsRelease : Prop :=
  ∀ s : State, s.Inv → s.rstAsserted = true →
    let held (rest : List Event) (w : Word) : State :=
      { State.reset with
        rstAsserted := true, params := s.params, agenda := rest, busOut := w, resets := s.resets }
    (s.agenda = [] → step s = .next (held [] s.busOut))
    ∧ (∀ rest, s.agenda = .engine :: rest → step s = .next (held rest s.busOut))
    ∧ (∀ a w rest, s.agenda = .write a w :: rest → eventExpressible s.params (.write a w) = true →
        step s = .next (held rest s.busOut))
    ∧ (∀ a rest, s.agenda = .read a :: rest → eventExpressible s.params (.read a) = true →
        ∃ v, step s = .next (held rest v)
          ∧ (a = s.params.base + 0x54 → v.toNat = if s.params.byteMax.val = 0 then 0 else (s.byteAt 0).toNat)
          ∧ (a = s.params.base + 0x5C → v.toNat = if s.params.symMax.val = 0 then 0 else (s.symAt 0).toNat)
          ∧ (a = s.params.base + 0x64 → v.toInt = if s.params.sigMax.val = 0 then 0 else (s.sigAt 0).toInt))
    ∧ (∀ rest, s.agenda = .releaseRst :: rest →
        step s = .next { State.reset with
          params := s.params, agenda := rest, busOut := s.busOut, resets := s.resets })

/-- A step runs the decoded command: the word that the host writes to CMD of an idle block without error, `rst`
released. -/
def Obligations.StepRunsTheDecodedCommandWord : Prop :=
  ∀ (s : State) (w : Word) (i : Instr) (rest : List Event),
    s.rstAsserted = false → s.busy = false → s.err = false → s.agenda = .write s.params.base w :: rest →
    decode w = .ok i → step s = exec i { s with agenda := rest }

/-- A step at the ENGINE's turn runs the accepted command; the ENGINE has a step exactly while BUSY = 1 (R197);
with nothing scheduled it is the ENGINE's turn (the model's choice, log 2). -/
def Obligations.StepAtTheEnginesTurnRunsTheAcceptedCommand : Prop :=
  ∀ s : State,
    (s.busy = true → s.agenda = [] → step s = exec s.op s)
    ∧ (∀ rest, s.busy = true → s.agenda = .engine :: rest →
        step s = exec s.op { s with agenda := rest })
    ∧ (s.busy = false → s.agenda = [] → step s = .next s)
    ∧ (∀ rest, s.busy = false → s.agenda = .engine :: rest → step s = .next { s with agenda := rest })

/-- R195: what a host write of the word `w` to CMD does, in its four branches (`rst` released; while it is
asserted HeldResetIsLeftOnlyByItsRelease says what happens). -/
def Obligations.CommandWriteIsAcceptedOrDroppedOrRefused : Prop :=
  ∀ (s : State) (w : Word) (rest : List Event), s.rstAsserted = false →
    s.agenda = .write s.params.base w :: rest →
    ∃ t, step s = .next t
      ∧ (s.busy = true → t = { s with agenda := rest })
      ∧ (s.busy = false → s.err = true → t = { s with agenda := rest })
      ∧ (s.busy = false → s.err = false → (w.toNat / 16 ≠ 0 ∨ 10 ≤ w.toNat % 16) →
          t = { s with agenda := rest, done := false, err := true,
                       errCode := some .cmd, errStage := none }
          ∧ t.errInfoWord = 1)
      ∧ (s.busy = false → s.err = false → w.toNat / 16 = 0 → w.toNat % 16 < 10 →
          t = { s with agenda := rest, op := t.op, stage := t.stage, done := false, busy := true }
          ∧ (opcode t.op).toNat = w.toNat % 16
          ∧ (stageCode t.stage).toNat
              = if w.toNat % 16 = 8 then 1 else if w.toNat % 16 = 9 then 3 else w.toNat % 16)

/-! ### The commands -/

/-- R200: NOP, its word, its acceptance, its one ENGINE step, and the example from reset. -/
def Obligations.NopFinishesInOneEngineStep : Prop :=
  encode .nop = 0x00000000
  ∧ (∀ s : State, s.busy = false → s.err = false →
      exec .nop s = .next { s with op := .nop, stage := none, busy := true, done := false })
  ∧ (∀ s : State, s.busy = true → s.stage = none →
      exec .nop s = .next { s with busy := false, done := true })
  ∧ (∃ t, core.run 2 (State.reset.withFetchWord 32 0) = .next t ∧ t.statusWord = 0x00000002)

/-- R120: ENC on every state in which its stage runs: its result, and its two errors in order. -/
def Obligations.EncWritesPreambleThenBytes : Prop :=
  encode .enc = 0x00000001 ∧ stageCode (some .enc) = 1
  ∧ ∀ s : State, s.busy = true → s.stage = some .enc →
    (EncReady s → ∃ t, exec .enc s = .next t ∧ EncEffect s t ∧ Finished t)
    ∧ (s.params.byteMax.val < s.byteLen.toNat → exec .enc s = .next (afterError s .range .enc))
    ∧ (s.byteLen.toNat ≤ s.params.byteMax.val → s.params.symMax.val < 8 + 8 * s.byteLen.toNat →
        exec .enc s = .next (afterError s .ovf .enc))

/-- R123: MOD on every state in which its stage runs; SinQ is the model's `sinQ` (R124, log 8). -/
def Obligations.ModWritesCarrierOrSilencePerSymbol : Prop :=
  encode .mod = 0x00000002 ∧ stageCode (some .mod) = 2
  ∧ ∀ s : State, s.busy = true → s.stage = some .mod →
    (ModReady s → ∃ t, exec .mod s = .next t ∧ ModEffect s t ∧ Finished t)
    ∧ ((s.baudRate.toNat = 0 ∨ s.sampleRate.toNat < s.baudRate.toNat) →
        exec .mod s = .next (afterError s .cfg .mod))
    ∧ (1 ≤ s.sps → s.params.symMax.val < s.symLen.toNat →
        exec .mod s = .next (afterError s .range .mod))
    ∧ (1 ≤ s.sps → s.symLen.toNat ≤ s.params.symMax.val →
        s.params.sigMax.val < s.symLen.toNat * s.sps → exec .mod s = .next (afterError s .ovf .mod))

/-- R140: RECT on every state in which its stage runs; the premise is the invariant (its clause of R45 keeps
every sample in the legal range). -/
def Obligations.RectWritesAbsoluteValues : Prop :=
  encode .rect = 0x00000003 ∧ stageCode (some .rect) = 3
  ∧ ∀ s : State, s.Inv → s.busy = true → s.stage = some .rect →
    (RectReady s → ∃ t, exec .rect s = .next t ∧ RectEffect s t ∧ Finished t)
    ∧ (s.params.sigMax.val < s.sigLen.toNat → exec .rect s = .next (afterError s .range .rect))

/-- R143: LPF on every state in which its stage runs; the premise is the invariant (its clause of R45 keeps
every sample in the legal range). -/
def Obligations.LpfWritesFlooredWindowMeans : Prop :=
  encode .lpf = 0x00000004 ∧ stageCode (some .lpf) = 4
  ∧ ∀ s : State, s.Inv → s.busy = true → s.stage = some .lpf →
    (LpfReady s → ∃ t, exec .lpf s = .next t ∧ LpfEffect s t ∧ Finished t)
    ∧ (s.lpfN = 0 → exec .lpf s = .next (afterError s .cfg .lpf))
    ∧ (s.lpfN ≠ 0 → s.params.sigMax.val < s.sigLen.toNat →
        exec .lpf s = .next (afterError s .range .lpf))

/-- R160: SLICE on every state in which its stage runs. -/
def Obligations.SliceComparesWindowSumsExactly : Prop :=
  encode .slice = 0x00000005 ∧ stageCode (some .slice) = 5
  ∧ ∀ s : State, s.busy = true → s.stage = some .slice →
    (SliceReady s → ∃ t, exec .slice s = .next t ∧ SliceEffect s t ∧ Finished t)
    ∧ ((s.period = 0 ∨ s.bitDepth = 0 ∨ 32 < s.bitDepth.toNat) →
        exec .slice s = .next (afterError s .cfg .slice))
    ∧ (s.period ≠ 0 → s.bitDepth ≠ 0 → s.bitDepth.toNat ≤ 32 →
        s.params.sigMax.val < s.sigLen.toNat → exec .slice s = .next (afterError s .range .slice))
    ∧ (s.period ≠ 0 → s.bitDepth ≠ 0 → s.bitDepth.toNat ≤ 32 →
        s.sigLen.toNat ≤ s.params.sigMax.val →
        s.params.symMax.val < s.sigLen.toNat / s.period.toNat →
        exec .slice s = .next (afterError s .ovf .slice))

/-- R175: SYNC on every state in which its stage runs, for both settings of REFSCAN (R176). -/
def Obligations.SyncFindsTheFirstPreamble : Prop :=
  encode .sync = 0x00000006 ∧ stageCode (some .sync) = 6
  ∧ ∀ s : State, s.busy = true → s.stage = some .sync →
    (SyncReady s → ∃ t, exec .sync s = .next t ∧ SyncEffect s t ∧ Finished t
        ∧ (t.found = !t.notfound))
    ∧ (s.params.symMax.val < s.symLen.toNat → exec .sync s = .next (afterError s .range .sync))

/-- R181: DEC on every state in which its stage runs. -/
def Obligations.DecWritesOneBytePerFullGroup : Prop :=
  encode .dec = 0x00000007 ∧ stageCode (some .dec) = 7
  ∧ ∀ s : State, s.busy = true → s.stage = some .dec →
    (DecReady s → ∃ t, exec .dec s = .next t ∧ DecEffect s t ∧ Finished t)
    ∧ (s.params.symMax.val < s.symLen.toNat → exec .dec s = .next (afterError s .range .dec))
    ∧ (s.symLen.toNat < s.payloadStart.toNat → exec .dec s = .next (afterError s .range .dec))
    ∧ (s.symLen.toNat ≤ s.params.symMax.val → s.payloadStart.toNat ≤ s.symLen.toNat →
        s.params.byteMax.val < (s.symLen.toNat - s.payloadStart.toNat) / 8 →
        exec .dec s = .next (afterError s .ovf .dec))

/-- R203: TX runs ENC, then MOD on what ENC left, one ENGINE step each, and finishes. -/
def Obligations.TxRunsEncThenMod : Prop :=
  encode .tx = 0x00000008
  ∧ ∀ s : State, s.busy = true → s.stage = some .enc → EncReady s → 1 ≤ s.sps →
    (8 + 8 * s.byteLen.toNat) * s.sps ≤ s.params.sigMax.val →
    ∃ t u, exec .tx s = .next t ∧ EncEffect s t ∧ GoesOn s t .mod
      ∧ exec .tx t = .next u ∧ ModEffect t u ∧ Finished u
      ∧ u.symLen.toNat = 8 + 8 * s.byteLen.toNat
      ∧ u.sigLen.toNat = (8 + 8 * s.byteLen.toNat) * s.sps

/-- R204: RX runs RECT, LPF, SLICE and SYNC, one ENGINE step each, and DEC exactly if SYNC found the preamble.
-/
def Obligations.RxRunsItsStagesInOrder : Prop :=
  encode .rx = 0x00000009
  ∧ ∀ s : State, s.Inv → s.busy = true → s.stage = some .rect → LpfReady s → SliceReady s →
    s.sigLen.toNat / s.period.toNat / 8 ≤ s.params.byteMax.val →
    ∃ t1 t2 t3 t4,
      exec .rx s = .next t1 ∧ RectEffect s t1 ∧ GoesOn s t1 .lpf
      ∧ exec .rx t1 = .next t2 ∧ LpfEffect t1 t2 ∧ GoesOn s t2 .slice
      ∧ exec .rx t2 = .next t3 ∧ SliceEffect t2 t3 ∧ GoesOn s t3 .sync
      ∧ exec .rx t3 = .next t4 ∧ SyncEffect t3 t4
      ∧ (t4.found = true → GoesOn s t4 .dec
          ∧ ∃ t5, exec .rx t4 = .next t5 ∧ DecEffect t4 t5 ∧ Finished t5)
      ∧ (t4.found = false → Finished t4)

/-- R203, R204, R220: each ENGINE step of TX and of RX runs its stage under that stage's own requirement alone,
whatever the later stages would need, and goes on with the next stage. Where the requirement fails, the statements
on the errors say which error is raised. The premise is the invariant of R52. -/
def Obligations.CompositeStagesRunUnderTheirOwnRequirement : Prop :=
  ∀ s : State, s.Inv → s.busy = true →
    (s.stage = some .enc → EncReady s → ∃ t, exec .tx s = .next t ∧ EncEffect s t ∧ GoesOn s t .mod)
    ∧ (s.stage = some .mod → ModReady s → ∃ t, exec .tx s = .next t ∧ ModEffect s t ∧ Finished t)
    ∧ (s.stage = some .rect → RectReady s → ∃ t, exec .rx s = .next t ∧ RectEffect s t ∧ GoesOn s t .lpf)
    ∧ (s.stage = some .lpf → LpfReady s → ∃ t, exec .rx s = .next t ∧ LpfEffect s t ∧ GoesOn s t .slice)
    ∧ (s.stage = some .slice → SliceReady s →
        ∃ t, exec .rx s = .next t ∧ SliceEffect s t ∧ GoesOn s t .sync)
    ∧ (s.stage = some .sync → SyncReady s →
        ∃ t, exec .rx s = .next t ∧ SyncEffect s t
          ∧ (t.found = true → GoesOn s t .dec) ∧ (t.found = false → Finished t))
    ∧ (s.stage = some .dec → DecReady s → ∃ t, exec .rx s = .next t ∧ DecEffect s t ∧ Finished t)

/-- R223, R220: in RX the stages that finished before a failing SLICE keep their effect: SIG holds the filtered
envelope, SLICE raises E_CFG with ESTAGE = 5, and nothing else is touched. R223's example is PERIOD = 0. -/
def Obligations.RxKeepsTheEnvelopeWhenSliceFails : Prop :=
  ∀ s : State, s.Inv → s.busy = true → s.stage = some .rect → RectReady s → LpfReady s → CfgCause s .slice →
    ∃ t1 t2 u,
      exec .rx s = .next t1 ∧ RectEffect s t1 ∧ exec .rx t1 = .next t2 ∧ LpfEffect t1 t2
      ∧ exec .rx t2 = .next u ∧ u.errInfoWord = 0x0502 ∧ (∀ i, u.sigAt i = t2.sigAt i)
      ∧ u = { s with
          sigBuf := u.sigBuf, busy := false, stage := none, err := true,
          errCode := some .cfg, errStage := some .slice }

/-- R205: RX when SYNC finds no preamble: the command finishes, DEC does not run, BYTE and BYTE_LEN are kept. -/
def Obligations.RxWithoutPreambleSkipsDec : Prop :=
  ∀ s : State, s.busy = true → s.err = false → s.stage = some .sync → SyncReady s →
    (∀ i, ScanTests s i → ¬PreambleStandsAt s i) →
    exec .rx s = .next { s with
      payloadStart := 0xFFFFFFFF, found := false, notfound := true,
      stage := none, busy := false, done := true, err := false }

/-- The spec's own inference in R207, for TX: from the same idle state, TX and the commands ENC and MOD in turn
end alike but for OP; if ENC raises an error the CMD write of MOD is dropped and both end with the same error
and the same buffers. -/
def Obligations.TxEqualsEncThenMod : Prop :=
  ∀ s : State, s.Inv → s.rstAsserted = false → s.busy = false → s.err = false →
    ∃ t u, core.run 3 { s with agenda := [.write s.params.base 8, .engine, .engine] } = .next t
      ∧ core.run 4 { s with agenda :=
          [.write s.params.base 1, .engine, .write s.params.base 2, .engine] } = .next u
      ∧ t.busy = false ∧ u.busy = false
      ∧ { t with op := .nop } = { u with op := .nop }
      ∧ t.op = .tx ∧ (u.op = .mod ∨ (u.err = true ∧ u.errStage = some .enc ∧ u.op = .enc))

/-- The spec's own inference in R207, for RX: from the same idle state, where no stage raises an error, RX ends
like RECT, LPF, SLICE and SYNC in turn, followed by DEC only if FOUND = 1, but for OP. -/
def Obligations.RxEqualsItsPartsInTurn : Prop :=
  ∀ (s t u : State), s.Inv → s.rstAsserted = false → s.busy = false → s.err = false →
    core.run 6 { s with agenda := [.write s.params.base 9, .engine, .engine, .engine, .engine, .engine] }
      = .next t → t.err = false →
    core.run 8 { s with agenda :=
      [.write s.params.base 3, .engine, .write s.params.base 4, .engine,
       .write s.params.base 5, .engine, .write s.params.base 6, .engine] } = .next u →
    (u.found = false → { t with op := .nop } = { u with op := .nop })
    ∧ (u.found = true →
        ∃ v, core.run 2 { u with agenda := [.write s.params.base 7, .engine] } = .next v
          ∧ { t with op := .nop } = { v with op := .nop })

/-! ### Errors -/

/-- R217: E_CFG is raised exactly on its causes, whatever the command, and the entry records CODE 2 and the
stage and writes nothing else (R221). The premise is the invariant of R52. -/
def Obligations.ConfigurationErrorExactlyOnItsCauses : Prop :=
  ∀ (i : Instr) (s : State) (st : Stage), s.Inv → s.busy = true → s.stage = some st →
    ((∃ t, exec i s = .next t ∧ t.errCode = some .cfg) ↔ CfgCause s st)
    ∧ (CfgCause s st → exec i s = .next (afterError s .cfg st)
        ∧ (afterError s .cfg st).errInfoWord.toNat = 256 * (stageCode (some st)).toNat + 2)

/-- R218 with the order of R220: E_RANGE is raised exactly on its causes where no E_CFG cause comes first. -/
def Obligations.RangeErrorExactlyOnItsCauses : Prop :=
  ∀ (i : Instr) (s : State) (st : Stage), s.Inv → s.busy = true → s.stage = some st →
    ((∃ t, exec i s = .next t ∧ t.errCode = some .range) ↔ ¬CfgCause s st ∧ RangeCause s st)
    ∧ (¬CfgCause s st → RangeCause s st → exec i s = .next (afterError s .range st)
        ∧ (afterError s .range st).errInfoWord.toNat = 256 * (stageCode (some st)).toNat + 3)

/-- R219 with the order of R220: E_OVF is raised exactly on its causes where no earlier cause comes first. -/
def Obligations.OverflowErrorExactlyOnItsCauses : Prop :=
  ∀ (i : Instr) (s : State) (st : Stage), s.Inv → s.busy = true → s.stage = some st →
    ((∃ t, exec i s = .next t ∧ t.errCode = some .ovf)
      ↔ ¬CfgCause s st ∧ ¬RangeCause s st ∧ OvfCause s st)
    ∧ (¬CfgCause s st → ¬RangeCause s st → OvfCause s st → exec i s = .next (afterError s .ovf st)
        ∧ (afterError s .ovf st).errInfoWord.toNat = 256 * (stageCode (some st)).toNat + 4)

/-- R221, R222: error entry. An ENGINE step that ends with ERR = 1 has written CODE, ESTAGE, ERR, STAGE and BUSY
and nothing else; the code is 2, 3 or 4. -/
def Obligations.ErrorEntryWritesNothingElse : Prop :=
  ∀ (i : Instr) (s t : State), s.Inv → s.busy = true → exec i s = .next t → t.err = true →
    ∃ c st, s.stage = some st ∧ t = afterError s c st
      ∧ (c = .cfg ∨ c = .range ∨ c = .ovf)
      ∧ t.errInfoWord = BitVec.ofNat 32 (256 * (stageCode (some st)).toNat + (errorCode (some c)).toNat)

/-- R224 and the STATUS part of R23: a host write of `w` to STATUS while BUSY = 0; that it leaves ERR_INFO alone
where ERR = 0 is read from R224 (log 12). -/
def Obligations.StatusWriteClearsTheWrittenFlags : Prop :=
  ∀ (s : State) (w : Word) (rest : List Event), s.rstAsserted = false → s.busy = false →
    s.agenda = .write (s.params.base + 0x04) w :: rest →
    ∃ t, step s = .next t
      ∧ t = { s with agenda := rest, done := t.done, found := t.found, notfound := t.notfound,
                     err := t.err, errCode := t.errCode, errStage := t.errStage }
      ∧ (t.done = (s.done && !w.getLsbD 1)) ∧ (t.found = (s.found && !w.getLsbD 2))
      ∧ (t.notfound = (s.notfound && !w.getLsbD 3)) ∧ (t.err = (s.err && !w.getLsbD 4))
      ∧ (w.getLsbD 4 = true → s.err = true → t.errInfoWord = 0)
      ∧ ((w.getLsbD 4 = false ∨ s.err = false) → t.errCode = s.errCode ∧ t.errStage = s.errStage)

/-- R225: while ERR = 1 the recorded cause is kept by every step but the acknowledge and `rst`. -/
def Obligations.RecordedErrorIsKeptUntilAcknowledged : Prop :=
  ∀ (s t : State), s.Inv → s.err = true → step s = .next t → t.err = true →
    t.errCode = s.errCode ∧ t.errStage = s.errStage ∧ t.busy = false

/-! ### The bus -/

/-- R23: STATUS as the host reads it, at any time (R74), with no other effect. -/
def Obligations.StatusReadsItsFields : Prop :=
  ∀ (s : State) (rest : List Event), s.agenda = .read (s.params.base + 0x04) :: rest →
    ∃ t, step s = .next t ∧ t = { s with agenda := rest, busOut := t.busOut }
      ∧ t.busOut.getLsbD 0 = s.busy ∧ t.busOut.getLsbD 1 = s.done ∧ t.busOut.getLsbD 2 = s.found
      ∧ t.busOut.getLsbD 3 = s.notfound ∧ t.busOut.getLsbD 4 = s.err
      ∧ t.busOut.extractLsb' 5 3 = 0
      ∧ t.busOut.extractLsb' 8 4 = stageCode s.stage
      ∧ t.busOut.extractLsb' 12 4 = opcode s.op
      ∧ t.busOut.extractLsb' 16 16 = 0

/-- R73: while BUSY = 1 a host write at any offset of the window has no effect. -/
def Obligations.WritesAreDroppedWhileBusy : Prop :=
  ∀ (s : State) (off : Nat) (w : Word) (rest : List Event), s.busy = true → off < 256 → off % 4 = 0 →
    s.agenda = .write (s.params.base + off) w :: rest → step s = .next { s with agenda := rest }

/-- R74 with R71: while BUSY = 1 a host read has no effect on the block, and the DATA ports read 0. -/
def Obligations.ReadsWhileBusyHaveNoEffect : Prop :=
  ∀ (s : State) (off : Nat) (rest : List Event), s.busy = true → off < 256 → off % 4 = 0 →
    s.agenda = .read (s.params.base + off) :: rest →
    ∃ t, step s = .next t ∧ t = { s with agenda := rest, busOut := t.busOut }
      ∧ ((off = 0x54 ∨ off = 0x5C ∨ off = 0x64) → t.busOut = 0)
      ∧ (off = 0x30 → t.busOut = s.byteLen) ∧ (off = 0x34 → t.busOut = s.symLen)
      ∧ (off = 0x38 → t.busOut = s.sigLen) ∧ (off = 0x3C → t.busOut = s.payloadStart)

/-- R70, with the conversions of R72: a host write of a DATA port, below the capacity, at or above it, and while
BUSY = 1. The premise is the invariant of R60 (the canonical buffers); a write is taken while `rst` is released
(R245). -/
def Obligations.DataPortWriteStoresOneElement : Prop :=
  ∀ (s : State) (w : Word) (rest : List Event), s.Inv →
    (s.agenda = .write (s.params.base + 0x54) w :: rest →
      ∃ t, step s = .next t
        ∧ { t with byteBuf := s.byteBuf, byteIdx := s.byteIdx } = { s with agenda := rest }
        ∧ (s.rstAsserted = false → s.busy = false → s.byteIdx.toNat < s.params.byteMax.val →
            t.byteAt s.byteIdx.toNat = w.extractLsb' 0 8 ∧ t.byteIdx.toNat = s.byteIdx.toNat + 1
            ∧ ∀ i, i ≠ s.byteIdx.toNat → t.byteAt i = s.byteAt i)
        ∧ ((s.busy = true ∨ s.params.byteMax.val ≤ s.byteIdx.toNat) → t = { s with agenda := rest }))
    ∧ (s.agenda = .write (s.params.base + 0x5C) w :: rest →
      ∃ t, step s = .next t
        ∧ { t with symBuf := s.symBuf, symIdx := s.symIdx } = { s with agenda := rest }
        ∧ (s.rstAsserted = false → s.busy = false → s.symIdx.toNat < s.params.symMax.val →
            t.symAt s.symIdx.toNat = w.getLsbD 0 ∧ t.symIdx.toNat = s.symIdx.toNat + 1
            ∧ ∀ i, i ≠ s.symIdx.toNat → t.symAt i = s.symAt i)
        ∧ ((s.busy = true ∨ s.params.symMax.val ≤ s.symIdx.toNat) → t = { s with agenda := rest }))
    ∧ (s.agenda = .write (s.params.base + 0x64) w :: rest →
      ∃ t, step s = .next t
        ∧ { t with sigBuf := s.sigBuf, sigIdx := s.sigIdx } = { s with agenda := rest }
        ∧ (s.rstAsserted = false → s.busy = false → s.sigIdx.toNat < s.params.sigMax.val →
            (t.sigAt s.sigIdx.toNat).toInt = (w.extractLsb' 0 16).toInt
            ∧ t.sigIdx.toNat = s.sigIdx.toNat + 1
            ∧ ∀ i, i ≠ s.sigIdx.toNat → t.sigAt i = s.sigAt i)
        ∧ ((s.busy = true ∨ s.params.sigMax.val ≤ s.sigIdx.toNat) → t = { s with agenda := rest }))

/-- R71, with the conversions of R72: a host read of a DATA port, below the capacity, at or above it, and while
BUSY = 1; a read at any other offset has no side effect on the block. An index moves on while
`rst` is released (R245). -/
def Obligations.DataPortReadReturnsOneElement : Prop :=
  ∀ (s : State) (rest : List Event),
    (s.agenda = .read (s.params.base + 0x54) :: rest →
      ∃ t, step s = .next t
        ∧ { t with byteIdx := s.byteIdx, busOut := s.busOut } = { s with agenda := rest }
        ∧ (s.rstAsserted = false → s.busy = false → s.byteIdx.toNat < s.params.byteMax.val →
            t.busOut.toNat = (s.byteAt s.byteIdx.toNat).toNat ∧ t.byteIdx.toNat = s.byteIdx.toNat + 1)
        ∧ ((s.busy = true ∨ s.params.byteMax.val ≤ s.byteIdx.toNat) → t.busOut = 0 ∧ t.byteIdx = s.byteIdx))
    ∧ (s.agenda = .read (s.params.base + 0x5C) :: rest →
      ∃ t, step s = .next t
        ∧ { t with symIdx := s.symIdx, busOut := s.busOut } = { s with agenda := rest }
        ∧ (s.rstAsserted = false → s.busy = false → s.symIdx.toNat < s.params.symMax.val →
            t.busOut.toNat = (s.symAt s.symIdx.toNat).toNat ∧ t.symIdx.toNat = s.symIdx.toNat + 1)
        ∧ ((s.busy = true ∨ s.params.symMax.val ≤ s.symIdx.toNat) → t.busOut = 0 ∧ t.symIdx = s.symIdx))
    ∧ (s.agenda = .read (s.params.base + 0x64) :: rest →
      ∃ t, step s = .next t
        ∧ { t with sigIdx := s.sigIdx, busOut := s.busOut } = { s with agenda := rest }
        ∧ (s.rstAsserted = false → s.busy = false → s.sigIdx.toNat < s.params.sigMax.val →
            t.busOut.toInt = (s.sigAt s.sigIdx.toNat).toInt ∧ t.sigIdx.toNat = s.sigIdx.toNat + 1)
        ∧ ((s.busy = true ∨ s.params.sigMax.val ≤ s.sigIdx.toNat) → t.busOut = 0 ∧ t.sigIdx = s.sigIdx))
    ∧ (∀ off, off < 256 → off % 4 = 0 → off ≠ 0x54 → off ≠ 0x5C → off ≠ 0x64 →
      s.agenda = .read (s.params.base + off) :: rest →
      ∃ t, step s = .next t ∧ t = { s with agenda := rest, busOut := t.busOut })

/-- R26 to R32, R34 to R37, R40 by the map of R67: while BUSY = 0 a plain register reads back all 32 bits
written; CTRL keeps bit 0 (R24), IRQ_EN bits 1, 3 and 4 (R25). -/
def Obligations.RegistersReadBackWhatWasWritten : Prop :=
  ∀ (s : State) (off : Nat) (w : Word), s.rstAsserted = false → s.busy = false →
    off ∈ [0x08, 0x0C, 0x10, 0x14, 0x18, 0x1C, 0x20, 0x24, 0x28, 0x30, 0x34, 0x38, 0x3C,
           0x50, 0x58, 0x60] →
    s.agenda = [.write (s.params.base + off) w, .read (s.params.base + off)] →
    ∃ t, core.run 2 s = .next t
      ∧ t.busOut = (if off = 0x08 then w &&& 1 else if off = 0x0C then w &&& 0x1A else w)

/-- R67, R75: while BUSY = 0 a host write to a plain register stores the word written there, CTRL and IRQ_EN
their implemented bits (R24, R25), and changes nothing else: no other register, no flag, no buffer. -/
def Obligations.PlainWriteStoresOnlyItsRegister : Prop :=
  ∀ (s : State) (w : Word), s.rstAsserted = false → s.busy = false →
    WriteLeaves s 0x08 w { s with refscan := w.getLsbD 0 }
    ∧ WriteLeaves s 0x0C w
        { s with ieDone := w.getLsbD 1, ieNotfound := w.getLsbD 3, ieErr := w.getLsbD 4 }
    ∧ WriteLeaves s 0x10 w { s with sampleRate := w }
    ∧ WriteLeaves s 0x14 w { s with baudRate := w }
    ∧ WriteLeaves s 0x18 w { s with carrierFreq := w }
    ∧ WriteLeaves s 0x1C w { s with bitDepth := w }
    ∧ WriteLeaves s 0x20 w { s with lpfN := w }
    ∧ WriteLeaves s 0x24 w { s with period := w }
    ∧ WriteLeaves s 0x28 w { s with thresh := w }
    ∧ WriteLeaves s 0x30 w { s with byteLen := w }
    ∧ WriteLeaves s 0x34 w { s with symLen := w }
    ∧ WriteLeaves s 0x38 w { s with sigLen := w }
    ∧ WriteLeaves s 0x3C w { s with payloadStart := w }
    ∧ WriteLeaves s 0x50 w { s with byteIdx := w }
    ∧ WriteLeaves s 0x58 w { s with symIdx := w }
    ∧ WriteLeaves s 0x60 w { s with sigIdx := w }

/-- R67, R74: a host read of any register but the DATA ports gives its value as it stands, whether BUSY is 0 or
1 and whether `rst` is asserted or not, and has no effect on the block. STATUS has a statement of its own. -/
def Obligations.RegistersReadTheirValues : Prop :=
  ∀ s : State,
    ReadsAs s 0x00 0
    ∧ ReadsAs s 0x08 (if s.refscan then 1 else 0)
    ∧ ReadsAs s 0x0C
        ((if s.ieDone then 0x02 else 0) + (if s.ieNotfound then 0x08 else 0) + (if s.ieErr then 0x10 else 0))
    ∧ ReadsAs s 0x10 s.sampleRate
    ∧ ReadsAs s 0x14 s.baudRate
    ∧ ReadsAs s 0x18 s.carrierFreq
    ∧ ReadsAs s 0x1C s.bitDepth
    ∧ ReadsAs s 0x20 s.lpfN
    ∧ ReadsAs s 0x24 s.period
    ∧ ReadsAs s 0x28 s.thresh
    ∧ ReadsAs s 0x2C
        (if s.baudRate = 0 then 0 else BitVec.ofNat 32 (s.sampleRate.toNat / s.baudRate.toNat))
    ∧ ReadsAs s 0x30 s.byteLen
    ∧ ReadsAs s 0x34 s.symLen
    ∧ ReadsAs s 0x38 s.sigLen
    ∧ ReadsAs s 0x3C s.payloadStart
    ∧ ReadsAs s 0x40
        (BitVec.ofNat 32 (256 * (stageCode s.errStage).toNat + (errorCode s.errCode).toNat))
    ∧ ReadsAs s 0x44 (BitVec.ofNat 32 s.params.byteMax.val)
    ∧ ReadsAs s 0x48 (BitVec.ofNat 32 s.params.symMax.val)
    ∧ ReadsAs s 0x4C (BitVec.ofNat 32 s.params.sigMax.val)
    ∧ ReadsAs s 0x50 s.byteIdx
    ∧ ReadsAs s 0x58 s.symIdx
    ∧ ReadsAs s 0x60 s.sigIdx
    ∧ ∀ off, 0x68 ≤ off → off < 256 → off % 4 = 0 → ReadsAs s off 0

/-- R68, R22, R33, R39: reserved and read-only offsets ignore writes; reserved offsets and CMD read 0, SPS reads
the truncated quotient, and the capacity registers the capacities. -/
def Obligations.ReservedAndReadOnlyOffsets : Prop :=
  ∀ (s : State) (off : Nat) (rest : List Event), off < 256 → off % 4 = 0 →
    ((0x68 ≤ off ∨ off ∈ [0x2C, 0x40, 0x44, 0x48, 0x4C]) →
      ∀ w, s.agenda = .write (s.params.base + off) w :: rest → step s = .next { s with agenda := rest })
    ∧ ((0x68 ≤ off ∨ off ∈ [0x00, 0x2C, 0x40, 0x44, 0x48, 0x4C]) →
      s.agenda = .read (s.params.base + off) :: rest →
      ∃ t, step s = .next t ∧ t = { s with agenda := rest, busOut := t.busOut }
        ∧ ((0x68 ≤ off ∨ off = 0x00) → t.busOut = 0)
        ∧ (off = 0x2C → t.busOut.toNat
            = if s.baudRate = 0 then 0 else s.sampleRate.toNat / s.baudRate.toNat)
        ∧ (off = 0x40 → t.busOut = s.errInfoWord)
        ∧ (off = 0x44 → t.busOut.toNat = s.params.byteMax.val)
        ∧ (off = 0x48 → t.busOut.toNat = s.params.symMax.val)
        ∧ (off = 0x4C → t.busOut.toNat = s.params.sigMax.val))

/-- R64, U5: an access that is not an aligned word in the block's window has no meaning: it is refused, by the
model's name of log 10. -/
def Obligations.AccessesTheBusCannotExpressAreRefused : Prop :=
  ∀ (s : State) (a : Nat) (rest : List Event),
    (a < s.params.base ∨ s.params.base + 256 ≤ a ∨ a % 4 ≠ 0) →
    (s.agenda = .read a :: rest → step s = .refused .notAWordAccess)
    ∧ (∀ w, s.agenda = .write a w :: rest → step s = .refused .notAWordAccess)

/-- R49 with R25: `irq` is 1 exactly when a STATUS flag and the IRQ_EN bit at its position are both 1. -/
def Obligations.IrqIsAnEnabledStatusFlag : Prop :=
  ∀ s : State, s.irq = decide (s.statusWord &&& s.irqEnWord ≠ 0)

/-! ### The whole machine -/

/-- The invariant holds after reset. The spec infers it itself in R52 and R45; the canonical form of the buffers
is the model's (log 7). -/
def Obligations.InvariantHoldsAfterReset : Prop := State.reset.Inv

/-- Every step keeps the invariant, which the spec infers itself in R52 and R45 (the canonical form of the
buffers is the model's, log 7; an asserted `rst` holds the reset state by R245), and no step changes the
parameters (R6). -/
def Obligations.EveryStepKeepsTheInvariant : Prop :=
  ∀ s t : State, s.Inv → step s = .next t → t.Inv ∧ t.params = s.params

/-- R199, R222: from a state with the invariant a step never faults, and it is refused only for an access that
the bus cannot express (U5). -/
def Obligations.OnlyInexpressibleAccessesStopTheMachine : Prop :=
  ∀ s : State, s.Inv → (∀ e ∈ s.agenda.head?, eventExpressible s.params e = true) →
    ∃ t, step s = .next t

/-- R197, R199: every command completes within five ENGINE steps, and then exactly one of DONE and ERR is 1. -/
def Obligations.EveryCommandCompletesWithinFiveEngineSteps : Prop :=
  ∀ s : State, s.Inv → s.busy = true → s.agenda = [] →
    ∃ n t, n ≤ 5 ∧ core.run n s = .next t ∧ t.busy = false
      ∧ ((t.done = true ∧ t.err = false) ∨ (t.done = false ∧ t.err = true))

/-- R179, R227: FOUND and NOTFOUND are changed only by a SYNC stage, a STATUS write or `rst`. -/
def Obligations.SyncFlagsChangeOnlyByTheirRules : Prop :=
  ∀ s t : State, step s = .next t → (t.found ≠ s.found ∨ t.notfound ≠ s.notfound) →
    (s.busy = true ∧ s.stage = some .sync
      ∧ (s.agenda = [] ∨ s.agenda.head? = some .engine))
    ∨ (s.busy = false ∧ ∃ w rest, s.agenda = .write (s.params.base + 0x04) w :: rest)
    ∨ (∃ rest, s.agenda = .assertRst :: rest)

/-- R61 (the spec's own inference from the stage rules), R40, R79: no ENGINE step writes a configuration, index,
control or enable register, a parameter or the model's own fields; each buffer and length is written only by the
stages listed for it. -/
def Obligations.StagesWriteOnlyWhatIsListed : Prop :=
  ∀ (i : Instr) (s t : State), s.busy = true → exec i s = .next t →
    t = { s with
      busy := t.busy, done := t.done, found := t.found, notfound := t.notfound, err := t.err,
      stage := t.stage, errCode := t.errCode, errStage := t.errStage,
      byteBuf := t.byteBuf, byteLen := t.byteLen, symBuf := t.symBuf, symLen := t.symLen,
      sigBuf := t.sigBuf, sigLen := t.sigLen, payloadStart := t.payloadStart }
    ∧ (s.stage ≠ some .dec → t.byteBuf = s.byteBuf ∧ t.byteLen = s.byteLen)
    ∧ (s.stage ≠ some .enc → s.stage ≠ some .slice → t.symBuf = s.symBuf ∧ t.symLen = s.symLen)
    ∧ (s.stage ≠ some .mod → t.sigLen = s.sigLen)
    ∧ (s.stage ≠ some .mod → s.stage ≠ some .rect → s.stage ≠ some .lpf → t.sigBuf = s.sigBuf)
    ∧ (s.stage ≠ some .sync →
        t.payloadStart = s.payloadStart ∧ t.found = s.found ∧ t.notfound = s.notfound)

/-- R77, R73, R74: while BUSY = 1 no host access changes anything of the block. -/
def Obligations.HostCannotDisturbARunningCommand : Prop :=
  ∀ (s : State) (e : Event) (rest : List Event), s.busy = true → s.agenda = e :: rest →
    eventExpressible s.params e = true → e ≠ .engine → e ≠ .assertRst → e ≠ .releaseRst →
    ∃ t, step s = .next t ∧ t.block = s.block

/-! ### Laws of the stages -/

/-- The spec's own inference in R185: DEC from payload start 8 recovers the bytes that ENC encoded. -/
def Obligations.DecRecoversWhatEncEncoded : Prop :=
  ∀ s t u : State, s.busy = true → s.stage = some .enc → EncReady s → exec .enc s = .next t →
    exec .dec { t with payloadStart := 8, busy := true, done := false, stage := some .dec } = .next u →
    u.byteLen = s.byteLen ∧ ∀ c, c < s.byteLen.toNat → u.byteAt c = s.byteAt c

/-- The spec's own inference in R141: RECT keeps the length, leaves no negative sample in SIG[0 .. SIG_LEN), and
run twice it leaves what it left the first time. -/
def Obligations.RectIsIdempotent : Prop :=
  ∀ s t u : State, s.Inv → s.busy = true → s.stage = some .rect → RectReady s →
    exec .rect s = .next t → exec .rect { t with busy := true, done := false, stage := some .rect } = .next u →
    t.sigLen = s.sigLen ∧ (∀ i, i < s.sigLen.toNat → 0 ≤ (t.sigAt i).toInt) ∧ ∀ i, u.sigAt i = t.sigAt i

/-- The spec's own inference in R144: LPF keeps the length; with LPF_N = 1 it is the identity; the first sample
is kept for every n. -/
def Obligations.LpfWithWindowOneIsTheIdentity : Prop :=
  ∀ s t : State, s.Inv → s.busy = true → s.stage = some .lpf → LpfReady s → exec .lpf s = .next t →
    t.sigLen = s.sigLen
    ∧ (s.lpfN = 1 → ∀ i, t.sigAt i = s.sigAt i)
    ∧ (s.sigLen ≠ 0 → t.sigAt 0 = s.sigAt 0)

/-- R145: LPF keeps every integer interval that holds its input. -/
def Obligations.LpfStaysInTheRangeOfItsInput : Prop :=
  ∀ (s t : State) (a b : Int), s.Inv → s.busy = true → s.stage = some .lpf → LpfReady s →
    exec .lpf s = .next t →
    (∀ i, i < s.sigLen.toNat → a ≤ (s.sigAt i).toInt ∧ (s.sigAt i).toInt ≤ b) →
    ∀ i, i < s.sigLen.toNat → a ≤ (t.sigAt i).toInt ∧ (t.sigAt i).toInt ≤ b

/-- R161, and the spec's own inference in R166 (d): samples past the last full window influence nothing, and a
symbol depends on its own window only. -/
def Obligations.SliceReadsOnlyTheSymbolsOwnWindow : Prop :=
  ∀ (s s' t t' : State), s.busy = true → s.stage = some .slice → SliceReady s →
    s' = { s with sigBuf := s'.sigBuf } →
    exec .slice s = .next t → exec .slice s' = .next t' →
    t.symLen = t'.symLen
    ∧ ∀ i, i < s.sigLen.toNat / s.period.toNat →
        (∀ j, j < s.period.toNat →
          s.sigAt (i * s.period.toNat + j) = s'.sigAt (i * s.period.toNat + j)) →
        t.symAt i = t'.symAt i

/-- The spec's own inference in R166 (a), (b): raising samples, or lowering the threshold, turns no symbol from
1 to 0. -/
def Obligations.SliceIsMonotone : Prop :=
  ∀ (s s' t t' : State), s.busy = true → s.stage = some .slice → SliceReady s →
    s' = { s with sigBuf := s'.sigBuf, thresh := s'.thresh } →
    s'.thresh.toNat ≤ s.thresh.toNat →
    (∀ i, i < s.sigLen.toNat → (s.sigAt i).toInt ≤ (s'.sigAt i).toInt) →
    exec .slice s = .next t → exec .slice s' = .next t' →
    ∀ i, i < s.sigLen.toNat / s.period.toNat → t.symAt i = true → t'.symAt i = true

/-- R176: the two settings of REFSCAN differ only when the first match is at position L - 8; then REFSCAN = 0
reports FOUND with PAYLOAD_START = L and REFSCAN = 1 reports NOTFOUND. -/
def Obligations.ScanBoundsDifferOnlyAtTheLastPosition : Prop :=
  ∀ (s t t' : State), s.busy = true → s.stage = some .sync → SyncReady s →
    exec .sync { s with refscan := false } = .next t →
    exec .sync { s with refscan := true } = .next t' →
    (t.found = t'.found ∧ t.payloadStart = t'.payloadStart ∧ t.notfound = t'.notfound)
    ∨ (8 ≤ s.symLen.toNat ∧ PreambleStandsAt s (s.symLen.toNat - 8)
        ∧ (∀ i, i < s.symLen.toNat - 8 → ¬PreambleStandsAt s i)
        ∧ t.found = true ∧ t.payloadStart = s.symLen ∧ t'.notfound = true)

/-- R124 as far as the model decides it: `sinQ` is the nearest integer to 32768 sin(2 pi fc k / fs) wherever
that value is further than 10^-15 from every half-integer, and everywhere one of its neighbours (log 8). -/
def Obligations.CarrierIsTheRoundedSine : Prop :=
  ∀ fs fc k : Nat, 0 < fs →
    let x : Real := 32768 * Real.sin (2 * Real.pi * fc * k / fs)
    |x - sinQ fs fc k| ≤ 1 / 2 + 1 / 10 ^ 15
    ∧ ((∀ n : Int, 1 / 10 ^ 15 < |x - (n + 1 / 2)|) → sinQ fs fc k = round x)

/-- The spec's own inference in R125 (a) to (e), for the model's `sinQ` (log 8): the carrier starts at 0, stays
in the range, is odd in the phase index, and takes its exact values; (f): the reference values. -/
def Obligations.CarrierProperties : Prop :=
  (∀ fs fc, sinQ fs fc 0 = 0)
  ∧ (∀ fs fc k, -32768 ≤ sinQ fs fc k ∧ sinQ fs fc k ≤ 32768)
  ∧ (∀ fs m, 0 < m → m < fs → sineTable fs (fs - m) = -sineTable fs m)
  ∧ (∀ fs m, m < fs → (2 * m) % fs = 0 → sineTable fs m = 0)
  ∧ (∀ m, 0 < m → sineTable (4 * m) m = 32768 ∧ sineTable (4 * m) (3 * m) = -32768)
  ∧ (∀ m, 0 < m → sineTable (12 * m) m = 16384 ∧ sineTable (12 * m) (5 * m) = 16384
      ∧ sineTable (12 * m) (7 * m) = -16384 ∧ sineTable (12 * m) (11 * m) = -16384)
  ∧ (List.range 4).map (sinQ 4 1) = [0, 32768, 0, -32768]
  ∧ (List.range 8).map (sinQ 8 1) = [0, 23170, 32768, 23170, 0, -23170, -32768, -23170]
  ∧ (List.range 8).map (sinQ 8 3) = [0, 23170, -32768, 23170, 0, -23170, 32768, -23170]
  ∧ (List.range 12).map (sinQ 12 1)
      = [0, 16384, 28378, 32768, 28378, 16384, 0, -16384, -28378, -32768, -28378, -16384]
  ∧ (List.range 8).map (sinQ 44100 11025) = [0, 32768, 0, -32768, 0, 32768, 0, -32768]
  ∧ (List.range 12).map (sinQ 44100 4410)
      = [0, 19261, 31164, 31164, 19261, 0, -19261, -31164, -31164, -19261, 0, 19261]
  ∧ (List.range 12).map (sinQ 44100 1000)
      = [0, 4653, 9211, 13583, 17680, 21418, 24723, 27526, 29771, 31414, 32419, 32768]

/-- The spec's own inference in R206 (c): with PERIOD = SPS and LPF_N = 1, where the energy E of a 1 symbol
satisfies E * 2^BIT_DEPTH > THRESH * SPS and the capacities suffice, TX and then RX return the bytes, for every
byte sequence, if REFSCAN = 0 or there is at least one byte. -/
def Obligations.RoundTripReturnsTheBytes : Prop :=
  ∀ s : State, s.Inv → s.rstAsserted = false → s.busy = false → s.err = false →
    EncReady s → 1 ≤ s.sps → (8 + 8 * s.byteLen.toNat) * s.sps ≤ s.params.sigMax.val →
    s.period.toNat = s.sps → s.lpfN = 1 → 1 ≤ s.bitDepth.toNat → s.bitDepth.toNat ≤ 32 →
    (∑ k ∈ Finset.range s.sps, |sinQ s.sampleRate.toNat s.carrierFreq.toNat k|) * 2 ^ s.bitDepth.toNat
      > (s.thresh.toNat : Int) * s.sps →
    (s.refscan = false ∨ s.byteLen ≠ 0) →
    ∃ t, core.run 9 { s with agenda :=
        [.write s.params.base 8, .engine, .engine,
         .write s.params.base 9, .engine, .engine, .engine, .engine, .engine] } = .next t
      ∧ Finished t ∧ t.err = false ∧ t.found = true ∧ t.byteLen = s.byteLen
      ∧ ∀ c, c < s.byteLen.toNat → t.byteAt c = s.byteAt c
end

