-- ==== Sys2Proof/Laws/Lists.lean ====
section
/-! SUPPORT. Lists: concatenation of blocks of one length, and sums over a range of indices. -/

namespace Sys2Proof.Laws

theorem length_flatMap_block {α β : Type} (f : α → List β) (n : Nat) (hf : ∀ x, (f x).length = n)
    (l : List α) : (l.flatMap f).length = l.length * n := by
  induction l with
  | nil => simp
  | cons x l ih => simp [ih, hf, Nat.succ_mul, Nat.add_comm]

/-- Element `k` of block `a`. -/
theorem getElem?_flatMap_block {α β : Type} (f : α → List β) (n : Nat) (hf : ∀ x, (f x).length = n)
    (l : List α) (a k : Nat) (hk : k < n) :
    (l.flatMap f)[a * n + k]? = l[a]?.bind (fun x => (f x)[k]?) := by
  induction l generalizing a with
  | nil => simp
  | cons x l ih =>
    rw [List.flatMap_cons]
    cases a with
    | zero => simp [List.getElem?_append_left (l₁ := f x) (by rw [hf]; omega)]
    | succ a =>
      have h : (a + 1) * n + k - (f x).length = a * n + k := by rw [hf, Nat.succ_mul]; omega
      rw [List.getElem?_append_right (by rw [hf, Nat.succ_mul]; omega), h, ih]
      simp

theorem sum_map_range (f : Nat → Int) (n : Nat) :
    ((List.range n).map f).sum = ∑ j ∈ Finset.range n, f j := by
  induction n with
  | zero => simp
  | succ n ih => simp [List.range_succ, Finset.sum_range_succ, ih]

end Sys2Proof.Laws
end

