-- ==== Sys2Proof/Laws/Memory.lean ====
section
/-! SUPPORT. The laws of the buffers: a read after a write, and the canonical form that every operation keeps. -/

namespace Sys2Proof.Machine

variable {α : Type}

@[simp] theorem read?_nil (i : Nat) : Memory.read? ([] : List (Nat × α)) i = none := rfl

theorem read?_cons (k : Nat) (v : α) (m : List (Nat × α)) (i : Nat) :
    Memory.read? ((k, v) :: m) i = if k = i then some v else Memory.read? m i := rfl

/-- Reading after a write: the written element, and every other element as before. -/
theorem read?_write (m : List (Nat × α)) (i j : Nat) (v : α) (h : Memory.wf m) :
    Memory.read? (Memory.write m i v) j = if j = i then some v else Memory.read? m j := by
  induction m with
  | nil => simp [Memory.write, Memory.read?, eq_comm]
  | cons c m ih =>
    obtain ⟨k, u⟩ := c
    have hm : Memory.wf m := (List.pairwise_cons.1 h).2
    rw [Memory.write]
    by_cases h1 : i < k
    · rw [if_pos h1, read?_cons]
      simp only [eq_comm]
    · rw [if_neg h1]
      by_cases h2 : i = k
      · rw [if_pos h2, read?_cons, read?_cons]
        subst h2
        by_cases hj : j = i
        · simp [hj]
        · simp [hj, Ne.symm hj]
      · rw [if_neg h2, read?_cons, read?_cons, ih hm]
        by_cases hk : k = j
        · have : j ≠ i := by omega
          simp [hk, this]
        · simp [hk]

theorem mem_write {m : List (Nat × α)} {i : Nat} {v : α} {c : Nat × α}
    (h : c ∈ Memory.write m i v) : c = (i, v) ∨ c ∈ m := by
  induction m with
  | nil => simpa [Memory.write] using h
  | cons d m ih =>
    obtain ⟨k, u⟩ := d
    simp only [Memory.write] at h
    split_ifs at h
    · simpa using h
    · rcases List.mem_cons.1 h with h | h
      · exact .inl h
      · exact .inr (List.mem_cons_of_mem _ h)
    · rcases List.mem_cons.1 h with h | h
      · exact .inr (by simp [h])
      · exact (ih h).imp id (List.mem_cons_of_mem _)

/-- A write keeps the canonical form. -/
theorem wf_write (m : List (Nat × α)) (i : Nat) (v : α) (h : Memory.wf m) :
    Memory.wf (Memory.write m i v) := by
  induction m with
  | nil => simp [Memory.write, Memory.wf]
  | cons d m ih =>
    obtain ⟨k, u⟩ := d
    obtain ⟨hk, hm⟩ := List.pairwise_cons.1 h
    have hk' : ∀ c ∈ m, k < c.1 := fun c hc => hk _ (List.mem_map_of_mem hc)
    simp only [Memory.write]
    split_ifs with h1 h2
    · refine List.pairwise_cons.2 ⟨fun a ha => ?_, h⟩
      rcases List.mem_map.1 ha with ⟨c, hc, rfl⟩
      rcases List.mem_cons.1 hc with rfl | hc
      · exact h1
      · exact lt_trans h1 (hk' c hc)
    · subst h2
      exact List.pairwise_cons.2 ⟨hk, hm⟩
    · refine List.pairwise_cons.2 ⟨fun a ha => ?_, ih hm⟩
      rcases List.mem_map.1 ha with ⟨c, hc, rfl⟩
      rcases mem_write hc with rfl | hc
      · simp only; omega
      · exact hk' c hc

/-- A write below the capacity keeps every index below it. -/
theorem below_write (m : List (Nat × α)) (i cap : Nat) (v : α) (h : Memory.below m cap) (hi : i < cap) :
    Memory.below (Memory.write m i v) cap := fun c hc => by
  rcases mem_write hc with rfl | hc
  · exact hi
  · exact h c hc

theorem read?_number (vs : List α) (k i : Nat) :
    Memory.read? (Memory.number k vs) i = if k ≤ i then vs[i - k]? else none := by
  induction vs generalizing k with
  | nil => simp [Memory.number]
  | cons v vs ih =>
    simp only [Memory.number, read?_cons, ih]
    split_ifs with h1 h2 h3 h4
    · subst h1; simp
    · omega
    · have : i - k = (i - (k + 1)) + 1 := by omega
      simp [this]
    · omega
    · omega
    · rfl

theorem read?_append (m m' : List (Nat × α)) (i : Nat) :
    Memory.read? (m ++ m') i = (Memory.read? m i).or (Memory.read? m' i) := by
  induction m with
  | nil => simp
  | cons c m ih =>
    obtain ⟨k, u⟩ := c
    simp only [List.cons_append, read?_cons, ih]
    split_ifs <;> simp

theorem read?_filter_ge (m : List (Nat × α)) (n i : Nat) :
    Memory.read? (m.filter (fun c => decide (n ≤ c.1))) i = if n ≤ i then Memory.read? m i else none := by
  induction m with
  | nil => simp
  | cons c m ih =>
    obtain ⟨k, u⟩ := c
    by_cases hk : n ≤ k
    · simp only [hk, decide_true, List.filter_cons_of_pos, read?_cons, ih]
      split_ifs <;> first | rfl | omega
    · have : decide (n ≤ k) = false := by simpa using hk
      simp only [List.filter_cons, this, read?_cons]
      split_ifs <;> first | rfl | omega | simp_all

/-- Reading after a prefix is replaced: the new sequence, and every element above it as before. -/
theorem read?_replacePrefix (m : List (Nat × α)) (vs : List α) (i : Nat) :
    Memory.read? (Memory.replacePrefix m vs) i
      = if i < vs.length then vs[i]? else Memory.read? m i := by
  simp only [Memory.replacePrefix, read?_append, read?_number, read?_filter_ge]
  by_cases h : i < vs.length
  · simp [h]
  · simp [h, Nat.le_of_not_lt h]

theorem mem_number {vs : List α} {k : Nat} {c : Nat × α} (h : c ∈ Memory.number k vs) :
    k ≤ c.1 ∧ c.1 < k + vs.length ∧ c.2 ∈ vs := by
  induction vs generalizing k with
  | nil => simp [Memory.number] at h
  | cons v vs ih =>
    rcases List.mem_cons.1 h with rfl | h
    · simp
    · obtain ⟨h1, h2, h3⟩ := ih h
      simp only [List.length_cons, List.mem_cons]
      exact ⟨by omega, by omega, .inr h3⟩

theorem mem_replacePrefix {m : List (Nat × α)} {vs : List α} {c : Nat × α}
    (h : c ∈ Memory.replacePrefix m vs) : (c.1 < vs.length ∧ c.2 ∈ vs) ∨ c ∈ m := by
  rcases List.mem_append.1 h with h | h
  · obtain ⟨-, h2, h3⟩ := mem_number h
    exact .inl ⟨by omega, h3⟩
  · exact .inr (List.mem_filter.1 h).1

theorem wf_number (vs : List α) (k : Nat) : Memory.wf (Memory.number k vs) := by
  induction vs generalizing k with
  | nil => simp [Memory.number, Memory.wf]
  | cons v vs ih =>
    refine List.pairwise_cons.2 ⟨fun a ha => ?_, ih (k + 1)⟩
    rcases List.mem_map.1 ha with ⟨c, hc, rfl⟩
    have := (mem_number hc).1
    omega

/-- Replacing a prefix keeps the canonical form. -/
theorem wf_replacePrefix (m : List (Nat × α)) (vs : List α) (h : Memory.wf m) :
    Memory.wf (Memory.replacePrefix m vs) := by
  simp only [Memory.wf, Memory.replacePrefix, List.map_append, List.pairwise_append]
  refine ⟨wf_number vs 0, h.sublist (List.filter_sublist.map _), fun a ha b hb => ?_⟩
  rcases List.mem_map.1 ha with ⟨c, hc, rfl⟩
  rcases List.mem_map.1 hb with ⟨d, hd, rfl⟩
  have h1 := (mem_number hc).2.1
  have h2 := (List.mem_filter.1 hd).2
  simp only [decide_eq_true_eq] at h2
  omega

/-- Replacing a prefix within the capacity keeps every index below it. -/
theorem below_replacePrefix (m : List (Nat × α)) (vs : List α) (cap : Nat) (h : Memory.below m cap)
    (hv : vs.length ≤ cap) : Memory.below (Memory.replacePrefix m vs) cap := fun c hc => by
  rcases mem_replacePrefix hc with ⟨h1, -⟩ | hc
  · omega
  · exact h c hc

end Sys2Proof.Machine
end

