-- ==== Sys2Proof/Laws/Stages.lean ====
section
/-! SUPPORT. What each stage can do, once: it raises its first failing requirement, or it is ready and has its effect. -/

namespace Sys2Proof.Machine

/-! ### Reading elements after a stage replaced a prefix -/

theorem byteAt_replaced (s : State) (vs : List Byte) (n : Word) (i : Nat) :
    ({ s with byteBuf := Memory.replacePrefix s.byteBuf vs, byteLen := n } : State).byteAt i
      = if i < vs.length then vs.getD i 0 else s.byteAt i := by
  simp only [State.byteAt, read?_replacePrefix]
  split_ifs with h <;> simp [h]

theorem symAt_replaced (s : State) (vs : List Symbol) (n : Word) (i : Nat) :
    ({ s with symBuf := Memory.replacePrefix s.symBuf vs, symLen := n } : State).symAt i
      = if i < vs.length then vs.getD i false else s.symAt i := by
  simp only [State.symAt, read?_replacePrefix]
  split_ifs with h <;> simp [h]

theorem sigAt_replaced (s : State) (vs : List Sample) (n : Word) (i : Nat) :
    ({ s with sigBuf := Memory.replacePrefix s.sigBuf vs, sigLen := n } : State).sigAt i
      = if i < vs.length then vs.getD i 0 else s.sigAt i := by
  simp only [State.sigAt, read?_replacePrefix]
  split_ifs with h <;> simp [h]

@[simp] theorem length_bytes (s : State) (n : Nat) : (s.bytes n).length = n := by simp [State.bytes]
@[simp] theorem length_syms (s : State) (n : Nat) : (s.syms n).length = n := by simp [State.syms]
@[simp] theorem length_sigs (s : State) (n : Nat) : (s.sigs n).length = n := by simp [State.sigs]

theorem getElem?_bytes (s : State) (n i : Nat) (h : i < n) : (s.bytes n)[i]? = some (s.byteAt i) := by
  simp [State.bytes, h]
theorem getElem?_syms (s : State) (n i : Nat) (h : i < n) : (s.syms n)[i]? = some (s.symAt i) := by
  simp [State.syms, h]
theorem getElem?_sigs (s : State) (n i : Nat) (h : i < n) : (s.sigs n)[i]? = some (s.sigAt i) := by
  simp [State.sigs, h]

/-! ### Sample words and their range -/

/-- A sample word made from an integer of the legal range holds that integer (R92). -/
theorem toInt_ofInt_of_range (v : Int) (h1 : -32768 ≤ v) (h2 : v ≤ 32768) : (Sample.ofInt v).toInt = v := by
  rw [Sample.ofInt, BitVec.toInt_ofInt, Int.bmod_eq_of_le] <;> omega

theorem inRange_iff (v : Sample) : v.inRange = true ↔ -32768 ≤ v.toInt ∧ v.toInt ≤ 32768 := by
  simp [Sample.inRange]

/-- Every element that SIG reads as is a legal sample, written or not (R45, U1). -/
theorem sigAt_inRange (s : State) (h : samplesInRange s.sigBuf) (i : Nat) :
    -32768 ≤ (s.sigAt i).toInt ∧ (s.sigAt i).toInt ≤ 32768 := by
  have key : ∀ m : List (Nat × Sample), samplesInRange m → ∀ v, Memory.read? m i = some v →
      v.inRange = true := by
    intro m
    induction m with
    | nil => simp
    | cons c m ih =>
      obtain ⟨k, u⟩ := c
      intro hm v hv
      rw [read?_cons] at hv
      split_ifs at hv with hk
      · cases hv; exact hm _ (List.mem_cons_self ..)
      · exact ih (fun c hc => hm c (List.mem_cons_of_mem _ hc)) v hv
  unfold State.sigAt
  cases hr : Memory.read? s.sigBuf i with
  | some v => simpa using (inRange_iff v).1 (key _ h v hr)
  | none =>
    have := (Config.unwrittenSample s.resets i).isLt
    rw [Option.getD_none, toInt_ofInt_of_range] <;> omega

/-! ### ENC -/

@[simp] theorem length_byteSymbols (b : Byte) : (byteSymbols b).length = 8 := by simp [byteSymbols]

@[simp] theorem length_encodeBytes (bs : List Byte) : (encodeBytes bs).length = 8 + 8 * bs.length := by
  rw [encodeBytes, List.length_append, Laws.length_flatMap_block byteSymbols 8 length_byteSymbols, Nat.mul_comm]
  rfl

theorem getD_encodeBytes_preamble (bs : List Byte) (j : Nat) (hj : j < 8) :
    (encodeBytes bs).getD j false = decide (j % 2 = 0) := by
  have : j = 0 ∨ j = 1 ∨ j = 2 ∨ j = 3 ∨ j = 4 ∨ j = 5 ∨ j = 6 ∨ j = 7 := by omega
  rcases this with h | h | h | h | h | h | h | h <;> subst h <;> rfl

theorem getD_encodeBytes_payload (bs : List Byte) (c j : Nat) (b : Byte) (hc : bs[c]? = some b) (hj : j < 8) :
    (encodeBytes bs).getD (8 + 8 * c + j) false = b.getLsbD (7 - j) := by
  have h8 : preamble.length = 8 := rfl
  rw [encodeBytes, List.getD_eq_getElem?_getD, List.getElem?_append_right (by omega), h8,
    show 8 + 8 * c + j - 8 = c * 8 + j by omega,
    Laws.getElem?_flatMap_block byteSymbols 8 length_byteSymbols bs c j hj, hc]
  simp [byteSymbols, hj]

theorem stageEnc_of_ready (s : State) (h : EncReady s) :
    stageEnc s = .ok { s with
      symBuf := Memory.replacePrefix s.symBuf (encodeBytes (s.bytes s.byteLen.toNat))
      symLen := BitVec.ofNat 32 (8 + 8 * s.byteLen.toNat) } := by
  rw [stageEnc, if_neg (by have := h.1; omega), if_neg (by have := h.2; omega)]

theorem encEffect_of_ready (s : State) (h : EncReady s) :
    EncEffect s { s with
      symBuf := Memory.replacePrefix s.symBuf (encodeBytes (s.bytes s.byteLen.toNat))
      symLen := BitVec.ofNat 32 (8 + 8 * s.byteLen.toNat) } := by
  have hlen : (encodeBytes (s.bytes s.byteLen.toNat)).length = 8 + 8 * s.byteLen.toNat := by simp
  have hmax := s.params.symMax.isLt
  have h2 := h.2
  refine ⟨rfl, ?_, fun j hj => ?_, fun c j hc hj => ?_, fun i hi => ?_⟩
  · simp only [BitVec.toNat_ofNat]; omega
  · rw [symAt_replaced, hlen, if_pos (by omega), getD_encodeBytes_preamble _ _ hj]
  · rw [symAt_replaced, hlen, if_pos (by omega),
      getD_encodeBytes_payload _ _ _ _ (getElem?_bytes s _ _ hc) hj]
  · rw [symAt_replaced, hlen, if_neg (by omega)]

/-- What ENC can do. -/
theorem stageEnc_cases (s : State) :
    (s.params.byteMax.val < s.byteLen.toNat ∧ stageEnc s = .error .range)
    ∨ (s.byteLen.toNat ≤ s.params.byteMax.val ∧ s.params.symMax.val < 8 + 8 * s.byteLen.toNat
        ∧ stageEnc s = .error .ovf)
    ∨ (EncReady s ∧ ∃ t, stageEnc s = .ok t ∧ EncEffect s t
        ∧ t = { s with symBuf := t.symBuf, symLen := t.symLen }) := by
  by_cases h1 : s.params.byteMax.val < s.byteLen.toNat
  · exact .inl ⟨h1, by rw [stageEnc, if_pos h1]⟩
  by_cases h2 : s.params.symMax.val < 8 + 8 * s.byteLen.toNat
  · exact .inr (.inl ⟨by omega, h2, by rw [stageEnc, if_neg h1, if_pos h2]⟩)
  have h : EncReady s := ⟨by omega, by omega⟩
  exact .inr (.inr ⟨h, _, stageEnc_of_ready s h, encEffect_of_ready s h, rfl⟩)

/-! ### MOD -/

@[simp] theorem length_symbolSamples (fs fc sps : Nat) (b : Symbol) :
    (symbolSamples fs fc sps b).length = sps := by simp [symbolSamples]

@[simp] theorem length_modulate (fs fc sps : Nat) (ys : List Symbol) :
    (modulate fs fc sps ys).length = ys.length * sps := by
  rw [modulate, Laws.length_flatMap_block _ sps (length_symbolSamples fs fc sps)]

theorem sineQuarter_bounds (fs m p q : Nat) : 0 ≤ sineQuarter fs m p q ∧ sineQuarter fs m p q ≤ 32768 := by
  simp only [sineQuarter]
  omega

theorem sinQ_bounds (fs fc k : Nat) : -32768 ≤ sinQ fs fc k ∧ sinQ fs fc k ≤ 32768 := by
  have h := sineQuarter_bounds
  simp only [sinQ, sineTable]
  split_ifs
  · have := h fs (fc * k % fs) (2 * (fc * k % fs)) (2 * fs); omega
  · have := h fs (fc * k % fs) (fs - 2 * (fc * k % fs)) (2 * fs); omega
  · have := h fs (fs - fc * k % fs) (2 * (fs - fc * k % fs)) (2 * fs); omega
  · have := h fs (fs - fc * k % fs) (fs - 2 * (fs - fc * k % fs)) (2 * fs); omega

theorem toInt_symbolSamples (fs fc sps : Nat) (b : Symbol) (k : Nat) (hk : k < sps) :
    ((symbolSamples fs fc sps b)[k]?.getD 0).toInt = if b then sinQ fs fc k else 0 := by
  have := sinQ_bounds fs fc k
  cases b
  · simp [symbolSamples, hk]
  · simp [symbolSamples, hk, toInt_ofInt_of_range _ this.1 this.2]

theorem stageMod_of_ready (s : State) (h : ModReady s) :
    stageMod s = .ok { s with
      sigBuf := Memory.replacePrefix s.sigBuf
        (modulate s.sampleRate.toNat s.carrierFreq.toNat s.sps (s.syms s.symLen.toNat))
      sigLen := BitVec.ofNat 32 (s.symLen.toNat * s.sps) } := by
  obtain ⟨h1, h2, h3⟩ := h
  rw [stageMod, if_neg (by omega), if_neg (by omega), if_neg (by omega)]

theorem modEffect_of_ready (s : State) (h : ModReady s) :
    ModEffect s { s with
      sigBuf := Memory.replacePrefix s.sigBuf
        (modulate s.sampleRate.toNat s.carrierFreq.toNat s.sps (s.syms s.symLen.toNat))
      sigLen := BitVec.ofNat 32 (s.symLen.toNat * s.sps) } := by
  have hlen : (modulate s.sampleRate.toNat s.carrierFreq.toNat s.sps (s.syms s.symLen.toNat)).length
      = s.symLen.toNat * s.sps := by simp
  have hmax := s.params.sigMax.isLt
  obtain ⟨h1, h2, h3⟩ := h
  refine ⟨rfl, ?_, fun a k ha hk => ?_, fun i hi => ?_⟩
  · simp only [BitVec.toNat_ofNat]; omega
  · have hlt : a * s.sps + k < s.symLen.toNat * s.sps := by
      calc a * s.sps + k < a * s.sps + s.sps := by omega
        _ = (a + 1) * s.sps := by ring
        _ ≤ _ := Nat.mul_le_mul_right _ ha
    rw [sigAt_replaced, hlen, if_pos hlt, List.getD_eq_getElem?_getD, modulate,
      Laws.getElem?_flatMap_block _ s.sps (length_symbolSamples _ _ _) _ a k hk, getElem?_syms s _ _ ha]
    exact toInt_symbolSamples _ _ _ _ _ hk
  · rw [sigAt_replaced, hlen, if_neg (by omega)]

/-- What MOD can do. -/
theorem stageMod_cases (s : State) :
    (s.sps < 1 ∧ stageMod s = .error .cfg)
    ∨ (1 ≤ s.sps ∧ s.params.symMax.val < s.symLen.toNat ∧ stageMod s = .error .range)
    ∨ (1 ≤ s.sps ∧ s.symLen.toNat ≤ s.params.symMax.val
        ∧ s.params.sigMax.val < s.symLen.toNat * s.sps ∧ stageMod s = .error .ovf)
    ∨ (ModReady s ∧ ∃ t, stageMod s = .ok t ∧ ModEffect s t
        ∧ t = { s with sigBuf := t.sigBuf, sigLen := t.sigLen }) := by
  by_cases h1 : s.sps < 1
  · exact .inl ⟨h1, by rw [stageMod, if_pos h1]⟩
  by_cases h2 : s.params.symMax.val < s.symLen.toNat
  · exact .inr (.inl ⟨by omega, h2, by rw [stageMod, if_neg h1, if_pos h2]⟩)
  by_cases h3 : s.params.sigMax.val < s.symLen.toNat * s.sps
  · exact .inr (.inr (.inl ⟨by omega, by omega, h3, by
      rw [stageMod, if_neg h1, if_neg h2, if_pos h3]⟩))
  have h : ModReady s := ⟨by omega, by omega, by omega⟩
  exact .inr (.inr (.inr ⟨h, _, stageMod_of_ready s h, modEffect_of_ready s h, rfl⟩))

/-! ### RECT and LPF -/

theorem sigAt_replaced' (s : State) (vs : List Sample) (i : Nat) :
    ({ s with sigBuf := Memory.replacePrefix s.sigBuf vs } : State).sigAt i
      = if i < vs.length then vs.getD i 0 else s.sigAt i :=
  sigAt_replaced s vs s.sigLen i

theorem stageRect_of_ready (s : State) (h : RectReady s) :
    stageRect s = .ok { s with
      sigBuf := Memory.replacePrefix s.sigBuf (rectify (s.sigs s.sigLen.toNat)) } := by
  rw [stageRect, if_neg (by unfold RectReady at h; omega)]

/-- The range of R45 is what makes the stored absolute value exact (R142). -/
theorem rectEffect (s : State) (hr : samplesInRange s.sigBuf) :
    RectEffect s { s with
      sigBuf := Memory.replacePrefix s.sigBuf (rectify (s.sigs s.sigLen.toNat)) } := by
  have hlen : (rectify (s.sigs s.sigLen.toNat)).length = s.sigLen.toNat := by simp [rectify]
  refine ⟨rfl, fun i hi => ?_, fun i hi => ?_⟩
  · have hb := sigAt_inRange s hr i
    rw [sigAt_replaced', hlen, if_pos hi, List.getD_eq_getElem?_getD, rectify, List.getElem?_map,
      getElem?_sigs s _ _ hi]
    simp only [Option.map_some, Option.getD_some]
    rw [toInt_ofInt_of_range _ (by omega) (by omega), Int.natCast_natAbs]
  · rw [sigAt_replaced', hlen, if_neg (by omega)]

/-- What RECT can do. -/
theorem stageRect_cases (s : State) (hr : samplesInRange s.sigBuf) :
    (s.params.sigMax.val < s.sigLen.toNat ∧ stageRect s = .error .range)
    ∨ (RectReady s ∧ ∃ t, stageRect s = .ok t ∧ RectEffect s t ∧ t = { s with sigBuf := t.sigBuf }) := by
  by_cases h1 : s.params.sigMax.val < s.sigLen.toNat
  · exact .inl ⟨h1, by rw [stageRect, if_pos h1]⟩
  have h : RectReady s := by unfold RectReady; omega
  exact .inr ⟨h, _, stageRect_of_ready s h, rectEffect s hr, rfl⟩

theorem windowSum_eq (x : Nat → Int) (lo n : Nat) : windowSum x lo n = ∑ j ∈ Finset.range n, x (lo + j) :=
  Laws.sum_map_range _ n

theorem windowSum_congr {x y : Nat → Int} {lo n : Nat} (h : ∀ j, j < n → x (lo + j) = y (lo + j)) :
    windowSum x lo n = windowSum y lo n := by
  rw [windowSum_eq, windowSum_eq]
  exact Finset.sum_congr rfl fun j hj => h j (Finset.mem_range.1 hj)

/-- A window of values from an interval has its sum between the multiples of the ends. -/
theorem windowSum_bounds {x : Nat → Int} {lo n : Nat} {a b : Int}
    (h : ∀ j, j < n → a ≤ x (lo + j) ∧ x (lo + j) ≤ b) :
    a * n ≤ windowSum x lo n ∧ windowSum x lo n ≤ b * n := by
  rw [windowSum_eq]
  constructor
  · calc a * n = ∑ _j ∈ Finset.range n, a := by simp [mul_comm]
      _ ≤ _ := Finset.sum_le_sum fun j hj => (h j (Finset.mem_range.1 hj)).1
  · calc _ ≤ ∑ _j ∈ Finset.range n, b := Finset.sum_le_sum fun j hj => (h j (Finset.mem_range.1 hj)).2
      _ = b * n := by simp [mul_comm]

/-- The moving average stays in any interval that holds its inputs (R145). -/
theorem movingAverage_bounds {n : Nat} {x : Nat → Int} {i : Nat} {a b : Int} (hn : 1 ≤ n)
    (h : ∀ j, j ≤ i → a ≤ x j ∧ x j ≤ b) : a ≤ movingAverage n x i ∧ movingAverage n x i ≤ b := by
  have hc : 0 < ((min (i + 1) n : Nat) : Int) := by omega
  have hw : a * (min (i + 1) n : Nat) ≤ windowSum x (i + 1 - min (i + 1) n) (min (i + 1) n)
      ∧ windowSum x (i + 1 - min (i + 1) n) (min (i + 1) n) ≤ b * (min (i + 1) n : Nat) :=
    windowSum_bounds (x := x) fun j hj => h _ (by omega)
  refine ⟨Int.le_ediv_of_mul_le hc hw.1, ?_⟩
  calc _ ≤ b * (min (i + 1) n : Nat) / (min (i + 1) n : Nat) := Int.ediv_le_ediv hc hw.2
    _ = b := Int.mul_ediv_cancel _ hc.ne'

/-- The moving average as the sum over its window, an interval of indices (R143). -/
theorem movingAverage_eq (n : Nat) (x : Nat → Int) (i : Nat) (hn : 1 ≤ n) :
    movingAverage n x i
      = (∑ j ∈ Finset.Icc (i + 1 - n) i, x j) / ((i - (i + 1 - n) + 1 : Nat) : Int) := by
  have hlo : i + 1 - min (i + 1) n = i + 1 - n := by omega
  have hc : min (i + 1) n = i - (i + 1 - n) + 1 := by omega
  have hI : Finset.Icc (i + 1 - n) i = Finset.Ico (i + 1 - n) (i + 1) := by ext; simp
  have hr : i + 1 - (i + 1 - n) = i - (i + 1 - n) + 1 := by omega
  simp only [movingAverage, windowSum_eq, hlo]
  rw [hc, hI, Finset.sum_Ico_eq_sum_range, hr]

theorem sampleValue_sigs (s : State) (n i : Nat) (h : i < n) :
    sampleValue (s.sigs n) i = (s.sigAt i).toInt := by
  rw [sampleValue, List.getD_eq_getElem?_getD, getElem?_sigs s _ _ h]; rfl

@[simp] theorem length_lowPass (n : Nat) (xs : List Sample) : (lowPass n xs).length = xs.length := by
  simp [lowPass]

theorem stageLpf_of_ready (s : State) (h : LpfReady s) :
    stageLpf s = .ok { s with
      sigBuf := Memory.replacePrefix s.sigBuf (lowPass s.lpfN.toNat (s.sigs s.sigLen.toNat)) } := by
  obtain ⟨h1, h2⟩ := h
  rw [stageLpf, if_neg (by omega), if_neg (by omega)]

theorem lpfEffect_of_ready (s : State) (h : LpfReady s) (hr : samplesInRange s.sigBuf) :
    LpfEffect s { s with
      sigBuf := Memory.replacePrefix s.sigBuf (lowPass s.lpfN.toNat (s.sigs s.sigLen.toNat)) } := by
  obtain ⟨h1, h2⟩ := h
  have hlen : (lowPass s.lpfN.toNat (s.sigs s.sigLen.toNat)).length = s.sigLen.toNat := by simp
  refine ⟨rfl, fun i hi => ?_, fun i hi => ?_⟩
  · have hv : ∀ j, j ≤ i → sampleValue (s.sigs s.sigLen.toNat) j = (s.sigAt j).toInt :=
      fun j hj => sampleValue_sigs s _ j (by omega)
    have hb := movingAverage_bounds (n := s.lpfN.toNat) (i := i) (a := -32768) (b := 32768) h1
      (x := sampleValue (s.sigs s.sigLen.toNat)) fun j hj => by rw [hv j hj]; exact sigAt_inRange s hr j
    rw [sigAt_replaced', hlen, if_pos hi, List.getD_eq_getElem?_getD, lowPass, List.getElem?_map,
      List.getElem?_range (by simpa using hi)]
    simp only [Option.map_some, Option.getD_some]
    rw [toInt_ofInt_of_range _ hb.1 hb.2, movingAverage_eq _ _ _ h1]
    congr 1
    exact Finset.sum_congr rfl fun j hj => hv j (Finset.mem_Icc.1 hj).2
  · rw [sigAt_replaced', hlen, if_neg (by omega)]

/-- What LPF can do. -/
theorem stageLpf_cases (s : State) (hr : samplesInRange s.sigBuf) :
    (s.lpfN.toNat < 1 ∧ stageLpf s = .error .cfg)
    ∨ (1 ≤ s.lpfN.toNat ∧ s.params.sigMax.val < s.sigLen.toNat ∧ stageLpf s = .error .range)
    ∨ (LpfReady s ∧ ∃ t, stageLpf s = .ok t ∧ LpfEffect s t ∧ t = { s with sigBuf := t.sigBuf }) := by
  by_cases h1 : s.lpfN.toNat < 1
  · exact .inl ⟨h1, by rw [stageLpf, if_pos h1]⟩
  by_cases h2 : s.params.sigMax.val < s.sigLen.toNat
  · exact .inr (.inl ⟨by omega, h2, by rw [stageLpf, if_neg h1, if_pos h2]⟩)
  have h : LpfReady s := ⟨by omega, by omega⟩
  exact .inr (.inr ⟨h, _, stageLpf_of_ready s h, lpfEffect_of_ready s h hr, rfl⟩)

/-! ### SLICE -/

@[simp] theorem length_sampleAndThreshold (p b th : Nat) (xs : List Sample) :
    (sampleAndThreshold p b th xs).length = xs.length / p := by simp [sampleAndThreshold]

theorem stageSlice_of_ready (s : State) (h : SliceReady s) :
    stageSlice s = .ok { s with
      symBuf := Memory.replacePrefix s.symBuf
        (sampleAndThreshold s.period.toNat s.bitDepth.toNat s.thresh.toNat (s.sigs s.sigLen.toNat))
      symLen := BitVec.ofNat 32 (s.sigLen.toNat / s.period.toNat) } := by
  obtain ⟨h1, h2, h3, h4⟩ := h
  rw [stageSlice, if_neg (by omega), if_neg (by omega), if_neg (by omega), if_neg (by omega)]

theorem sliceEffect_of_ready (s : State) (h : SliceReady s) :
    SliceEffect s { s with
      symBuf := Memory.replacePrefix s.symBuf
        (sampleAndThreshold s.period.toNat s.bitDepth.toNat s.thresh.toNat (s.sigs s.sigLen.toNat))
      symLen := BitVec.ofNat 32 (s.sigLen.toNat / s.period.toNat) } := by
  obtain ⟨h1, h2, h3, h4⟩ := h
  have hlen : (sampleAndThreshold s.period.toNat s.bitDepth.toNat s.thresh.toNat
      (s.sigs s.sigLen.toNat)).length = s.sigLen.toNat / s.period.toNat := by simp
  have hmax := s.params.symMax.isLt
  refine ⟨rfl, ?_, fun i hi => ?_, fun i hi => ?_⟩
  · simp only [BitVec.toNat_ofNat]; omega
  · rw [symAt_replaced, hlen, if_pos hi, List.getD_eq_getElem?_getD, sampleAndThreshold,
      List.getElem?_map, List.getElem?_range (by simpa using hi)]
    simp only [Option.map_some, Option.getD_some, sliceBit, windowSum_eq]
    have hsum : (∑ j ∈ Finset.range s.period.toNat,
          sampleValue (s.sigs s.sigLen.toNat) (i * s.period.toNat + j))
        = ∑ j ∈ Finset.range s.period.toNat, (s.sigAt (i * s.period.toNat + j)).toInt := by
      refine Finset.sum_congr rfl fun j hj => sampleValue_sigs s _ _ ?_
      calc i * s.period.toNat + j < (i + 1) * s.period.toNat := by
            have := Finset.mem_range.1 hj
            rw [Nat.succ_mul]; omega
        _ ≤ s.sigLen.toNat / s.period.toNat * s.period.toNat := Nat.mul_le_mul_right _ hi
        _ ≤ _ := Nat.div_mul_le_self _ _
    rw [hsum]
  · rw [symAt_replaced, hlen, if_neg (by omega)]

/-- What SLICE can do. -/
theorem stageSlice_cases (s : State) :
    ((s.period.toNat < 1 ∨ s.bitDepth.toNat < 1 ∨ 32 < s.bitDepth.toNat) ∧ stageSlice s = .error .cfg)
    ∨ (1 ≤ s.period.toNat ∧ (1 ≤ s.bitDepth.toNat ∧ s.bitDepth.toNat ≤ 32)
        ∧ s.params.sigMax.val < s.sigLen.toNat ∧ stageSlice s = .error .range)
    ∨ (1 ≤ s.period.toNat ∧ (1 ≤ s.bitDepth.toNat ∧ s.bitDepth.toNat ≤ 32)
        ∧ s.sigLen.toNat ≤ s.params.sigMax.val
        ∧ s.params.symMax.val < s.sigLen.toNat / s.period.toNat ∧ stageSlice s = .error .ovf)
    ∨ (SliceReady s ∧ ∃ t, stageSlice s = .ok t ∧ SliceEffect s t
        ∧ t = { s with symBuf := t.symBuf, symLen := t.symLen }) := by
  by_cases h1 : s.period.toNat < 1
  · exact .inl ⟨.inl h1, by rw [stageSlice, if_pos h1]⟩
  by_cases h2 : s.bitDepth.toNat < 1 ∨ 32 < s.bitDepth.toNat
  · exact .inl ⟨.inr h2, by rw [stageSlice, if_neg h1, if_pos h2]⟩
  by_cases h3 : s.params.sigMax.val < s.sigLen.toNat
  · exact .inr (.inl ⟨by omega, by omega, h3, by rw [stageSlice, if_neg h1, if_neg h2, if_pos h3]⟩)
  by_cases h4 : s.params.symMax.val < s.sigLen.toNat / s.period.toNat
  · exact .inr (.inr (.inl ⟨by omega, by omega, by omega, h4, by
      rw [stageSlice, if_neg h1, if_neg h2, if_neg h3, if_pos h4]⟩))
  have h : SliceReady s := ⟨by omega, by omega, by omega, by omega⟩
  exact .inr (.inr (.inr ⟨h, _, stageSlice_of_ready s h, sliceEffect_of_ready s h, rfl⟩))

/-! ### SYNC -/

theorem preambleAt_iff (x : Nat → Symbol) (i : Nat) :
    preambleAt x i = true ↔ ∀ j, j < 8 → x (i + j) = decide (j % 2 = 0) := by
  simp only [preambleAt, decide_eq_true_eq, preamble, List.range_succ, List.range_zero]
  simp only [List.nil_append, List.map_cons, List.map_nil, List.cons_append,
    List.cons.injEq]
  constructor
  · rintro ⟨h0, h1, h2, h3, h4, h5, h6, h7, -⟩ j hj
    interval_cases j <;> simp_all
  · intro h
    refine ⟨?_, ?_, ?_, ?_, ?_, ?_, ?_, ?_, trivial⟩ <;> exact h _ (by omega)

theorem lt_candidates_iff (b : Bool) (l i : Nat) :
    i < candidates b l ↔ i + 8 + (if b then 1 else 0) ≤ l := by
  cases b <;> simp only [candidates] <;> simp <;> omega

/-- `findPreamble` answers the least tested position that matches (R177). -/
theorem findPreamble_eq_some (b : Bool) (l : Nat) (x : Nat → Symbol) (i : Nat) :
    findPreamble b l x = some i ↔
      preambleAt x i = true ∧ i < candidates b l ∧ ∀ j, j < i → preambleAt x j = false := by
  rw [findPreamble, List.find?_range_eq_some]
  simp

theorem findPreamble_eq_none (b : Bool) (l : Nat) (x : Nat → Symbol) :
    findPreamble b l x = none ↔ ∀ i, i < candidates b l → preambleAt x i = false := by
  simp [findPreamble, List.find?_eq_none]

/-- The state that SYNC leaves. -/
def syncResult (s : State) : State :=
  match findPreamble s.refscan s.symLen.toNat s.symAt with
  | some hit => { setSyncFlags true s with payloadStart := BitVec.ofNat 32 (hit + 8) }
  | none => { setSyncFlags false s with payloadStart := 0xFFFFFFFF }

theorem stageSync_of_ready (s : State) (h : SyncReady s) : stageSync s = .ok (syncResult s) := by
  rw [stageSync, if_neg (by unfold SyncReady at h; omega), syncResult]
  split <;> simp_all

theorem syncEffect (s : State) : SyncEffect s (syncResult s) := by
  refine ⟨?_, fun hit h1 h2 h3 => ?_, fun h => ?_⟩
  · rw [syncResult]; split <;> rfl
  · have hf : findPreamble s.refscan s.symLen.toNat s.symAt = some hit :=
      (findPreamble_eq_some ..).2 ⟨(preambleAt_iff ..).2 h2, (lt_candidates_iff ..).2 h1, fun j hj =>
        Bool.eq_false_iff.2 fun hp => h3 j hj ((preambleAt_iff ..).1 hp)⟩
    have hlt : hit + 8 < 4294967296 := by
      have := s.symLen.isLt
      unfold ScanTests at h1
      omega
    rw [syncResult, hf]
    exact ⟨by simp only [BitVec.toNat_ofNat]; omega, rfl, rfl⟩
  · have hf : findPreamble s.refscan s.symLen.toNat s.symAt = none :=
      (findPreamble_eq_none ..).2 fun i hi => Bool.eq_false_iff.2 fun hp =>
        h i ((lt_candidates_iff ..).1 hi) ((preambleAt_iff ..).1 hp)
    rw [syncResult, hf]
    exact ⟨rfl, rfl, rfl⟩

/-- What SYNC can do. -/
theorem stageSync_cases (s : State) :
    (s.params.symMax.val < s.symLen.toNat ∧ stageSync s = .error .range)
    ∨ (SyncReady s ∧ stageSync s = .ok (syncResult s) ∧ SyncEffect s (syncResult s)) := by
  by_cases h1 : s.params.symMax.val < s.symLen.toNat
  · exact .inl ⟨h1, by rw [stageSync, if_pos h1]⟩
  have h : SyncReady s := by unfold SyncReady; omega
  exact .inr ⟨h, stageSync_of_ready s h, syncEffect s⟩

/-! ### DEC -/

@[simp] theorem length_decodeSymbols (x : Nat → Symbol) (p l : Nat) :
    (decodeSymbols x p l).length = (l - p) / 8 := by simp [decodeSymbols]

/-- Bit 7 - j of a decoded byte is symbol `j` of its group (R183). -/
theorem getLsbD_symbolsByte (x : Nat → Symbol) (p j : Nat) (hj : j < 8) :
    (symbolsByte x p).getLsbD (7 - j) = x (p + j) := by
  simp only [symbolsByte]
  have : j = 0 ∨ j = 1 ∨ j = 2 ∨ j = 3 ∨ j = 4 ∨ j = 5 ∨ j = 6 ∨ j = 7 := by omega
  rcases this with h | h | h | h | h | h | h | h <;> subst h <;>
    cases x p <;> cases x (p + 1) <;> cases x (p + 2) <;> cases x (p + 3) <;> cases x (p + 4) <;>
    cases x (p + 5) <;> cases x (p + 6) <;> cases x (p + 7) <;> rfl

theorem stageDec_of_ready (s : State) (h : DecReady s) :
    stageDec s = .ok { s with
      byteBuf := Memory.replacePrefix s.byteBuf
        (decodeSymbols s.symAt s.payloadStart.toNat s.symLen.toNat)
      byteLen := BitVec.ofNat 32 ((s.symLen.toNat - s.payloadStart.toNat) / 8) } := by
  obtain ⟨h1, h2, h3⟩ := h
  rw [stageDec, if_neg (by omega), if_neg (by omega), if_neg (by omega)]

theorem decEffect_of_ready (s : State) (h : DecReady s) :
    DecEffect s { s with
      byteBuf := Memory.replacePrefix s.byteBuf
        (decodeSymbols s.symAt s.payloadStart.toNat s.symLen.toNat)
      byteLen := BitVec.ofNat 32 ((s.symLen.toNat - s.payloadStart.toNat) / 8) } := by
  obtain ⟨h1, h2, h3⟩ := h
  have hmax := s.params.byteMax.isLt
  refine ⟨rfl, ?_, fun c j hc hj => ?_, fun i hi => ?_⟩
  · simp only [BitVec.toNat_ofNat]; omega
  · rw [byteAt_replaced, length_decodeSymbols, if_pos hc, List.getD_eq_getElem?_getD, decodeSymbols,
      List.getElem?_map, List.getElem?_range hc]
    exact getLsbD_symbolsByte _ _ _ hj
  · rw [byteAt_replaced, length_decodeSymbols, if_neg (by omega)]

/-- What DEC can do. -/
theorem stageDec_cases (s : State) :
    ((s.params.symMax.val < s.symLen.toNat ∨ s.symLen.toNat < s.payloadStart.toNat)
        ∧ stageDec s = .error .range)
    ∨ (s.symLen.toNat ≤ s.params.symMax.val ∧ s.payloadStart.toNat ≤ s.symLen.toNat
        ∧ s.params.byteMax.val < (s.symLen.toNat - s.payloadStart.toNat) / 8 ∧ stageDec s = .error .ovf)
    ∨ (DecReady s ∧ ∃ t, stageDec s = .ok t ∧ DecEffect s t
        ∧ t = { s with byteBuf := t.byteBuf, byteLen := t.byteLen }) := by
  by_cases h1 : s.params.symMax.val < s.symLen.toNat
  · exact .inl ⟨.inl h1, by rw [stageDec, if_pos h1]⟩
  by_cases h2 : s.symLen.toNat < s.payloadStart.toNat
  · exact .inl ⟨.inr h2, by rw [stageDec, if_neg h1, if_pos h2]⟩
  by_cases h3 : s.params.byteMax.val < (s.symLen.toNat - s.payloadStart.toNat) / 8
  · exact .inr (.inl ⟨by omega, by omega, h3, by rw [stageDec, if_neg h1, if_neg h2, if_pos h3]⟩)
  have h : DecReady s := ⟨by omega, by omega, by omega⟩
  exact .inr (.inr ⟨h, _, stageDec_of_ready s h, decEffect_of_ready s h, rfl⟩)

end Sys2Proof.Machine
end

