-- ==== Sys2Proof/Laws/State.lean ====
section
/-! SUPPORT. One lemma per field per update of the state, each true by rfl. -/

namespace Sys2Proof.Machine

/-! ### finish -/

@[simp] theorem finish_busy (s : State) : (finish s).busy = false := rfl
@[simp] theorem finish_done (s : State) : (finish s).done = true := rfl
@[simp] theorem finish_found (s : State) : (finish s).found = s.found := rfl
@[simp] theorem finish_notfound (s : State) : (finish s).notfound = s.notfound := rfl
@[simp] theorem finish_err (s : State) : (finish s).err = s.err := rfl
@[simp] theorem finish_stage (s : State) : (finish s).stage = none := rfl
@[simp] theorem finish_op (s : State) : (finish s).op = s.op := rfl
@[simp] theorem finish_errCode (s : State) : (finish s).errCode = s.errCode := rfl
@[simp] theorem finish_errStage (s : State) : (finish s).errStage = s.errStage := rfl
@[simp] theorem finish_refscan (s : State) : (finish s).refscan = s.refscan := rfl
@[simp] theorem finish_ieDone (s : State) : (finish s).ieDone = s.ieDone := rfl
@[simp] theorem finish_ieNotfound (s : State) : (finish s).ieNotfound = s.ieNotfound := rfl
@[simp] theorem finish_ieErr (s : State) : (finish s).ieErr = s.ieErr := rfl
@[simp] theorem finish_sampleRate (s : State) : (finish s).sampleRate = s.sampleRate := rfl
@[simp] theorem finish_baudRate (s : State) : (finish s).baudRate = s.baudRate := rfl
@[simp] theorem finish_carrierFreq (s : State) : (finish s).carrierFreq = s.carrierFreq := rfl
@[simp] theorem finish_bitDepth (s : State) : (finish s).bitDepth = s.bitDepth := rfl
@[simp] theorem finish_lpfN (s : State) : (finish s).lpfN = s.lpfN := rfl
@[simp] theorem finish_period (s : State) : (finish s).period = s.period := rfl
@[simp] theorem finish_thresh (s : State) : (finish s).thresh = s.thresh := rfl
@[simp] theorem finish_byteLen (s : State) : (finish s).byteLen = s.byteLen := rfl
@[simp] theorem finish_symLen (s : State) : (finish s).symLen = s.symLen := rfl
@[simp] theorem finish_sigLen (s : State) : (finish s).sigLen = s.sigLen := rfl
@[simp] theorem finish_payloadStart (s : State) : (finish s).payloadStart = s.payloadStart := rfl
@[simp] theorem finish_byteIdx (s : State) : (finish s).byteIdx = s.byteIdx := rfl
@[simp] theorem finish_symIdx (s : State) : (finish s).symIdx = s.symIdx := rfl
@[simp] theorem finish_sigIdx (s : State) : (finish s).sigIdx = s.sigIdx := rfl
@[simp] theorem finish_byteBuf (s : State) : (finish s).byteBuf = s.byteBuf := rfl
@[simp] theorem finish_symBuf (s : State) : (finish s).symBuf = s.symBuf := rfl
@[simp] theorem finish_sigBuf (s : State) : (finish s).sigBuf = s.sigBuf := rfl
@[simp] theorem finish_params (s : State) : (finish s).params = s.params := rfl
@[simp] theorem finish_agenda (s : State) : (finish s).agenda = s.agenda := rfl
@[simp] theorem finish_busOut (s : State) : (finish s).busOut = s.busOut := rfl
@[simp] theorem finish_rstAsserted (s : State) : (finish s).rstAsserted = s.rstAsserted := rfl
@[simp] theorem finish_resets (s : State) : (finish s).resets = s.resets := rfl

/-! ### errorEntry -/

@[simp] theorem errorEntry_busy (c : ErrCode) (st : Stage) (s : State) : (errorEntry c st s).busy = false := rfl
@[simp] theorem errorEntry_done (c : ErrCode) (st : Stage) (s : State) : (errorEntry c st s).done = s.done := rfl
@[simp] theorem errorEntry_found (c : ErrCode) (st : Stage) (s : State) : (errorEntry c st s).found = s.found := rfl
@[simp] theorem errorEntry_notfound (c : ErrCode) (st : Stage) (s : State) : (errorEntry c st s).notfound = s.notfound := rfl
@[simp] theorem errorEntry_err (c : ErrCode) (st : Stage) (s : State) : (errorEntry c st s).err = true := rfl
@[simp] theorem errorEntry_stage (c : ErrCode) (st : Stage) (s : State) : (errorEntry c st s).stage = none := rfl
@[simp] theorem errorEntry_op (c : ErrCode) (st : Stage) (s : State) : (errorEntry c st s).op = s.op := rfl
@[simp] theorem errorEntry_errCode (c : ErrCode) (st : Stage) (s : State) : (errorEntry c st s).errCode = some c := rfl
@[simp] theorem errorEntry_errStage (c : ErrCode) (st : Stage) (s : State) : (errorEntry c st s).errStage = some st := rfl
@[simp] theorem errorEntry_refscan (c : ErrCode) (st : Stage) (s : State) : (errorEntry c st s).refscan = s.refscan := rfl
@[simp] theorem errorEntry_ieDone (c : ErrCode) (st : Stage) (s : State) : (errorEntry c st s).ieDone = s.ieDone := rfl
@[simp] theorem errorEntry_ieNotfound (c : ErrCode) (st : Stage) (s : State) : (errorEntry c st s).ieNotfound = s.ieNotfound := rfl
@[simp] theorem errorEntry_ieErr (c : ErrCode) (st : Stage) (s : State) : (errorEntry c st s).ieErr = s.ieErr := rfl
@[simp] theorem errorEntry_sampleRate (c : ErrCode) (st : Stage) (s : State) : (errorEntry c st s).sampleRate = s.sampleRate := rfl
@[simp] theorem errorEntry_baudRate (c : ErrCode) (st : Stage) (s : State) : (errorEntry c st s).baudRate = s.baudRate := rfl
@[simp] theorem errorEntry_carrierFreq (c : ErrCode) (st : Stage) (s : State) : (errorEntry c st s).carrierFreq = s.carrierFreq := rfl
@[simp] theorem errorEntry_bitDepth (c : ErrCode) (st : Stage) (s : State) : (errorEntry c st s).bitDepth = s.bitDepth := rfl
@[simp] theorem errorEntry_lpfN (c : ErrCode) (st : Stage) (s : State) : (errorEntry c st s).lpfN = s.lpfN := rfl
@[simp] theorem errorEntry_period (c : ErrCode) (st : Stage) (s : State) : (errorEntry c st s).period = s.period := rfl
@[simp] theorem errorEntry_thresh (c : ErrCode) (st : Stage) (s : State) : (errorEntry c st s).thresh = s.thresh := rfl
@[simp] theorem errorEntry_byteLen (c : ErrCode) (st : Stage) (s : State) : (errorEntry c st s).byteLen = s.byteLen := rfl
@[simp] theorem errorEntry_symLen (c : ErrCode) (st : Stage) (s : State) : (errorEntry c st s).symLen = s.symLen := rfl
@[simp] theorem errorEntry_sigLen (c : ErrCode) (st : Stage) (s : State) : (errorEntry c st s).sigLen = s.sigLen := rfl
@[simp] theorem errorEntry_payloadStart (c : ErrCode) (st : Stage) (s : State) : (errorEntry c st s).payloadStart = s.payloadStart := rfl
@[simp] theorem errorEntry_byteIdx (c : ErrCode) (st : Stage) (s : State) : (errorEntry c st s).byteIdx = s.byteIdx := rfl
@[simp] theorem errorEntry_symIdx (c : ErrCode) (st : Stage) (s : State) : (errorEntry c st s).symIdx = s.symIdx := rfl
@[simp] theorem errorEntry_sigIdx (c : ErrCode) (st : Stage) (s : State) : (errorEntry c st s).sigIdx = s.sigIdx := rfl
@[simp] theorem errorEntry_byteBuf (c : ErrCode) (st : Stage) (s : State) : (errorEntry c st s).byteBuf = s.byteBuf := rfl
@[simp] theorem errorEntry_symBuf (c : ErrCode) (st : Stage) (s : State) : (errorEntry c st s).symBuf = s.symBuf := rfl
@[simp] theorem errorEntry_sigBuf (c : ErrCode) (st : Stage) (s : State) : (errorEntry c st s).sigBuf = s.sigBuf := rfl
@[simp] theorem errorEntry_params (c : ErrCode) (st : Stage) (s : State) : (errorEntry c st s).params = s.params := rfl
@[simp] theorem errorEntry_agenda (c : ErrCode) (st : Stage) (s : State) : (errorEntry c st s).agenda = s.agenda := rfl
@[simp] theorem errorEntry_busOut (c : ErrCode) (st : Stage) (s : State) : (errorEntry c st s).busOut = s.busOut := rfl
@[simp] theorem errorEntry_rstAsserted (c : ErrCode) (st : Stage) (s : State) : (errorEntry c st s).rstAsserted = s.rstAsserted := rfl
@[simp] theorem errorEntry_resets (c : ErrCode) (st : Stage) (s : State) : (errorEntry c st s).resets = s.resets := rfl

/-! ### commandErrorEntry -/

@[simp] theorem commandErrorEntry_busy (s : State) : (commandErrorEntry s).busy = s.busy := rfl
@[simp] theorem commandErrorEntry_done (s : State) : (commandErrorEntry s).done = false := rfl
@[simp] theorem commandErrorEntry_found (s : State) : (commandErrorEntry s).found = s.found := rfl
@[simp] theorem commandErrorEntry_notfound (s : State) : (commandErrorEntry s).notfound = s.notfound := rfl
@[simp] theorem commandErrorEntry_err (s : State) : (commandErrorEntry s).err = true := rfl
@[simp] theorem commandErrorEntry_stage (s : State) : (commandErrorEntry s).stage = s.stage := rfl
@[simp] theorem commandErrorEntry_op (s : State) : (commandErrorEntry s).op = s.op := rfl
@[simp] theorem commandErrorEntry_errCode (s : State) : (commandErrorEntry s).errCode = some .cmd := rfl
@[simp] theorem commandErrorEntry_errStage (s : State) : (commandErrorEntry s).errStage = none := rfl
@[simp] theorem commandErrorEntry_refscan (s : State) : (commandErrorEntry s).refscan = s.refscan := rfl
@[simp] theorem commandErrorEntry_ieDone (s : State) : (commandErrorEntry s).ieDone = s.ieDone := rfl
@[simp] theorem commandErrorEntry_ieNotfound (s : State) : (commandErrorEntry s).ieNotfound = s.ieNotfound := rfl
@[simp] theorem commandErrorEntry_ieErr (s : State) : (commandErrorEntry s).ieErr = s.ieErr := rfl
@[simp] theorem commandErrorEntry_sampleRate (s : State) : (commandErrorEntry s).sampleRate = s.sampleRate := rfl
@[simp] theorem commandErrorEntry_baudRate (s : State) : (commandErrorEntry s).baudRate = s.baudRate := rfl
@[simp] theorem commandErrorEntry_carrierFreq (s : State) : (commandErrorEntry s).carrierFreq = s.carrierFreq := rfl
@[simp] theorem commandErrorEntry_bitDepth (s : State) : (commandErrorEntry s).bitDepth = s.bitDepth := rfl
@[simp] theorem commandErrorEntry_lpfN (s : State) : (commandErrorEntry s).lpfN = s.lpfN := rfl
@[simp] theorem commandErrorEntry_period (s : State) : (commandErrorEntry s).period = s.period := rfl
@[simp] theorem commandErrorEntry_thresh (s : State) : (commandErrorEntry s).thresh = s.thresh := rfl
@[simp] theorem commandErrorEntry_byteLen (s : State) : (commandErrorEntry s).byteLen = s.byteLen := rfl
@[simp] theorem commandErrorEntry_symLen (s : State) : (commandErrorEntry s).symLen = s.symLen := rfl
@[simp] theorem commandErrorEntry_sigLen (s : State) : (commandErrorEntry s).sigLen = s.sigLen := rfl
@[simp] theorem commandErrorEntry_payloadStart (s : State) : (commandErrorEntry s).payloadStart = s.payloadStart := rfl
@[simp] theorem commandErrorEntry_byteIdx (s : State) : (commandErrorEntry s).byteIdx = s.byteIdx := rfl
@[simp] theorem commandErrorEntry_symIdx (s : State) : (commandErrorEntry s).symIdx = s.symIdx := rfl
@[simp] theorem commandErrorEntry_sigIdx (s : State) : (commandErrorEntry s).sigIdx = s.sigIdx := rfl
@[simp] theorem commandErrorEntry_byteBuf (s : State) : (commandErrorEntry s).byteBuf = s.byteBuf := rfl
@[simp] theorem commandErrorEntry_symBuf (s : State) : (commandErrorEntry s).symBuf = s.symBuf := rfl
@[simp] theorem commandErrorEntry_sigBuf (s : State) : (commandErrorEntry s).sigBuf = s.sigBuf := rfl
@[simp] theorem commandErrorEntry_params (s : State) : (commandErrorEntry s).params = s.params := rfl
@[simp] theorem commandErrorEntry_agenda (s : State) : (commandErrorEntry s).agenda = s.agenda := rfl
@[simp] theorem commandErrorEntry_busOut (s : State) : (commandErrorEntry s).busOut = s.busOut := rfl
@[simp] theorem commandErrorEntry_rstAsserted (s : State) : (commandErrorEntry s).rstAsserted = s.rstAsserted := rfl
@[simp] theorem commandErrorEntry_resets (s : State) : (commandErrorEntry s).resets = s.resets := rfl

/-! ### errorReturn -/

@[simp] theorem errorReturn_busy (s : State) : (errorReturn s).busy = s.busy := rfl
@[simp] theorem errorReturn_done (s : State) : (errorReturn s).done = s.done := rfl
@[simp] theorem errorReturn_found (s : State) : (errorReturn s).found = s.found := rfl
@[simp] theorem errorReturn_notfound (s : State) : (errorReturn s).notfound = s.notfound := rfl
@[simp] theorem errorReturn_err (s : State) : (errorReturn s).err = false := rfl
@[simp] theorem errorReturn_stage (s : State) : (errorReturn s).stage = s.stage := rfl
@[simp] theorem errorReturn_op (s : State) : (errorReturn s).op = s.op := rfl
@[simp] theorem errorReturn_errCode (s : State) : (errorReturn s).errCode = none := rfl
@[simp] theorem errorReturn_errStage (s : State) : (errorReturn s).errStage = none := rfl
@[simp] theorem errorReturn_refscan (s : State) : (errorReturn s).refscan = s.refscan := rfl
@[simp] theorem errorReturn_ieDone (s : State) : (errorReturn s).ieDone = s.ieDone := rfl
@[simp] theorem errorReturn_ieNotfound (s : State) : (errorReturn s).ieNotfound = s.ieNotfound := rfl
@[simp] theorem errorReturn_ieErr (s : State) : (errorReturn s).ieErr = s.ieErr := rfl
@[simp] theorem errorReturn_sampleRate (s : State) : (errorReturn s).sampleRate = s.sampleRate := rfl
@[simp] theorem errorReturn_baudRate (s : State) : (errorReturn s).baudRate = s.baudRate := rfl
@[simp] theorem errorReturn_carrierFreq (s : State) : (errorReturn s).carrierFreq = s.carrierFreq := rfl
@[simp] theorem errorReturn_bitDepth (s : State) : (errorReturn s).bitDepth = s.bitDepth := rfl
@[simp] theorem errorReturn_lpfN (s : State) : (errorReturn s).lpfN = s.lpfN := rfl
@[simp] theorem errorReturn_period (s : State) : (errorReturn s).period = s.period := rfl
@[simp] theorem errorReturn_thresh (s : State) : (errorReturn s).thresh = s.thresh := rfl
@[simp] theorem errorReturn_byteLen (s : State) : (errorReturn s).byteLen = s.byteLen := rfl
@[simp] theorem errorReturn_symLen (s : State) : (errorReturn s).symLen = s.symLen := rfl
@[simp] theorem errorReturn_sigLen (s : State) : (errorReturn s).sigLen = s.sigLen := rfl
@[simp] theorem errorReturn_payloadStart (s : State) : (errorReturn s).payloadStart = s.payloadStart := rfl
@[simp] theorem errorReturn_byteIdx (s : State) : (errorReturn s).byteIdx = s.byteIdx := rfl
@[simp] theorem errorReturn_symIdx (s : State) : (errorReturn s).symIdx = s.symIdx := rfl
@[simp] theorem errorReturn_sigIdx (s : State) : (errorReturn s).sigIdx = s.sigIdx := rfl
@[simp] theorem errorReturn_byteBuf (s : State) : (errorReturn s).byteBuf = s.byteBuf := rfl
@[simp] theorem errorReturn_symBuf (s : State) : (errorReturn s).symBuf = s.symBuf := rfl
@[simp] theorem errorReturn_sigBuf (s : State) : (errorReturn s).sigBuf = s.sigBuf := rfl
@[simp] theorem errorReturn_params (s : State) : (errorReturn s).params = s.params := rfl
@[simp] theorem errorReturn_agenda (s : State) : (errorReturn s).agenda = s.agenda := rfl
@[simp] theorem errorReturn_busOut (s : State) : (errorReturn s).busOut = s.busOut := rfl
@[simp] theorem errorReturn_rstAsserted (s : State) : (errorReturn s).rstAsserted = s.rstAsserted := rfl
@[simp] theorem errorReturn_resets (s : State) : (errorReturn s).resets = s.resets := rfl

/-! ### acceptCommand -/

@[simp] theorem acceptCommand_busy (i : Instr) (s : State) : (acceptCommand i s).busy = true := rfl
@[simp] theorem acceptCommand_done (i : Instr) (s : State) : (acceptCommand i s).done = false := rfl
@[simp] theorem acceptCommand_found (i : Instr) (s : State) : (acceptCommand i s).found = s.found := rfl
@[simp] theorem acceptCommand_notfound (i : Instr) (s : State) : (acceptCommand i s).notfound = s.notfound := rfl
@[simp] theorem acceptCommand_err (i : Instr) (s : State) : (acceptCommand i s).err = s.err := rfl
@[simp] theorem acceptCommand_stage (i : Instr) (s : State) : (acceptCommand i s).stage = firstStage i := rfl
@[simp] theorem acceptCommand_op (i : Instr) (s : State) : (acceptCommand i s).op = i := rfl
@[simp] theorem acceptCommand_errCode (i : Instr) (s : State) : (acceptCommand i s).errCode = s.errCode := rfl
@[simp] theorem acceptCommand_errStage (i : Instr) (s : State) : (acceptCommand i s).errStage = s.errStage := rfl
@[simp] theorem acceptCommand_refscan (i : Instr) (s : State) : (acceptCommand i s).refscan = s.refscan := rfl
@[simp] theorem acceptCommand_ieDone (i : Instr) (s : State) : (acceptCommand i s).ieDone = s.ieDone := rfl
@[simp] theorem acceptCommand_ieNotfound (i : Instr) (s : State) : (acceptCommand i s).ieNotfound = s.ieNotfound := rfl
@[simp] theorem acceptCommand_ieErr (i : Instr) (s : State) : (acceptCommand i s).ieErr = s.ieErr := rfl
@[simp] theorem acceptCommand_sampleRate (i : Instr) (s : State) : (acceptCommand i s).sampleRate = s.sampleRate := rfl
@[simp] theorem acceptCommand_baudRate (i : Instr) (s : State) : (acceptCommand i s).baudRate = s.baudRate := rfl
@[simp] theorem acceptCommand_carrierFreq (i : Instr) (s : State) : (acceptCommand i s).carrierFreq = s.carrierFreq := rfl
@[simp] theorem acceptCommand_bitDepth (i : Instr) (s : State) : (acceptCommand i s).bitDepth = s.bitDepth := rfl
@[simp] theorem acceptCommand_lpfN (i : Instr) (s : State) : (acceptCommand i s).lpfN = s.lpfN := rfl
@[simp] theorem acceptCommand_period (i : Instr) (s : State) : (acceptCommand i s).period = s.period := rfl
@[simp] theorem acceptCommand_thresh (i : Instr) (s : State) : (acceptCommand i s).thresh = s.thresh := rfl
@[simp] theorem acceptCommand_byteLen (i : Instr) (s : State) : (acceptCommand i s).byteLen = s.byteLen := rfl
@[simp] theorem acceptCommand_symLen (i : Instr) (s : State) : (acceptCommand i s).symLen = s.symLen := rfl
@[simp] theorem acceptCommand_sigLen (i : Instr) (s : State) : (acceptCommand i s).sigLen = s.sigLen := rfl
@[simp] theorem acceptCommand_payloadStart (i : Instr) (s : State) : (acceptCommand i s).payloadStart = s.payloadStart := rfl
@[simp] theorem acceptCommand_byteIdx (i : Instr) (s : State) : (acceptCommand i s).byteIdx = s.byteIdx := rfl
@[simp] theorem acceptCommand_symIdx (i : Instr) (s : State) : (acceptCommand i s).symIdx = s.symIdx := rfl
@[simp] theorem acceptCommand_sigIdx (i : Instr) (s : State) : (acceptCommand i s).sigIdx = s.sigIdx := rfl
@[simp] theorem acceptCommand_byteBuf (i : Instr) (s : State) : (acceptCommand i s).byteBuf = s.byteBuf := rfl
@[simp] theorem acceptCommand_symBuf (i : Instr) (s : State) : (acceptCommand i s).symBuf = s.symBuf := rfl
@[simp] theorem acceptCommand_sigBuf (i : Instr) (s : State) : (acceptCommand i s).sigBuf = s.sigBuf := rfl
@[simp] theorem acceptCommand_params (i : Instr) (s : State) : (acceptCommand i s).params = s.params := rfl
@[simp] theorem acceptCommand_agenda (i : Instr) (s : State) : (acceptCommand i s).agenda = s.agenda := rfl
@[simp] theorem acceptCommand_busOut (i : Instr) (s : State) : (acceptCommand i s).busOut = s.busOut := rfl
@[simp] theorem acceptCommand_rstAsserted (i : Instr) (s : State) : (acceptCommand i s).rstAsserted = s.rstAsserted := rfl
@[simp] theorem acceptCommand_resets (i : Instr) (s : State) : (acceptCommand i s).resets = s.resets := rfl

/-! ### setSyncFlags -/

@[simp] theorem setSyncFlags_busy (b : Bool) (s : State) : (setSyncFlags b s).busy = s.busy := rfl
@[simp] theorem setSyncFlags_done (b : Bool) (s : State) : (setSyncFlags b s).done = s.done := rfl
@[simp] theorem setSyncFlags_found (b : Bool) (s : State) : (setSyncFlags b s).found = b := rfl
@[simp] theorem setSyncFlags_notfound (b : Bool) (s : State) : (setSyncFlags b s).notfound = !b := rfl
@[simp] theorem setSyncFlags_err (b : Bool) (s : State) : (setSyncFlags b s).err = s.err := rfl
@[simp] theorem setSyncFlags_stage (b : Bool) (s : State) : (setSyncFlags b s).stage = s.stage := rfl
@[simp] theorem setSyncFlags_op (b : Bool) (s : State) : (setSyncFlags b s).op = s.op := rfl
@[simp] theorem setSyncFlags_errCode (b : Bool) (s : State) : (setSyncFlags b s).errCode = s.errCode := rfl
@[simp] theorem setSyncFlags_errStage (b : Bool) (s : State) : (setSyncFlags b s).errStage = s.errStage := rfl
@[simp] theorem setSyncFlags_refscan (b : Bool) (s : State) : (setSyncFlags b s).refscan = s.refscan := rfl
@[simp] theorem setSyncFlags_ieDone (b : Bool) (s : State) : (setSyncFlags b s).ieDone = s.ieDone := rfl
@[simp] theorem setSyncFlags_ieNotfound (b : Bool) (s : State) : (setSyncFlags b s).ieNotfound = s.ieNotfound := rfl
@[simp] theorem setSyncFlags_ieErr (b : Bool) (s : State) : (setSyncFlags b s).ieErr = s.ieErr := rfl
@[simp] theorem setSyncFlags_sampleRate (b : Bool) (s : State) : (setSyncFlags b s).sampleRate = s.sampleRate := rfl
@[simp] theorem setSyncFlags_baudRate (b : Bool) (s : State) : (setSyncFlags b s).baudRate = s.baudRate := rfl
@[simp] theorem setSyncFlags_carrierFreq (b : Bool) (s : State) : (setSyncFlags b s).carrierFreq = s.carrierFreq := rfl
@[simp] theorem setSyncFlags_bitDepth (b : Bool) (s : State) : (setSyncFlags b s).bitDepth = s.bitDepth := rfl
@[simp] theorem setSyncFlags_lpfN (b : Bool) (s : State) : (setSyncFlags b s).lpfN = s.lpfN := rfl
@[simp] theorem setSyncFlags_period (b : Bool) (s : State) : (setSyncFlags b s).period = s.period := rfl
@[simp] theorem setSyncFlags_thresh (b : Bool) (s : State) : (setSyncFlags b s).thresh = s.thresh := rfl
@[simp] theorem setSyncFlags_byteLen (b : Bool) (s : State) : (setSyncFlags b s).byteLen = s.byteLen := rfl
@[simp] theorem setSyncFlags_symLen (b : Bool) (s : State) : (setSyncFlags b s).symLen = s.symLen := rfl
@[simp] theorem setSyncFlags_sigLen (b : Bool) (s : State) : (setSyncFlags b s).sigLen = s.sigLen := rfl
@[simp] theorem setSyncFlags_payloadStart (b : Bool) (s : State) : (setSyncFlags b s).payloadStart = s.payloadStart := rfl
@[simp] theorem setSyncFlags_byteIdx (b : Bool) (s : State) : (setSyncFlags b s).byteIdx = s.byteIdx := rfl
@[simp] theorem setSyncFlags_symIdx (b : Bool) (s : State) : (setSyncFlags b s).symIdx = s.symIdx := rfl
@[simp] theorem setSyncFlags_sigIdx (b : Bool) (s : State) : (setSyncFlags b s).sigIdx = s.sigIdx := rfl
@[simp] theorem setSyncFlags_byteBuf (b : Bool) (s : State) : (setSyncFlags b s).byteBuf = s.byteBuf := rfl
@[simp] theorem setSyncFlags_symBuf (b : Bool) (s : State) : (setSyncFlags b s).symBuf = s.symBuf := rfl
@[simp] theorem setSyncFlags_sigBuf (b : Bool) (s : State) : (setSyncFlags b s).sigBuf = s.sigBuf := rfl
@[simp] theorem setSyncFlags_params (b : Bool) (s : State) : (setSyncFlags b s).params = s.params := rfl
@[simp] theorem setSyncFlags_agenda (b : Bool) (s : State) : (setSyncFlags b s).agenda = s.agenda := rfl
@[simp] theorem setSyncFlags_busOut (b : Bool) (s : State) : (setSyncFlags b s).busOut = s.busOut := rfl
@[simp] theorem setSyncFlags_rstAsserted (b : Bool) (s : State) : (setSyncFlags b s).rstAsserted = s.rstAsserted := rfl
@[simp] theorem setSyncFlags_resets (b : Bool) (s : State) : (setSyncFlags b s).resets = s.resets := rfl

/-! ### resetOf -/

@[simp] theorem resetOf_busy (s : State) : (resetOf s).busy = State.reset.busy := rfl
@[simp] theorem resetOf_done (s : State) : (resetOf s).done = State.reset.done := rfl
@[simp] theorem resetOf_found (s : State) : (resetOf s).found = State.reset.found := rfl
@[simp] theorem resetOf_notfound (s : State) : (resetOf s).notfound = State.reset.notfound := rfl
@[simp] theorem resetOf_err (s : State) : (resetOf s).err = State.reset.err := rfl
@[simp] theorem resetOf_stage (s : State) : (resetOf s).stage = State.reset.stage := rfl
@[simp] theorem resetOf_op (s : State) : (resetOf s).op = State.reset.op := rfl
@[simp] theorem resetOf_errCode (s : State) : (resetOf s).errCode = State.reset.errCode := rfl
@[simp] theorem resetOf_errStage (s : State) : (resetOf s).errStage = State.reset.errStage := rfl
@[simp] theorem resetOf_refscan (s : State) : (resetOf s).refscan = State.reset.refscan := rfl
@[simp] theorem resetOf_ieDone (s : State) : (resetOf s).ieDone = State.reset.ieDone := rfl
@[simp] theorem resetOf_ieNotfound (s : State) : (resetOf s).ieNotfound = State.reset.ieNotfound := rfl
@[simp] theorem resetOf_ieErr (s : State) : (resetOf s).ieErr = State.reset.ieErr := rfl
@[simp] theorem resetOf_sampleRate (s : State) : (resetOf s).sampleRate = State.reset.sampleRate := rfl
@[simp] theorem resetOf_baudRate (s : State) : (resetOf s).baudRate = State.reset.baudRate := rfl
@[simp] theorem resetOf_carrierFreq (s : State) : (resetOf s).carrierFreq = State.reset.carrierFreq := rfl
@[simp] theorem resetOf_bitDepth (s : State) : (resetOf s).bitDepth = State.reset.bitDepth := rfl
@[simp] theorem resetOf_lpfN (s : State) : (resetOf s).lpfN = State.reset.lpfN := rfl
@[simp] theorem resetOf_period (s : State) : (resetOf s).period = State.reset.period := rfl
@[simp] theorem resetOf_thresh (s : State) : (resetOf s).thresh = State.reset.thresh := rfl
@[simp] theorem resetOf_byteLen (s : State) : (resetOf s).byteLen = State.reset.byteLen := rfl
@[simp] theorem resetOf_symLen (s : State) : (resetOf s).symLen = State.reset.symLen := rfl
@[simp] theorem resetOf_sigLen (s : State) : (resetOf s).sigLen = State.reset.sigLen := rfl
@[simp] theorem resetOf_payloadStart (s : State) : (resetOf s).payloadStart = State.reset.payloadStart := rfl
@[simp] theorem resetOf_byteIdx (s : State) : (resetOf s).byteIdx = State.reset.byteIdx := rfl
@[simp] theorem resetOf_symIdx (s : State) : (resetOf s).symIdx = State.reset.symIdx := rfl
@[simp] theorem resetOf_sigIdx (s : State) : (resetOf s).sigIdx = State.reset.sigIdx := rfl
@[simp] theorem resetOf_byteBuf (s : State) : (resetOf s).byteBuf = State.reset.byteBuf := rfl
@[simp] theorem resetOf_symBuf (s : State) : (resetOf s).symBuf = State.reset.symBuf := rfl
@[simp] theorem resetOf_sigBuf (s : State) : (resetOf s).sigBuf = State.reset.sigBuf := rfl
@[simp] theorem resetOf_params (s : State) : (resetOf s).params = s.params := rfl
@[simp] theorem resetOf_agenda (s : State) : (resetOf s).agenda = s.agenda := rfl
@[simp] theorem resetOf_busOut (s : State) : (resetOf s).busOut = s.busOut := rfl
@[simp] theorem resetOf_rstAsserted (s : State) : (resetOf s).rstAsserted = s.rstAsserted := rfl
@[simp] theorem resetOf_resets (s : State) : (resetOf s).resets = s.resets := rfl

/-! ### assertReset -/

@[simp] theorem assertReset_busy (s : State) : (assertReset s).busy = State.reset.busy := rfl
@[simp] theorem assertReset_done (s : State) : (assertReset s).done = State.reset.done := rfl
@[simp] theorem assertReset_found (s : State) : (assertReset s).found = State.reset.found := rfl
@[simp] theorem assertReset_notfound (s : State) : (assertReset s).notfound = State.reset.notfound := rfl
@[simp] theorem assertReset_err (s : State) : (assertReset s).err = State.reset.err := rfl
@[simp] theorem assertReset_stage (s : State) : (assertReset s).stage = State.reset.stage := rfl
@[simp] theorem assertReset_op (s : State) : (assertReset s).op = State.reset.op := rfl
@[simp] theorem assertReset_errCode (s : State) : (assertReset s).errCode = State.reset.errCode := rfl
@[simp] theorem assertReset_errStage (s : State) : (assertReset s).errStage = State.reset.errStage := rfl
@[simp] theorem assertReset_refscan (s : State) : (assertReset s).refscan = State.reset.refscan := rfl
@[simp] theorem assertReset_ieDone (s : State) : (assertReset s).ieDone = State.reset.ieDone := rfl
@[simp] theorem assertReset_ieNotfound (s : State) : (assertReset s).ieNotfound = State.reset.ieNotfound := rfl
@[simp] theorem assertReset_ieErr (s : State) : (assertReset s).ieErr = State.reset.ieErr := rfl
@[simp] theorem assertReset_sampleRate (s : State) : (assertReset s).sampleRate = State.reset.sampleRate := rfl
@[simp] theorem assertReset_baudRate (s : State) : (assertReset s).baudRate = State.reset.baudRate := rfl
@[simp] theorem assertReset_carrierFreq (s : State) : (assertReset s).carrierFreq = State.reset.carrierFreq := rfl
@[simp] theorem assertReset_bitDepth (s : State) : (assertReset s).bitDepth = State.reset.bitDepth := rfl
@[simp] theorem assertReset_lpfN (s : State) : (assertReset s).lpfN = State.reset.lpfN := rfl
@[simp] theorem assertReset_period (s : State) : (assertReset s).period = State.reset.period := rfl
@[simp] theorem assertReset_thresh (s : State) : (assertReset s).thresh = State.reset.thresh := rfl
@[simp] theorem assertReset_byteLen (s : State) : (assertReset s).byteLen = State.reset.byteLen := rfl
@[simp] theorem assertReset_symLen (s : State) : (assertReset s).symLen = State.reset.symLen := rfl
@[simp] theorem assertReset_sigLen (s : State) : (assertReset s).sigLen = State.reset.sigLen := rfl
@[simp] theorem assertReset_payloadStart (s : State) : (assertReset s).payloadStart = State.reset.payloadStart := rfl
@[simp] theorem assertReset_byteIdx (s : State) : (assertReset s).byteIdx = State.reset.byteIdx := rfl
@[simp] theorem assertReset_symIdx (s : State) : (assertReset s).symIdx = State.reset.symIdx := rfl
@[simp] theorem assertReset_sigIdx (s : State) : (assertReset s).sigIdx = State.reset.sigIdx := rfl
@[simp] theorem assertReset_byteBuf (s : State) : (assertReset s).byteBuf = State.reset.byteBuf := rfl
@[simp] theorem assertReset_symBuf (s : State) : (assertReset s).symBuf = State.reset.symBuf := rfl
@[simp] theorem assertReset_sigBuf (s : State) : (assertReset s).sigBuf = State.reset.sigBuf := rfl
@[simp] theorem assertReset_params (s : State) : (assertReset s).params = s.params := rfl
@[simp] theorem assertReset_agenda (s : State) : (assertReset s).agenda = s.agenda := rfl
@[simp] theorem assertReset_busOut (s : State) : (assertReset s).busOut = s.busOut := rfl
@[simp] theorem assertReset_rstAsserted (s : State) : (assertReset s).rstAsserted = true := rfl
@[simp] theorem assertReset_resets (s : State) : (assertReset s).resets = s.resets + 1 := rfl

/-! ### releaseReset -/

@[simp] theorem releaseReset_busy (s : State) : (releaseReset s).busy = s.busy := rfl
@[simp] theorem releaseReset_done (s : State) : (releaseReset s).done = s.done := rfl
@[simp] theorem releaseReset_found (s : State) : (releaseReset s).found = s.found := rfl
@[simp] theorem releaseReset_notfound (s : State) : (releaseReset s).notfound = s.notfound := rfl
@[simp] theorem releaseReset_err (s : State) : (releaseReset s).err = s.err := rfl
@[simp] theorem releaseReset_stage (s : State) : (releaseReset s).stage = s.stage := rfl
@[simp] theorem releaseReset_op (s : State) : (releaseReset s).op = s.op := rfl
@[simp] theorem releaseReset_errCode (s : State) : (releaseReset s).errCode = s.errCode := rfl
@[simp] theorem releaseReset_errStage (s : State) : (releaseReset s).errStage = s.errStage := rfl
@[simp] theorem releaseReset_refscan (s : State) : (releaseReset s).refscan = s.refscan := rfl
@[simp] theorem releaseReset_ieDone (s : State) : (releaseReset s).ieDone = s.ieDone := rfl
@[simp] theorem releaseReset_ieNotfound (s : State) : (releaseReset s).ieNotfound = s.ieNotfound := rfl
@[simp] theorem releaseReset_ieErr (s : State) : (releaseReset s).ieErr = s.ieErr := rfl
@[simp] theorem releaseReset_sampleRate (s : State) : (releaseReset s).sampleRate = s.sampleRate := rfl
@[simp] theorem releaseReset_baudRate (s : State) : (releaseReset s).baudRate = s.baudRate := rfl
@[simp] theorem releaseReset_carrierFreq (s : State) : (releaseReset s).carrierFreq = s.carrierFreq := rfl
@[simp] theorem releaseReset_bitDepth (s : State) : (releaseReset s).bitDepth = s.bitDepth := rfl
@[simp] theorem releaseReset_lpfN (s : State) : (releaseReset s).lpfN = s.lpfN := rfl
@[simp] theorem releaseReset_period (s : State) : (releaseReset s).period = s.period := rfl
@[simp] theorem releaseReset_thresh (s : State) : (releaseReset s).thresh = s.thresh := rfl
@[simp] theorem releaseReset_byteLen (s : State) : (releaseReset s).byteLen = s.byteLen := rfl
@[simp] theorem releaseReset_symLen (s : State) : (releaseReset s).symLen = s.symLen := rfl
@[simp] theorem releaseReset_sigLen (s : State) : (releaseReset s).sigLen = s.sigLen := rfl
@[simp] theorem releaseReset_payloadStart (s : State) : (releaseReset s).payloadStart = s.payloadStart := rfl
@[simp] theorem releaseReset_byteIdx (s : State) : (releaseReset s).byteIdx = s.byteIdx := rfl
@[simp] theorem releaseReset_symIdx (s : State) : (releaseReset s).symIdx = s.symIdx := rfl
@[simp] theorem releaseReset_sigIdx (s : State) : (releaseReset s).sigIdx = s.sigIdx := rfl
@[simp] theorem releaseReset_byteBuf (s : State) : (releaseReset s).byteBuf = s.byteBuf := rfl
@[simp] theorem releaseReset_symBuf (s : State) : (releaseReset s).symBuf = s.symBuf := rfl
@[simp] theorem releaseReset_sigBuf (s : State) : (releaseReset s).sigBuf = s.sigBuf := rfl
@[simp] theorem releaseReset_params (s : State) : (releaseReset s).params = s.params := rfl
@[simp] theorem releaseReset_agenda (s : State) : (releaseReset s).agenda = s.agenda := rfl
@[simp] theorem releaseReset_busOut (s : State) : (releaseReset s).busOut = s.busOut := rfl
@[simp] theorem releaseReset_rstAsserted (s : State) : (releaseReset s).rstAsserted = false := rfl
@[simp] theorem releaseReset_resets (s : State) : (releaseReset s).resets = s.resets := rfl

end Sys2Proof.Machine
end

