-- ==== Sys2Proof/Laws/Engine.lean ====
section
/-! SUPPORT. What an ENGINE step, a command and a step of the block can do, once. -/

namespace Sys2Proof.Machine

/-- Every command's meaning is its next step. -/
theorem exec_eq_commandStep (i : Instr) (s : State) : exec i s = commandStep i s := by
  cases i <;> rfl

theorem exec_busy (i : Instr) (s : State) (h : s.busy = true) : exec i s = engineStep i s := by
  rw [exec_eq_commandStep, commandStep, if_pos h]

theorem exec_idle (i : Instr) (s : State) (h : s.busy = false) (he : s.err = false) :
    exec i s = .next (acceptCommand i s) := by
  rw [exec_eq_commandStep, commandStep, if_neg (by simp [h]), if_neg (by simp [he])]

theorem exec_idle_error (i : Instr) (s : State) (h : s.busy = false) (he : s.err = true) :
    exec i s = .next s := by
  rw [exec_eq_commandStep, commandStep, if_neg (by simp [h]), if_pos he]

theorem engineStep_none (i : Instr) (s : State) (h : s.stage = none) :
    engineStep i s = .next (finish s) := by
  simp [engineStep, h]

theorem engineStep_error (i : Instr) (s : State) (st : Stage) (c : ErrCode) (h : s.stage = some st)
    (hr : runStage st s = .error c) : engineStep i s = .next (errorEntry c st s) := by
  simp [engineStep, h, hr]

theorem engineStep_done (i : Instr) (s t : State) (st : Stage) (h : s.stage = some st)
    (hr : runStage st s = .ok t) (hn : nextStage i st t.found = .done) :
    engineStep i s = .next (finish t) := by
  simp [engineStep, h, hr, hn]

theorem engineStep_stage (i : Instr) (s t : State) (st st' : Stage) (h : s.stage = some st)
    (hr : runStage st s = .ok t) (hn : nextStage i st t.found = .stage st') :
    engineStep i s = .next { t with stage := some st' } := by
  simp [engineStep, h, hr, hn]

/-- Everything an ENGINE step can do: finish, error entry with nothing of the stage written, or the stage's
result followed by the next stage or the end (R197). -/
theorem engineStep_cases (i : Instr) (s : State) :
    (s.stage = none ∧ engineStep i s = .next (finish s))
    ∨ ∃ st, s.stage = some st ∧
      ((∃ c, runStage st s = .error c ∧ engineStep i s = .next (errorEntry c st s))
      ∨ ∃ t, runStage st s = .ok t ∧
        ((nextStage i st t.found = .done ∧ engineStep i s = .next (finish t))
        ∨ (∃ st', nextStage i st t.found = .stage st' ∧
            engineStep i s = .next { t with stage := some st' })
        ∨ (nextStage i st t.found = .offTable ∧ engineStep i s = .fault .sequencerOffTable))) := by
  cases hs : s.stage with
  | none => exact .inl ⟨rfl, engineStep_none i s hs⟩
  | some st =>
    refine .inr ⟨st, rfl, ?_⟩
    cases hr : runStage st s with
    | error c => exact .inl ⟨c, rfl, engineStep_error i s st c hs hr⟩
    | ok t =>
      refine .inr ⟨t, rfl, ?_⟩
      cases hn : nextStage i st t.found with
      | done => exact .inl ⟨rfl, engineStep_done i s t st hs hr hn⟩
      | stage st' => exact .inr (.inl ⟨st', rfl, engineStep_stage i s t st st' hs hr hn⟩)
      | offTable => exact .inr (.inr ⟨rfl, by simp [engineStep, hs, hr, hn]⟩)

/-- What a stage may write, whichever it is: buffers, lengths, PAYLOAD_START, FOUND and NOTFOUND (R61). -/
theorem runStage_frame (st : Stage) (s t : State) (h : runStage st s = .ok t) :
    t = { s with
      byteBuf := t.byteBuf, byteLen := t.byteLen, symBuf := t.symBuf, symLen := t.symLen
      sigBuf := t.sigBuf, sigLen := t.sigLen, payloadStart := t.payloadStart
      found := t.found, notfound := t.notfound } := by
  cases st <;>
    simp only [runStage, stageEnc, stageMod, stageRect, stageLpf, stageSlice, stageSync, stageDec] at h <;>
    split_ifs at h <;> (try split at h) <;> cases h <;> rfl

/-- A stage raises E_CFG, E_RANGE or E_OVF, never E_CMD (60_exceptions.md R215). -/
theorem runStage_error_ne_cmd (st : Stage) (s : State) (c : ErrCode) (h : runStage st s = .error c) :
    c ≠ .cmd := by
  cases st <;>
    simp only [runStage, stageEnc, stageMod, stageRect, stageLpf, stageSlice, stageSync, stageDec] at h <;>
    split_ifs at h <;> (try split at h) <;> cases h <;> decide

/-- The step of the block at an empty schedule. -/
theorem step_nil (s : State) (h : s.agenda = []) : step s = engineTurn s := by
  simp [step, h]

/-- The step of the block at a scheduled entry. -/
theorem step_cons (s : State) (e : Event) (rest : List Event) (h : s.agenda = e :: rest) :
    step s = eventStep e { s with agenda := rest } := by
  simp [step, h]

/-- A register's offset behind its bus address (R66). -/
theorem busOffset_base (p : Config.Params) (off : Nat) (h : off < 256) (h4 : off % 4 = 0) :
    busOffset p (p.base + off) = some off := by
  have hb : p.base % 4 = 0 := by unfold Config.Params.base; omega
  have : wellFormedBusAddress p (p.base + off) = true := by
    simp only [wellFormedBusAddress, Bool.and_eq_true, decide_eq_true_eq]
    omega
  rw [busOffset, if_pos this]
  simp

theorem busOffset_isSome_iff (p : Config.Params) (a : Nat) :
    (busOffset p a).isSome = wellFormedBusAddress p a := by
  unfold busOffset
  cases wellFormedBusAddress p a <;> rfl

/-- Everything a command request can be (R195). -/
theorem commandRequest_cases (w : Word) (s : State) :
    (s.busy = true ∧ commandRequest w s = .error s)
    ∨ (s.busy = false ∧ s.err = true ∧ commandRequest w s = .error s)
    ∨ (s.busy = false ∧ s.err = false ∧ (∃ r, decode w = .error r)
        ∧ commandRequest w s = .error (commandErrorEntry s))
    ∨ (s.busy = false ∧ s.err = false ∧ ∃ i, decode w = .ok i ∧ commandRequest w s = .ok i) := by
  unfold commandRequest
  cases hb : s.busy <;> cases he : s.err <;> simp
  cases hd : decode w <;> simp

/-- A CMD write, in the four branches of R195. -/
theorem writeCommand_cases (w : Word) (s : State) :
    (s.busy = true ∧ writeCommand w s = .next s)
    ∨ (s.busy = false ∧ s.err = true ∧ writeCommand w s = .next s)
    ∨ (s.busy = false ∧ s.err = false ∧ (∃ r, decode w = .error r)
        ∧ writeCommand w s = .next (commandErrorEntry s))
    ∨ (s.busy = false ∧ s.err = false ∧ ∃ i, decode w = .ok i
        ∧ writeCommand w s = .next (acceptCommand i s)) := by
  rcases commandRequest_cases w s with ⟨hb, h⟩ | ⟨hb, he, h⟩ | ⟨hb, he, hr, h⟩ | ⟨hb, he, i, hd, h⟩
  · exact .inl ⟨hb, by simp [writeCommand, h]⟩
  · exact .inr (.inl ⟨hb, he, by simp [writeCommand, h]⟩)
  · exact .inr (.inr (.inl ⟨hb, he, hr, by simp [writeCommand, h]⟩))
  · exact .inr (.inr (.inr ⟨hb, he, i, hd, by simp [writeCommand, h, exec_idle i s hb he]⟩))

/-- An ENGINE step whose stage raises an error (R197, R221). -/
theorem exec_error (i : Instr) (s : State) (st : Stage) (c : ErrCode) (hb : s.busy = true)
    (hs : s.stage = some st) (hr : runStage st s = .error c) :
    exec i s = .next (errorEntry c st s) := by
  rw [exec_busy _ _ hb, engineStep_error _ _ _ _ hs hr]

/-- An ENGINE step that runs the last stage (R197). -/
theorem exec_done (i : Instr) (s t : State) (st : Stage) (hb : s.busy = true)
    (hs : s.stage = some st) (hr : runStage st s = .ok t) (hn : nextStage i st t.found = .done) :
    exec i s = .next (finish t) := by
  rw [exec_busy _ _ hb, engineStep_done _ _ _ _ hs hr hn]

/-- An ENGINE step that goes on with another stage (R197). -/
theorem exec_stage (i : Instr) (s t : State) (st st' : Stage) (hb : s.busy = true)
    (hs : s.stage = some st) (hr : runStage st s = .ok t) (hn : nextStage i st t.found = .stage st') :
    exec i s = .next { t with stage := some st' } := by
  rw [exec_busy _ _ hb, engineStep_stage _ _ _ _ _ hs hr hn]

/-- A step at a host write to a register of the window. -/
theorem step_write (s : State) (off : Nat) (w : Word) (rest : List Event) (h : off < 256)
    (h4 : off % 4 = 0) (ha : s.agenda = .write (s.params.base + off) w :: rest) :
    step s = busWrite off w { s with agenda := rest } := by
  rw [step_cons s _ rest ha]
  simp only [eventStep]
  rw [busOffset_base _ off h h4]

/-- A step at a host read of a register of the window. -/
theorem step_read (s : State) (off : Nat) (rest : List Event) (h : off < 256)
    (h4 : off % 4 = 0) (ha : s.agenda = .read (s.params.base + off) :: rest) :
    step s = .next (busRead off { s with agenda := rest }) := by
  rw [step_cons s _ rest ha]
  simp only [eventStep]
  rw [busOffset_base _ off h h4]

/-- A step at a host write to CMD, `rst` released. -/
theorem step_writeCommand (s : State) (w : Word) (rest : List Event)
    (hr : s.rstAsserted = false) (ha : s.agenda = .write s.params.base w :: rest) :
    step s = writeCommand w { s with agenda := rest } := by
  rw [step_write s 0 w rest (by omega) (by omega) (by simpa using ha), busWrite, if_neg (by simp [hr])]
  rfl

end Sys2Proof.Machine
end

