-- ==== Sys2Proof/Laws/Bus.lean ====
section
/-! SUPPORT. What a host access can do, once per operation. -/

namespace Sys2Proof.Machine

/-- CMD stands at offset 0 alone (R67). -/
theorem regAt_cmd_iff (off : Nat) : regAt off = some .cmd ↔ off = 0 := by
  constructor
  · intro h; unfold regAt at h; split at h <;> first | rfl | cases h
  · rintro rfl; rfl

/-- STATUS stands at offset 4 alone (R67). -/
theorem regAt_status_iff (off : Nat) : regAt off = some .status ↔ off = 4 := by
  constructor
  · intro h; unfold regAt at h; split at h <;> first | rfl | cases h
  · rintro rfl; rfl

/-- The reserved offsets of R68. -/
theorem regAt_reserved (off : Nat) (h : 0x68 ≤ off) : regAt off = none := by
  unfold regAt; split <;> first | omega | rfl

/-- A write to any register but CMD, `rst` released (R66). -/
theorem busWrite_of_ne_zero (off : Nat) (w : Word) (s : State) (hr : s.rstAsserted = false) (h : off ≠ 0) :
    busWrite off w s = .next (hostWrite off w s) := by
  rw [busWrite, if_neg (by simp [hr]), if_neg (fun e => h ((regAt_cmd_iff off).1 e))]

/-- Everything a host write can do: nothing while `rst` is asserted; else a CMD write or a register write. -/
theorem busWrite_cases (off : Nat) (w : Word) (s : State) :
    (s.rstAsserted = true ∧ busWrite off w s = .next s)
    ∨ (s.rstAsserted = false ∧ off = 0 ∧ busWrite off w s = writeCommand w s)
    ∨ (s.rstAsserted = false ∧ off ≠ 0 ∧ busWrite off w s = .next (hostWrite off w s)) := by
  cases hr : s.rstAsserted with
  | true => exact .inl ⟨rfl, by rw [busWrite, if_pos hr]⟩
  | false =>
    by_cases h : off = 0
    · exact .inr (.inl ⟨rfl, h, by rw [busWrite, if_neg (by simp [hr]), if_pos ((regAt_cmd_iff off).2 h)]⟩)
    · exact .inr (.inr ⟨rfl, h, busWrite_of_ne_zero off w s hr h⟩)

/-- The 16 written bits decide the stored sample (R72). -/
theorem toInt_toSample (w : Word) : (toSample w).toInt = (w.extractLsb' 0 16).toInt := by
  rw [toSample, BitVec.toInt_signExtend_of_le (by omega)]

/-- A sample that the host writes is legal (R45, R72). -/
theorem toSample_inRange (w : Word) : (toSample w).inRange = true := by
  rw [inRange_iff, toInt_toSample]
  generalize w.extractLsb' 0 16 = x
  have h1 := BitVec.le_toInt x
  have h2 := BitVec.toInt_lt (x := x)
  simp at h1 h2
  omega

/-- A host read changes nothing but an index and the host's word (R75). -/
theorem hostRead_frame (off : Nat) (s : State) : hostRead off s = { s with busOut := (hostRead off s).busOut, byteIdx := (hostRead off s).byteIdx, symIdx := (hostRead off s).symIdx, sigIdx := (hostRead off s).sigIdx } := by
  unfold hostRead readByteData readSymData readSigData
  split <;> (try split) <;> rfl

/-- Only a DATA port has a side effect when it is read (R71, R75). -/
theorem hostRead_of_not_port (off : Nat) (s : State) (h1 : off ≠ 0x54) (h2 : off ≠ 0x5C) (h3 : off ≠ 0x64) :
    hostRead off s = { s with busOut := (hostRead off s).busOut } := by
  have port : ∀ r, regAt off = some r → r = .byteData ∨ r = .symData ∨ r = .sigData →
      off = 0x54 ∨ off = 0x5C ∨ off = 0x64 := by
    intro r h hr
    unfold regAt at h
    split at h <;> simp at h <;> subst h <;> simp at hr ⊢
  unfold hostRead
  split
  · rfl
  · rename_i h; have := port _ h (by simp); omega
  · rename_i h; have := port _ h (by simp); omega
  · rename_i h; have := port _ h (by simp); omega
  · rfl

/-- The word that a host reads does not depend on `rst` (R245: it is read from the state as it stands). -/
theorem busRead_busOut (off : Nat) (s : State) : (busRead off s).busOut = (hostRead off s).busOut := by
  unfold busRead; split <;> rfl

/-- A host read while `rst` is asserted changes the host's word only (R245). -/
theorem busRead_held (off : Nat) (s : State) (hr : s.rstAsserted = true) :
    busRead off s = { s with busOut := (hostRead off s).busOut } := by
  rw [busRead, if_pos hr]

/-- A host read while `rst` is released. -/
theorem busRead_released (off : Nat) (s : State) (hr : s.rstAsserted = false) : busRead off s = hostRead off s := by
  rw [busRead, if_neg (by simp [hr])]

/-- A host read changes nothing but an index and the host's word (R75), `rst` asserted or not. -/
theorem busRead_frame (off : Nat) (s : State) : busRead off s = { s with busOut := (busRead off s).busOut, byteIdx := (busRead off s).byteIdx, symIdx := (busRead off s).symIdx, sigIdx := (busRead off s).sigIdx } := by
  unfold busRead
  split
  · rfl
  · exact hostRead_frame off s

/-- Only STATUS writes FOUND and NOTFOUND (R227). -/
theorem writeReg_flags (r : Reg) (w : Word) (s : State) (h : r ≠ .status) : (writeReg r w s).found = s.found ∧ (writeReg r w s).notfound = s.notfound := by
  cases r <;> first | exact absurd rfl h | exact ⟨rfl, rfl⟩ | (simp only [writeReg, writeByteData, writeSymData, writeSigData]; split_ifs <;> exact ⟨rfl, rfl⟩)

/-- A host write while BUSY = 1 (R73). -/
theorem hostWrite_busy (off : Nat) (w : Word) (s : State) (h : s.busy = true) : hostWrite off w s = s := by
  rw [hostWrite, if_pos h]

/-- Running one step more. -/
theorem run_succ (n : Nat) (s t : State) (h : step s = .next t) : core.run (n + 1) s = core.run n t := by
  have h' : core.step s = .next t := h
  simp [Host.Core.run, h']

end Sys2Proof.Machine
end

