-- ==== Sys2Proof/Laws/Carrier.lean ====
section
/-! SUPPORT. The carrier table against the real sine (40_bitencoder_modulator.md R124): the truncated series, the
truncated pi and the two ends of the margin. -/

namespace Sys2Proof.Machine

/-- The value of `sineNest` as a real number. -/
noncomputable def sineNestReal (x : ℝ) : Nat → Nat → ℝ
  | 0, _ => 1
  | n + 1, j => 1 - x ^ 2 / ((2 * j) * (2 * j + 1)) * sineNestReal x n (j + 1)

theorem sineNest_den_pos (a b n j : Nat) (hb : 0 < b) (hj : 0 < j) : 0 < (sineNest a b n j).2 := by
  induction n generalizing j with
  | zero => simp [sineNest]
  | succ n ih =>
    have := ih (j + 1) (by omega)
    simp only [sineNest]
    positivity

theorem sineNest_value (a b n j : Nat) (hb : 0 < b) (hj : 0 < j) :
    ((sineNest a b n j).1 : ℝ) / (sineNest a b n j).2 = sineNestReal ((a : ℝ) / b) n j := by
  induction n generalizing j with
  | zero => simp [sineNest, sineNestReal]
  | succ n ih =>
    have hp := sineNest_den_pos a b n (j + 1) hb (by omega)
    have h := ih (j + 1) (by omega)
    simp only [sineNest, sineNestReal]
    rw [← h]
    have hq : ((sineNest a b n (j + 1)).2 : ℝ) ≠ 0 := by positivity
    have hb' : (b : ℝ) ≠ 0 := by positivity
    have hj' : (j : ℝ) ≠ 0 := by positivity
    push_cast
    field_simp

theorem sineSeries_den_pos (a b : Nat) (hb : 0 < b) : 0 < (sineSeries a b).2 := by
  have := sineNest_den_pos a b 12 1 hb (by omega)
  simp only [sineSeries]; positivity

theorem sineSeries_value (a b : Nat) (hb : 0 < b) :
    ((sineSeries a b).1 : ℝ) / (sineSeries a b).2 = (a : ℝ) / b * sineNestReal ((a : ℝ) / b) 12 1 := by
  have hp := sineNest_den_pos a b 12 1 hb (by omega)
  rw [← sineNest_value a b 12 1 hb (by omega)]
  simp only [sineSeries]
  push_cast
  field_simp

theorem sineNestReal_eq_sum (x : ℝ) : x * sineNestReal x 12 1 =
    ∑ k ∈ Finset.range 13, (-1) ^ k * x ^ (2 * k + 1) / (Nat.factorial (2 * k + 1)) := by
  simp only [sineNestReal, Finset.sum_range_succ, Finset.sum_range_zero, Nat.factorial]
  push_cast
  ring

theorem sin_near_sum (x : ℝ) (hx : |x| ≤ 14) :
    |Real.sin x - ∑ k ∈ Finset.range 13, (-1) ^ k * x ^ (2 * k + 1) / (Nat.factorial (2 * k + 1))|
      ≤ |x| ^ 27 / (Nat.factorial 27) * 2 := by
  have hn : ‖(x : ℂ) * Complex.I‖ = |x| := by simp
  have h := Complex.exp_bound' (x := x * Complex.I) (n := 27) (by
    rw [hn, div_le_iff₀ (by positivity)]; push_cast; linarith)
  rw [hn] at h
  refine le_trans ?_ h
  refine le_trans (le_of_eq ?_) (Complex.abs_im_le_norm _)
  congr 1
  rw [Complex.sub_im, Complex.exp_ofReal_mul_I_im, Complex.im_sum]
  congr 1
  have hterm : ∀ m, ((↑x * Complex.I) ^ m / (Nat.factorial m : ℂ)).im = x ^ m / (Nat.factorial m : ℝ) * (Complex.I ^ m).im := by
    intro m
    rw [mul_pow, mul_comm, mul_div_assoc]
    have : ((x : ℂ) ^ m / (Nat.factorial m : ℂ)) = ((x ^ m / (Nat.factorial m : ℝ) : ℝ) : ℂ) := by push_cast; rfl
    rw [this, Complex.mul_im, Complex.ofReal_im, Complex.ofReal_re]; ring
  simp only [hterm]
  have h4 : ∀ m, (Complex.I ^ (2 * m)).im = 0 ∧ (Complex.I ^ (2 * m + 1)).im = (-1) ^ m := by
    intro m
    rw [pow_succ, pow_mul, Complex.I_sq]
    constructor
    · rw [show ((-1 : ℂ) ^ m) = (((-1 : ℝ) ^ m : ℝ) : ℂ) by push_cast; rfl, Complex.ofReal_im]
    · rw [show ((-1 : ℂ) ^ m) = (((-1 : ℝ) ^ m : ℝ) : ℂ) by push_cast; rfl, Complex.im_ofReal_mul, Complex.I_im, mul_one]
  rw [show 27 = 2 * 13 + 1 by rfl]
  have hsum : ∀ n, ∑ m ∈ Finset.range (2 * n + 1), x ^ m / (Nat.factorial m : ℝ) * (Complex.I ^ m).im = ∑ k ∈ Finset.range n, (-1) ^ k * x ^ (2 * k + 1) / (Nat.factorial (2 * k + 1) : ℝ) := by
    intro n
    induction n with
    | zero => simp
    | succ n ih =>
      rw [show 2 * (n + 1) + 1 = (2 * n + 1) + 1 + 1 by ring, Finset.sum_range_succ, Finset.sum_range_succ, ih, Finset.sum_range_succ, (h4 n).2, show 2 * n + 1 + 1 = 2 * (n + 1) by ring, (h4 (n + 1)).1]
      ring
  exact (hsum 13).symm

theorem intDiv_eq_floor (n : Int) (d : Nat) : n / (d : Int) = ⌊(n : ℝ) / d⌋ := by
  rw [Int.floor_div_natCast, Int.floor_intCast]

/-- The series at the truncated angle is within the margin of the sine at the exact angle (R124, log 8). -/
theorem sineSeries_near_sin (p q : Nat) (hq : 0 < q) (h4 : 4 * p ≤ q) :
    |((sineSeries (2 * piNumerator * p) (piDenominator * q)).1 : ℝ)
        / (sineSeries (2 * piNumerator * p) (piDenominator * q)).2
      - Real.sin (2 * Real.pi * p / q)| ≤ 1 / 10 ^ 20 := by
  have hden : 0 < piDenominator * q := by unfold piDenominator; omega
  rw [sineSeries_value _ _ hden, sineNestReal_eq_sum]
  have hq' : (0 : ℝ) < q := by exact_mod_cast hq
  have hp0 : (0 : ℝ) ≤ p := by positivity
  have hr : (p : ℝ) / q ≤ 1 / 4 := by
    rw [div_le_iff₀ hq']
    have : (4 * p : ℝ) ≤ q := by exact_mod_cast h4
    linarith
  have hr0 : 0 ≤ (p : ℝ) / q := by positivity
  generalize hrdef : (p : ℝ) / q = r at hr hr0
  have hx : ((2 * piNumerator * p : Nat) : ℝ) / (piDenominator * q : Nat) = 2 * 3.14159265358979323846 * r := by
    rw [← hrdef]
    unfold piNumerator piDenominator
    push_cast
    field_simp
    norm_num
    ring
  have ht : 2 * Real.pi * p / q = 2 * Real.pi * r := by rw [← hrdef]; ring
  rw [hx, ht]
  have g1 := Real.pi_gt_d20
  have g2 := Real.pi_lt_d20
  set x := 2 * 3.14159265358979323846 * r with hxd
  have hx0 : 0 ≤ x := by positivity
  have hx1 : x ≤ 1.6 := by rw [hxd]; linarith
  have hs := sin_near_sum x (by rw [abs_of_nonneg hx0]; linarith)
  have hb : |x| ^ 27 / (Nat.factorial 27) * 2 ≤ 1 / 10 ^ 21 := by
    rw [abs_of_nonneg hx0]
    have : x ^ 27 ≤ 1.6 ^ 27 := pow_le_pow_left₀ hx0 hx1 27
    have h27 : ((Nat.factorial 27 : Nat) : ℝ) = 10888869450418352160768000000 := by
      norm_num [Nat.factorial]
    rw [h27]
    calc x ^ 27 / 10888869450418352160768000000 * 2 ≤ 1.6 ^ 27 / 10888869450418352160768000000 * 2 := by gcongr
      _ ≤ _ := by norm_num
  have hl := Real.abs_sin_sub_sin_le x (2 * Real.pi * r)
  have hl2 : |x - 2 * Real.pi * r| ≤ 1 / 2 / 10 ^ 20 := by
    have _hd : 0 ≤ Real.pi - 3.14159265358979323846 := by linarith
    have hd2 : Real.pi - 3.14159265358979323846 ≤ 1 / 10 ^ 20 := by
      have : (3.14159265358979323847 : ℝ) - 3.14159265358979323846 = 1 / 10 ^ 20 := by norm_num
      linarith
    have : x - 2 * Real.pi * r = -(2 * r * (Real.pi - 3.14159265358979323846)) := by rw [hxd]; ring
    rw [this, abs_neg, abs_of_nonneg (by positivity)]
    calc 2 * r * (Real.pi - 3.14159265358979323846) ≤ 2 * (1 / 4) * (1 / 10 ^ 20) := by gcongr
      _ = _ := by norm_num
  have k1 := abs_le.1 (hs.trans hb)
  have k2 := abs_le.1 (hl.trans hl2)
  have n1 : (1 : ℝ) / 2 / 10 ^ 20 + 1 / 10 ^ 21 ≤ 1 / 10 ^ 20 := by norm_num
  rw [abs_le]
  constructor <;> linarith [k1.1, k1.2, k2.1, k2.2]

/-- What the first quarter of the table can answer (R124, log 8). -/
theorem sineQuarter_near_sin (fs m p q : Nat) (hq : 0 < q) (h4 : 4 * p ≤ q) :
    ∃ y : ℝ, |y - 32768 * Real.sin (2 * Real.pi * p / q)| ≤ 1 / 10 ^ 15 ∧ sineQuarter fs m p q = ⌊y + 1 / 2⌋ := by
  have hden : 0 < piDenominator * q := by unfold piDenominator; omega
  have hdp := sineSeries_den_pos (2 * piNumerator * p) (piDenominator * q) hden
  have hn := sineSeries_near_sin p q hq h4
  unfold sineQuarter
  generalize sineSeries (2 * piNumerator * p) (piDenominator * q) = nd at hdp hn ⊢
  obtain ⟨n, d⟩ := nd
  simp only at hdp hn ⊢
  set S := Real.sin (2 * Real.pi * p / q) with hS
  have hS0 : 0 ≤ S := by
    apply Real.sin_nonneg_of_nonneg_of_le_pi (by positivity)
    rw [div_le_iff₀ (by exact_mod_cast hq)]
    have : (4 * p : ℝ) ≤ q := by exact_mod_cast h4
    nlinarith [Real.pi_pos]
  have hS1 : S ≤ 1 := Real.sin_le_one _
  have hd' : (0 : ℝ) < d := by exact_mod_cast hdp
  have he : (piDenominator : ℝ) = 10 ^ 20 := by unfold piDenominator; norm_num
  have hep : 0 < 2 * d * piDenominator := by unfold piDenominator; omega
  have hlo : (65536 * (n * (piDenominator : Int) - d) + d * (piDenominator : Int)) / ((2 * d * piDenominator : Nat) : Int)
      = ⌊(32768 * ((n : ℝ) / d - 1 / 10 ^ 20)) + 1 / 2⌋ := by
    rw [intDiv_eq_floor]
    congr 1
    push_cast
    rw [he]
    field_simp
    ring
  have hhi : (65536 * (n * (piDenominator : Int) + d) + d * (piDenominator : Int)) / ((2 * d * piDenominator : Nat) : Int)
      = ⌊(32768 * ((n : ℝ) / d + 1 / 10 ^ 20)) + 1 / 2⌋ := by
    rw [intDiv_eq_floor]
    congr 1
    push_cast
    rw [he]
    field_simp
    ring
  have key : ∀ y : ℝ, |y - 32768 * S| ≤ 1 / 10 ^ 15 → max 0 (min 32768 ⌊y + 1 / 2⌋) = ⌊y + 1 / 2⌋ := by
    intro y hy
    rw [abs_le] at hy
    have n1 : (1 : ℝ) / 10 ^ 15 < 1 / 2 := by norm_num
    have a1 : (0 : Int) ≤ ⌊y + 1 / 2⌋ := by rw [Int.le_floor]; push_cast; linarith [hy.1]
    have a2 : ⌊y + 1 / 2⌋ < (32769 : Int) := by rw [Int.floor_lt]; push_cast; linarith [hy.2]
    omega
  rw [abs_le] at hn
  have hy1 : |32768 * ((n : ℝ) / d - 1 / 10 ^ 20) - 32768 * S| ≤ 1 / 10 ^ 15 := by
    rw [abs_le]; constructor <;> (norm_num at *; linarith [hn.1, hn.2])
  have hy2 : |32768 * ((n : ℝ) / d + 1 / 10 ^ 20) - 32768 * S| ≤ 1 / 10 ^ 15 := by
    rw [abs_le]; constructor <;> (norm_num at *; linarith [hn.1, hn.2])
  have pick : ∀ v : Int, (v = ⌊32768 * ((n : ℝ) / d - 1 / 10 ^ 20) + 1 / 2⌋ ∨ v = ⌊32768 * ((n : ℝ) / d + 1 / 10 ^ 20) + 1 / 2⌋) →
      ∃ y : ℝ, |y - 32768 * S| ≤ 1 / 10 ^ 15 ∧ max 0 (min 32768 v) = ⌊y + 1 / 2⌋ := by
    rintro v (rfl | rfl)
    · exact ⟨_, hy1, key _ hy1⟩
    · exact ⟨_, hy2, key _ hy2⟩
  apply pick
  rw [← hlo, ← hhi]
  split_ifs <;> simp

/-- What the carrier table can answer: the exact value, moved by at most 10^-15, rounded to the nearest integer (R124). -/
theorem sineTable_near_sin (fs m : Nat) (hm : m < fs) :
    ∃ y : ℝ, |y - 32768 * Real.sin (2 * Real.pi * m / fs)| ≤ 1 / 10 ^ 15
      ∧ (sineTable fs m = ⌊y + 1 / 2⌋ ∨ sineTable fs m = -⌊-y + 1 / 2⌋) := by
  have hf : (0 : ℝ) < fs := by exact_mod_cast (by omega : 0 < fs)
  have flip : ∀ k, 2 * k ≤ fs → Real.sin (2 * Real.pi * ((fs - 2 * k : Nat) : ℝ) / ((2 * fs : Nat) : ℝ)) = Real.sin (2 * Real.pi * k / fs) := by
    intro k hk
    rw [← Real.sin_pi_sub (2 * Real.pi * k / fs)]
    congr 1
    push_cast [Nat.cast_sub hk]
    field_simp
  have same : ∀ k : Nat, Real.sin (2 * Real.pi * ((2 * k : Nat) : ℝ) / ((2 * fs : Nat) : ℝ)) = Real.sin (2 * Real.pi * k / fs) := by
    intro k
    congr 1
    push_cast
    field_simp
  have neg : Real.sin (2 * Real.pi * ((fs - m : Nat) : ℝ) / fs) = -Real.sin (2 * Real.pi * m / fs) := by
    rw [← Real.sin_two_pi_sub (2 * Real.pi * m / fs)]
    congr 1
    push_cast [Nat.cast_sub hm.le]
    field_simp
  have negate : ∀ v : Int, (∃ y : ℝ, |y - 32768 * -Real.sin (2 * Real.pi * m / fs)| ≤ 1 / 10 ^ 15 ∧ v = ⌊y + 1 / 2⌋) →
      ∃ y : ℝ, |y - 32768 * Real.sin (2 * Real.pi * m / fs)| ≤ 1 / 10 ^ 15
      ∧ (-v = ⌊y + 1 / 2⌋ ∨ -v = -⌊-y + 1 / 2⌋) := by
    rintro v ⟨y, hy, rfl⟩
    refine ⟨-y, ?_, .inr (by rw [neg_neg])⟩
    rw [← abs_neg]; convert hy using 2; ring
  simp only [sineTable]
  split_ifs with h1 h2 _
  · obtain ⟨y, hy, hv⟩ := sineQuarter_near_sin fs m (2 * m) (2 * fs) (by omega) (by omega)
    rw [same] at hy
    exact ⟨y, hy, .inl hv⟩
  · obtain ⟨y, hy, hv⟩ := sineQuarter_near_sin fs m (fs - 2 * m) (2 * fs) (by omega) (by omega)
    rw [flip m h1] at hy
    exact ⟨y, hy, .inl hv⟩
  · apply negate
    obtain ⟨y, hy, hv⟩ := sineQuarter_near_sin fs (fs - m) (2 * (fs - m)) (2 * fs) (by omega) (by omega)
    rw [same, neg] at hy
    exact ⟨y, hy, hv⟩
  · apply negate
    obtain ⟨y, hy, hv⟩ := sineQuarter_near_sin fs (fs - m) (fs - 2 * (fs - m)) (2 * fs) (by omega) (by omega)
    rw [flip _ (by omega), neg] at hy
    exact ⟨y, hy, hv⟩

end Sys2Proof.Machine
end

