-- ==== Sys2Proof/Laws/Decode.lean ====
section
/-! SUPPORT. The decoder in terms of the word's value. -/

namespace Sys2Proof

theorem opcode_lt_ten (i : Instr) : (opcode i).toNat < 10 := by cases i <;> decide

theorem instrOfOpcode_opcode (i : Instr) : instrOfOpcode (opcode i).toNat = some i := by cases i <;> rfl

theorem opcode_of_instrOfOpcode (n : Nat) (i : Instr) (h : instrOfOpcode n = some i) :
    (opcode i).toNat = n := by
  unfold instrOfOpcode at h
  split at h <;> cases h <;> rfl

theorem zeroField_eq_zero_iff (w : Word) : w.extractLsb' 4 28 = 0 ↔ w.toNat / 16 = 0 := by
  rw [← BitVec.toNat_inj]
  have := w.isLt
  simp [BitVec.extractLsb'_toNat, Nat.shiftRight_eq_div_pow]
  omega

theorem opcodeField_toNat (w : Word) : (w.extractLsb' 0 4).toNat = w.toNat % 16 := by
  simp [BitVec.extractLsb'_toNat]

theorem encode_toNat (i : Instr) : (encode i).toNat = (opcode i).toNat := by cases i <;> rfl

/-- What the decoder accepts: the word whose value is the command's OPC (R100, R101). -/
theorem decode_ok_iff (w : Word) (i : Instr) : decode w = .ok i ↔ w.toNat = (opcode i).toNat := by
  have hi := opcode_lt_ten i
  constructor
  · intro h
    unfold decode at h
    split_ifs at h with h1
    · rw [opcodeField_toNat] at h
      rw [zeroField_eq_zero_iff] at h1
      split at h <;> cases h
      rename_i h2
      have := opcode_of_instrOfOpcode _ _ h2
      omega
  · intro h
    unfold decode
    rw [if_pos (by rw [zeroField_eq_zero_iff]; omega), opcodeField_toNat, h, Nat.mod_eq_of_lt (by omega),
      instrOfOpcode_opcode]

end Sys2Proof
end

