-- ==== Sys2Proof/Laws/Invariant.lean ====
section
/-! SUPPORT. What the invariant rests on: the legal range of the samples, the sequencer's table, the flags. -/

namespace Sys2Proof.Machine

/-- RECT keeps the legal range of R45. -/
theorem samplesInRange_rectify (s : State) (n : Nat) (h : samplesInRange s.sigBuf) :
    samplesInRange (Memory.replacePrefix s.sigBuf (rectify (s.sigs n))) := by
  intro c hc
  rcases mem_replacePrefix hc with ⟨-, h2⟩ | h2
  · simp only [rectify, State.sigs, List.map_map, List.mem_map] at h2
    obtain ⟨i, -, h2⟩ := h2
    have := sigAt_inRange s h i
    rw [inRange_iff, ← h2]
    simp only [Function.comp]
    rw [toInt_ofInt_of_range] <;> omega
  · exact h _ h2

/-- LPF keeps the legal range of R45. -/
theorem samplesInRange_lowPass (s : State) (n l : Nat) (hl : 1 ≤ l) (h : samplesInRange s.sigBuf) :
    samplesInRange (Memory.replacePrefix s.sigBuf (lowPass l (s.sigs n))) := by
  intro c hc
  rcases mem_replacePrefix hc with ⟨-, h2⟩ | h2
  · simp only [lowPass, List.mem_map, List.mem_range, length_sigs] at h2
    obtain ⟨i, hi, h2⟩ := h2
    have hb := movingAverage_bounds (n := l) (i := i) (a := -32768) (b := 32768) hl
      (x := sampleValue (s.sigs n)) fun j hj => by
        rw [sampleValue_sigs s n j (by omega)]; exact sigAt_inRange s h j
    rw [inRange_iff, ← h2, toInt_ofInt_of_range _ hb.1 hb.2]
    exact hb
  · exact h _ h2

/-- MOD keeps the legal range of R45. -/
theorem samplesInRange_modulate (s : State) (a b c : Nat) (ys) (h : samplesInRange s.sigBuf) :
    samplesInRange (Memory.replacePrefix s.sigBuf (modulate a b c ys)) := by
  intro d hc
  rcases mem_replacePrefix hc with ⟨-, h2⟩ | h2
  · simp only [modulate, symbolSamples, List.mem_flatMap, List.mem_map] at h2
    obtain ⟨y, -, k, -, h2⟩ := h2
    have := sinQ_bounds a b k
    rw [inRange_iff, ← h2]
    split_ifs
    · rw [toInt_ofInt_of_range] <;> omega
    · simp
  · exact h _ h2

/-- A found preamble ends inside SYM (R175). -/
theorem syncResult_payloadStart_le (s : State) (h : (syncResult s).found = true) : (syncResult s).payloadStart.toNat ≤ s.symLen.toNat := by
  unfold syncResult at *
  cases hf : findPreamble s.refscan s.symLen.toNat s.symAt with
  | some hit =>
    have hf' := (findPreamble_eq_some ..).1 hf
    have := (lt_candidates_iff ..).1 hf'.2.1
    have := s.symLen.isLt
    simp only [BitVec.toNat_ofNat]
    omega
  | none => simp [hf] at h

/-- SYNC sets exactly one of FOUND and NOTFOUND (R179). -/
theorem syncResult_flags (s : State) : (syncResult s).found = !(syncResult s).notfound := by
  unfold syncResult; split <;> rfl

/-- A stage that writes its result leaves ERR. -/
theorem runStage_ok_err (st : Stage) (s t : State) (h : runStage st s = .ok t) : t.err = s.err := by
  rw [runStage_frame st s t h]

/-- No stage changes the parameters. -/
theorem runStage_ok_params (st : Stage) (s t : State) (h : runStage st s = .ok t) : t.params = s.params := by
  rw [runStage_frame st s t h]

/-- Where the sequencer goes on, it stands on its table again (R196). -/
theorem sequencerOnTable_of_nextStage (i : Instr) (st st' : Stage) (found : Bool)
    (h : nextStage i st found = .stage st') : sequencerOnTable i (some st') = true := by
  revert h
  cases i <;> cases found <;> cases st <;> cases st' <;> simp [nextStage, sequencerOnTable]

/-- An accepted command starts on the table (R195, R196). -/
theorem sequencerOnTable_firstStage (i : Instr) : sequencerOnTable i (firstStage i) = true := by
  cases i <;> rfl

/-- The schedule is no part of the invariant. -/
theorem inv_agenda (s : State) (es : List Event) (hi : s.Inv) : ({ s with agenda := es } : State).Inv := by
  obtain ⟨i1, i2, i3, i4, i5, i6, h1, h2, h3, h4, h5, h6, h7, h8⟩ := hi
  exact ⟨i1, i2, i3, i4, i5, i6, h1, h2, h3, h4, h5, h6, h7,
    fun hr => congrArg (fun t : State => { t with agenda := es }) (h8 hr)⟩

/-- A block with BUSY = 1 or ERR = 1 is not held in reset (R50, R245). -/
theorem not_held_of_busy_or_err (s : State) (hi : s.Inv) (h : s.busy = true ∨ s.err = true) : s.rstAsserted = false := by
  cases hr : s.rstAsserted with
  | false => rfl
  | true =>
    have e := hi.heldInReset hr
    rw [e] at h
    rcases h with h | h <;> cases h

end Sys2Proof.Machine
end

