-- ==== Sys2Proof/Laws/PerInstr.lean ====
section
/-! SUPPORT. Facts about every command as syntax, one lemma per constructor. -/

namespace Sys2Proof.Laws.WordOf

/-- The command is well formed, its word is legal, and the decoder reads the command back from it. -/
def Statement (i : Instr) : Prop :=
  i.wellFormed = true ∧ wellFormedCommandWord (encode i) = true
    ∧ decode (encode i) = .ok i ∧ decodeTableWord 32 (encode i).toNat = some i

theorem nop : Statement .nop := ⟨rfl, rfl, rfl, rfl⟩
theorem enc : Statement .enc := ⟨rfl, rfl, rfl, rfl⟩
theorem mod : Statement .mod := ⟨rfl, rfl, rfl, rfl⟩
theorem rect : Statement .rect := ⟨rfl, rfl, rfl, rfl⟩
theorem lpf : Statement .lpf := ⟨rfl, rfl, rfl, rfl⟩
theorem slice : Statement .slice := ⟨rfl, rfl, rfl, rfl⟩
theorem sync : Statement .sync := ⟨rfl, rfl, rfl, rfl⟩
theorem dec : Statement .dec := ⟨rfl, rfl, rfl, rfl⟩
theorem tx : Statement .tx := ⟨rfl, rfl, rfl, rfl⟩
theorem rx : Statement .rx := ⟨rfl, rfl, rfl, rfl⟩

end Sys2Proof.Laws.WordOf
end

