-- ==== Sys2Proof/Tests/Slice0.lean ====
section
/-! SUPPORT. Tests: the smoke of WellFormed, the words written out from 30_encoding.md R97 and R100, one-step vectors
of 95_test_vectors.md, and a witness for the hypotheses of every statement that has some. -/

namespace Sys2Proof.Tests

open Sys2Proof.Machine

/-! ### WellFormed: what each check refuses (R97, R101, R64, U5). A command has no ill-formed term. -/

theorem test_wellFormed_refuses_zero_field : wellFormedCommandWord 0x00000011 = false := by decide
theorem test_wellFormed_refuses_top_bit : wellFormedCommandWord 0x80000001 = false := by decide
theorem test_wellFormed_refuses_reserved_opcodes :
    wellFormedCommandWord 0x0000000A = false ∧ wellFormedCommandWord 0x0000000F = false := by decide
theorem test_wellFormed_accepts_last_opcode : wellFormedCommandWord 0x00000009 = true := by decide

/-- A small machine: BYTE_MAX 4, SYM_MAX 40, SIG_MAX 160, BASE 256. -/
def params : Config.Params := { byteMax := 4, symMax := 40, sigMax := 160, basePage := 1 }

theorem test_wellFormedBusAddress_window :
    wellFormedBusAddress params 256 = true ∧ wellFormedBusAddress params 508 = true
    ∧ wellFormedBusAddress params 252 = false ∧ wellFormedBusAddress params 512 = false
    ∧ wellFormedBusAddress params 257 = false ∧ wellFormedBusAddress params 258 = false := by decide

/-! ### Decoding: each word bit by bit from R97 and R100 -/

theorem test_decode_nop : decode 0b00000000000000000000000000000000#32 = .ok .nop := rfl
theorem test_decode_enc : decode 0b00000000000000000000000000000001#32 = .ok .enc := rfl
theorem test_decode_mod : decode 0b00000000000000000000000000000010#32 = .ok .mod := rfl
theorem test_decode_rect : decode 0b00000000000000000000000000000011#32 = .ok .rect := rfl
theorem test_decode_lpf : decode 0b00000000000000000000000000000100#32 = .ok .lpf := rfl
theorem test_decode_slice : decode 0b00000000000000000000000000000101#32 = .ok .slice := rfl
theorem test_decode_sync : decode 0b00000000000000000000000000000110#32 = .ok .sync := rfl
theorem test_decode_dec : decode 0b00000000000000000000000000000111#32 = .ok .dec := rfl
theorem test_decode_tx : decode 0b00000000000000000000000000001000#32 = .ok .tx := rfl
theorem test_decode_rx : decode 0b00000000000000000000000000001001#32 = .ok .rx := rfl
theorem test_decode_reserved : decode 0b00000000000000000000000000001010#32 = .error .reservedOpcode := rfl
theorem test_decode_reserved_last : decode 0b00000000000000000000000000001111#32 = .error .reservedOpcode := rfl
theorem test_decode_zero_field : decode 0b00000000000000000000000000010001#32 = .error .zeroFieldSet := rfl
theorem test_decode_zero_field_top : decode 0b10000000000000000000000000001001#32 = .error .zeroFieldSet := rfl

theorem test_decodeTableWord : decodeTableWord 32 9 = some .rx ∧ decodeTableWord 32 10 = none := by decide

/-! ### One-step vectors of 95_test_vectors.md -/

/-- The state that an outcome answers; reset if it answers none. -/
def result (o : Host.Outcome State Fault Refusal) : State :=
  match o with
  | .next t => t
  | .fault _ => State.reset
  | .refused _ => State.reset

/-- A configured block with four bytes to send, at every capacity of `params`. -/
def demo : State :=
  { State.reset with
    params := params, sampleRate := 8, baudRate := 2, carrierFreq := 1, bitDepth := 16, lpfN := 1
    period := 4, thresh := 0x10000000, byteBuf := Memory.number 0 [0x48, 0x69, 0x00, 0xFF], byteLen := 4 }

/-- `s` while command `i` runs, stage `st` next. -/
def during (i : Instr) (st : Option Stage) (s : State) : State := { s with busy := true, op := i, stage := st }

def withSyms (bs : List Nat) (s : State) : State :=
  { s with symBuf := Memory.number 0 (bs.map (fun b => decide (b = 1))), symLen := BitVec.ofNat 32 bs.length }

def withSigs (vs : List Int) (s : State) : State :=
  { s with sigBuf := Memory.number 0 (vs.map Sample.ofInt), sigLen := BitVec.ofNat 32 vs.length }

def symsOf (s : State) : List Nat := (s.syms s.symLen.toNat).map (fun b => b.toNat)

def sigsOf (s : State) : List Int := (s.sigs s.sigLen.toNat).map BitVec.toInt

/-- V-CMD-1. -/
theorem test_nop_from_reset :
    (result (core.run 2 (State.reset.withFetchWord 32 0))).statusWord = 0x00000002 := by decide
/-- V-CMD-2, V-CMD-3. -/
theorem test_illegal_word :
    (result (step (State.reset.withFetchWord 32 0x0A))).errInfoWord = 0x00000001
    ∧ (result (step (State.reset.withFetchWord 32 0x11))).statusWord = 0x00000010 := by decide
/-- V-ENC-3. -/
theorem test_enc_hi :
    symsOf (result (exec .enc (during .enc (some .enc) { demo with byteLen := 2 })))
      = [1,0,1,0,1,0,1,0, 0,1,0,0,1,0,0,0, 0,1,1,0,1,0,0,1] := by decide
/-- V-ENC-6. -/
theorem test_enc_overflow :
    (result (exec .enc (during .enc (some .enc)
      { demo with params := { params with symMax := 31 }, byteLen := 3 }))).errInfoWord = 0x0104 := by decide
/-- V-MOD-2. -/
theorem test_mod_restarts_phase :
    sigsOf (result (exec .mod (during .mod (some .mod) (withSyms [1, 1] { demo with baudRate := 1 }))))
      = [0, 23170, 32768, 23170, 0, -23170, -32768, -23170,
         0, 23170, 32768, 23170, 0, -23170, -32768, -23170] := by decide +kernel
/-- V-MOD-9. -/
theorem test_mod_no_sample_per_symbol :
    (result (exec .mod (during .mod (some .mod)
      { demo with sampleRate := 2, baudRate := 8 }))).errInfoWord = 0x0202 := by decide
/-- V-RECT-3, V-RECT-4. -/
theorem test_rect_does_not_saturate :
    sigsOf (result (exec .rect (during .rect (some .rect) (withSigs [-32768, 32767, -1, 1, 0] demo))))
      = [32768, 32767, 1, 1, 0] := by decide
/-- V-RECT-6. -/
theorem test_rect_range :
    (result (exec .rect (during .rect (some .rect) { demo with sigLen := 161 }))).errInfoWord = 0x0303 := by decide
/-- V-LPF-3. -/
theorem test_lpf_window_three :
    sigsOf (result (exec .lpf (during .lpf (some .lpf)
      (withSigs [0, 23170, 32768, 23170, 0, 23170, 32768, 23170] { demo with lpfN := 3 }))))
      = [0, 11585, 18646, 26369, 18646, 15446, 18646, 26369] := by decide
/-- V-LPF-6. -/
theorem test_lpf_floors :
    sigsOf (result (exec .lpf (during .lpf (some .lpf) (withSigs [-1, 0] { demo with lpfN := 2 }))))
      = [-1, -1] := by decide
/-- V-SLICE-2. -/
theorem test_slice_equality_is_zero :
    symsOf (result (exec .slice (during .slice (some .slice)
      (withSigs [16384, 16385] { demo with period := 1, bitDepth := 1, thresh := 32768 })))) = [0, 1] := by decide
/-- V-SLICE-9. -/
theorem test_slice_does_not_wrap :
    symsOf (result (exec .slice (during .slice (some .slice)
      (withSigs [32768, 32768, 32768, 32768]
        { demo with bitDepth := 32, thresh := 0xFFFFFFFF })))) = [1] := by decide
/-- V-SYNC-8. -/
theorem test_sync_skips_a_wrong_group :
    (result (exec .sync (during .sync (some .sync)
      (withSyms [1,0,1,0,1,0,1,1, 1,0,1,0,1,0,1,0, 0,1] demo)))).payloadStart = 16 := by decide
/-- V-SYNC-4. -/
theorem test_sync_scan_bounds :
    (result (exec .sync (during .sync (some .sync)
      (withSyms [0, 1,0,1,0,1,0,1,0] demo)))).payloadStart = 9
    ∧ (result (exec .sync (during .sync (some .sync)
      (withSyms [0, 1,0,1,0,1,0,1,0] { demo with refscan := true })))).notfound = true := by decide
/-- V-DEC-3. -/
theorem test_dec_drops_the_tail :
    let t := result (exec .dec (during .dec (some .dec)
      (withSyms [1,0,1,0,1,0,1,0, 0,1,0,0,1,0,0,0, 0,1,1,0,1,0,0,1, 1,1,1] { demo with payloadStart := 8 })))
    t.bytes 2 = [0x48, 0x69] ∧ t.byteLen = 2 := by decide
/-- V-DEC-7. -/
theorem test_dec_after_notfound :
    (result (exec .dec (during .dec (some .dec)
      { demo with payloadStart := 0xFFFFFFFF }))).errInfoWord = 0x0703 := by decide
/-- R203 by R23: after ENC, TX is busy with MOD. -/
theorem test_tx_goes_on_with_mod :
    (result (exec .tx (during .tx (some .enc) demo))).statusWord = 0x00008201 := by decide
/-- P3: RX ends NotFound. -/
theorem test_rx_ends_notfound :
    (result (exec .rx (during .rx (some .sync) (withSyms [0,0,0,0,0,0,0,0] demo)))).statusWord = 0x0000900A := by
  decide
/-- R204 by R23: after SYNC found the preamble, RX is busy with DEC. -/
theorem test_rx_goes_on_with_dec :
    (result (exec .rx (during .rx (some .sync) (withSyms [1,0,1,0,1,0,1,0] demo)))).statusWord = 0x00009705 := by
  decide
/-- V-CMD-7. -/
theorem test_status_write_keeps_unwritten_flags :
    (writeStatus 0x0A { demo with done := true, notfound := true, op := .rx }).statusWord = 0x00009000 := by decide
/-- V-PORT-1. -/
theorem test_sample_ports :
    fromSample (toSample 0x00008000) = 0xFFFF8000 ∧ fromSample (toSample 0x12347FFF) = 0x00007FFF := by decide
/-- V-RECT-3: the port reads +32768. -/
theorem test_sample_port_reads_top : fromSample (Sample.ofInt 32768) = 0x00008000 := by decide
/-- 40_bitencoder_modulator.md R125 (f), V-MOD-12: the first twelve carrier samples. -/
theorem test_carrier_1000_at_44100 :
    (List.range 12).map (sinQ 44100 1000)
      = [0, 4653, 9211, 13583, 17680, 21418, 24723, 27526, 29771, 31414, 32419, 32768] := by decide +kernel
/-- The host's check: the word that the host writes runs as the next step (log 13). -/
theorem test_withFetchWord_runs_the_command :
    step (State.reset.withFetchWord 32 8) = exec .tx State.reset := rfl

/-! ### Witnesses: a concrete state for the hypotheses of every statement that has some, clause by clause -/

def queued (es : List Event) (s : State) : State := { s with agenda := es }

/-- What `s` left by running `i` is, and that it answers it. -/
def Runs (i : Instr) (s : State) : Prop := exec i s = .next (result (exec i s))

theorem demo_inv : demo.Inv := by constructor <;> decide
theorem reset_inv : State.reset.Inv := by constructor <;> decide

theorem witness_DecodeAndEncodeAgree :
    Instr.wellFormed .rx = true ∧ decode 9 = .ok .rx ∧ decode 10 = .error .reservedOpcode
    ∧ decode 16 = .error .zeroFieldSet := ⟨rfl, rfl, rfl, rfl⟩

theorem witness_ResetInputLeavesTheResetState :
    (queued [.assertRst, .engine] demo).agenda = .assertRst :: [.engine]
    ∧ (queued [.releaseRst] demo).agenda = .releaseRst :: [] ∧ demo.rstAsserted = false := ⟨rfl, rfl, rfl⟩

/-- The small machine while `rst` is asserted. -/
def heldReset : State := assertReset demo

theorem heldReset_inv : heldReset.Inv := by constructor <;> decide

/-- Every clause: nothing scheduled, the ENGINE, a write, a read, one of each DATA port, the release. -/
theorem witness_HeldResetIsLeftOnlyByItsRelease :
    heldReset.Inv ∧ heldReset.rstAsserted = true ∧ heldReset.agenda = []
    ∧ (∀ e ∈ ([.engine, .releaseRst, .write params.base 9, .read params.base, .read (params.base + 0x54),
          .read (params.base + 0x5C), .read (params.base + 0x64)] : List Event),
        (queued [e] heldReset).Inv ∧ (queued [e] heldReset).rstAsserted = true ∧ (queued [e] heldReset).agenda = e :: []
        ∧ eventExpressible params e = true) := by
  refine ⟨heldReset_inv, rfl, rfl, fun e he => ⟨inv_agenda heldReset [e] heldReset_inv, rfl, rfl, ?_⟩⟩
  revert e; decide

/-- R245: a CMD write while `rst` is asserted leaves the reset state. -/
theorem test_held_reset_drops_a_command :
    (result (core.run 2 (queued [.write params.base 8, .read (params.base + 4)] heldReset))).busOut = 0
    ∧ (result (step (queued [.write params.base 8] heldReset))) = heldReset := by decide

theorem witness_StepRunsTheDecodedCommandWord :
    let s := queued [.write demo.params.base 9] demo
    s.rstAsserted = false ∧ s.busy = false ∧ s.err = false ∧ s.agenda = .write s.params.base 9 :: []
    ∧ decode 9 = .ok .rx := ⟨rfl, rfl, rfl, rfl, rfl⟩

theorem witness_StepAtTheEnginesTurnRunsTheAcceptedCommand :
    ((during .enc (some .enc) demo).busy = true ∧ (during .enc (some .enc) demo).agenda = [])
    ∧ (queued [.engine] (during .enc (some .enc) demo)).agenda = .engine :: []
    ∧ (demo.busy = false ∧ demo.agenda = [])
    ∧ (queued [.engine] demo).agenda = .engine :: [] := by decide

/-- The branches of R195, the last legal word and both kinds of illegal word at their boundary. -/
theorem witness_CommandWriteIsAcceptedOrDroppedOrRefused :
    (queued [.write demo.params.base 9] demo).agenda = .write demo.params.base 9 :: [] ∧ demo.rstAsserted = false
    ∧ (during .enc (some .enc) demo).busy = true
    ∧ ({ demo with err := true } : State).err = true
    ∧ (demo.busy = false ∧ demo.err = false)
    ∧ ((10 : Word).toNat / 16 = 0 ∧ 10 ≤ (10 : Word).toNat % 16) ∧ (16 : Word).toNat / 16 ≠ 0
    ∧ ((9 : Word).toNat / 16 = 0 ∧ (9 : Word).toNat % 16 < 10) := by decide

theorem witness_NopFinishesInOneEngineStep :
    (demo.busy = false ∧ demo.err = false)
    ∧ ((during .nop none demo).busy = true ∧ (during .nop none demo).stage = none) := by decide

/-- ENC at both capacities at once, one byte too many for BYTE, one symbol too many for SYM. -/
theorem witness_EncWritesPreambleThenBytes :
    let s := during .enc (some .enc) demo
    (s.busy = true ∧ s.stage = some .enc) ∧ EncReady s
    ∧ s.params.byteMax.val < ({ s with byteLen := 5 } : State).byteLen.toNat
    ∧ (let u := ({ s with params := { params with symMax := 39 } } : State)
       u.byteLen.toNat ≤ u.params.byteMax.val ∧ u.params.symMax.val < 8 + 8 * u.byteLen.toNat) := by
  refine ⟨⟨rfl, rfl⟩, ⟨?_, ?_⟩, ?_, ?_⟩ <;> decide

/-- MOD at both capacities at once, each cause of E_CFG at its boundary, one symbol and one sample too many. -/
theorem witness_ModWritesCarrierOrSilencePerSymbol :
    let s := during .mod (some .mod) { demo with symLen := 40 }
    (s.busy = true ∧ s.stage = some .mod) ∧ ModReady s
    ∧ ({ s with baudRate := 0 } : State).baudRate.toNat = 0
    ∧ (let u := ({ s with baudRate := 9 } : State); u.sampleRate.toNat < u.baudRate.toNat)
    ∧ (let u := ({ s with symLen := 41 } : State); 1 ≤ u.sps ∧ u.params.symMax.val < u.symLen.toNat)
    ∧ (let u := ({ s with params := { params with sigMax := 159 } } : State)
       1 ≤ u.sps ∧ u.symLen.toNat ≤ u.params.symMax.val ∧ u.params.sigMax.val < u.symLen.toNat * u.sps) := by
  refine ⟨⟨rfl, rfl⟩, ⟨?_, ?_, ?_⟩, ?_, ?_, ?_, ?_⟩ <;> decide

/-- A state of the invariant with `n` samples to receive. -/
def received (i : Instr) (st : Option Stage) (n : Word) : State := during i st { demo with sigLen := n }

theorem received_rect_inv (n : Word) : (received .rect (some .rect) n).Inv := by
  constructor <;> simp [received, during, demo, State.reset, sequencerOnTable, nextStage, Memory.wf, Memory.below,
    Memory.number, samplesInRange, params]
theorem received_lpf_inv : (received .lpf (some .lpf) 160).Inv := by constructor <;> decide

theorem witness_RectWritesAbsoluteValues :
    let s := received .rect (some .rect) 160
    let u := received .rect (some .rect) 161
    (s.Inv ∧ s.busy = true ∧ s.stage = some .rect ∧ RectReady s)
    ∧ (u.Inv ∧ u.busy = true ∧ u.stage = some .rect ∧ u.params.sigMax.val < u.sigLen.toNat) :=
  ⟨⟨received_rect_inv 160, rfl, rfl, by unfold RectReady; decide⟩, ⟨received_rect_inv 161, rfl, rfl, by decide⟩⟩

theorem witness_LpfWritesFlooredWindowMeans :
    let s := received .lpf (some .lpf) 160
    (s.Inv ∧ s.busy = true ∧ s.stage = some .lpf ∧ LpfReady s)
    ∧ ({ s with lpfN := 0 } : State).Inv
    ∧ (let u := ({ s with sigLen := 161 } : State)
       u.Inv ∧ u.lpfN ≠ 0 ∧ u.params.sigMax.val < u.sigLen.toNat) := by
  refine ⟨⟨received_lpf_inv, rfl, rfl, ⟨?_, ?_⟩⟩, ?_, ?_, ?_, ?_⟩ <;> first | decide | (constructor <;> decide)

/-- SLICE at both capacities at once, every cause of E_CFG at its boundary, one sample and one symbol too many. -/
theorem witness_SliceComparesWindowSumsExactly :
    let s := received .slice (some .slice) 160
    (s.busy = true ∧ s.stage = some .slice) ∧ SliceReady s ∧ SliceReady { s with bitDepth := 1 }
    ∧ SliceReady { s with bitDepth := 32 }
    ∧ ({ s with period := 0 } : State).period = 0 ∧ ({ s with bitDepth := 0 } : State).bitDepth = 0
    ∧ 32 < ({ s with bitDepth := 33 } : State).bitDepth.toNat
    ∧ (let u := ({ s with sigLen := 161 } : State)
       u.period ≠ 0 ∧ u.bitDepth ≠ 0 ∧ u.bitDepth.toNat ≤ 32 ∧ u.params.sigMax.val < u.sigLen.toNat)
    ∧ (let u := ({ s with params := { params with symMax := 39 } } : State)
       u.period ≠ 0 ∧ u.bitDepth ≠ 0 ∧ u.bitDepth.toNat ≤ 32 ∧ u.sigLen.toNat ≤ u.params.sigMax.val
       ∧ u.params.symMax.val < u.sigLen.toNat / u.period.toNat) := by
  refine ⟨⟨rfl, rfl⟩, ?_, ?_, ?_, ?_, ?_, ?_, ?_, ?_⟩ <;> first | decide | (unfold SliceReady; decide)

theorem witness_SyncFindsTheFirstPreamble :
    let s := during .sync (some .sync) { demo with symLen := 40 }
    (s.busy = true ∧ s.stage = some .sync ∧ SyncReady s)
    ∧ s.params.symMax.val < ({ s with symLen := 41 } : State).symLen.toNat := by
  refine ⟨⟨rfl, rfl, ?_⟩, ?_⟩ <;> first | decide | (unfold SyncReady; decide)

/-- DEC at both capacities at once, an empty payload, and each error at its boundary. -/
theorem witness_DecWritesOneBytePerFullGroup :
    let s := during .dec (some .dec) { demo with symLen := 40, payloadStart := 8 }
    (s.busy = true ∧ s.stage = some .dec) ∧ DecReady s ∧ DecReady { s with payloadStart := 40 }
    ∧ s.params.symMax.val < ({ s with symLen := 41 } : State).symLen.toNat
    ∧ s.symLen.toNat < ({ s with payloadStart := 41 } : State).payloadStart.toNat
    ∧ (let u := ({ s with payloadStart := 0 } : State)
       u.symLen.toNat ≤ u.params.symMax.val ∧ u.payloadStart.toNat ≤ u.symLen.toNat
       ∧ u.params.byteMax.val < (u.symLen.toNat - u.payloadStart.toNat) / 8) := by
  refine ⟨⟨rfl, rfl⟩, ?_, ?_, ?_, ?_, ?_⟩ <;> first | decide | (unfold DecReady; decide)

/-- TX at all three capacities at once. -/
theorem witness_TxRunsEncThenMod :
    let s := during .tx (some .enc) demo
    s.busy = true ∧ s.stage = some .enc ∧ EncReady s ∧ 1 ≤ s.sps
    ∧ (8 + 8 * s.byteLen.toNat) * s.sps ≤ s.params.sigMax.val := by
  refine ⟨rfl, rfl, ⟨?_, ?_⟩, ?_, ?_⟩ <;> decide

/-- RX with as many symbols as BYTE can take. -/
theorem witness_RxRunsItsStagesInOrder :
    let s := received .rx (some .rect) 128
    s.Inv ∧ s.busy = true ∧ s.stage = some .rect ∧ LpfReady s ∧ SliceReady s
    ∧ s.sigLen.toNat / s.period.toNat / 8 ≤ s.params.byteMax.val := by
  refine ⟨by constructor <;> decide, rfl, rfl, ?_, ?_, ?_⟩ <;>
    first | decide | (unfold LpfReady; decide) | (unfold SliceReady; decide)

/-- Each stage at the last ENGINE step it can take although a later stage cannot run (LPF_N, PERIOD and the
capacities as the clause leaves them open). -/
theorem witness_CompositeStagesRunUnderTheirOwnRequirement :
    (let s := during .tx (some .enc) { demo with baudRate := 0 }
     s.Inv ∧ s.busy = true ∧ s.stage = some .enc ∧ EncReady s ∧ ¬ModReady s)
    ∧ (let s := during .tx (some .mod) { demo with symLen := 40 }
       s.Inv ∧ s.busy = true ∧ s.stage = some .mod ∧ ModReady s)
    ∧ (let s := during .rx (some .rect) { demo with sigLen := 160, lpfN := 0 }
       s.Inv ∧ s.busy = true ∧ s.stage = some .rect ∧ RectReady s ∧ ¬LpfReady s)
    ∧ (let s := during .rx (some .lpf) { demo with sigLen := 160, period := 0 }
       s.Inv ∧ s.busy = true ∧ s.stage = some .lpf ∧ LpfReady s ∧ ¬SliceReady s)
    ∧ (let s := during .rx (some .slice) { demo with sigLen := 160 }
       s.Inv ∧ s.busy = true ∧ s.stage = some .slice ∧ SliceReady s)
    ∧ (let s := during .rx (some .sync) { demo with symLen := 40 }
       s.Inv ∧ s.busy = true ∧ s.stage = some .sync ∧ SyncReady s)
    ∧ (let s := during .rx (some .dec) { demo with symLen := 40, payloadStart := 8 }
       s.Inv ∧ s.busy = true ∧ s.stage = some .dec ∧ DecReady s) := by
  simp only [EncReady, ModReady, RectReady, LpfReady, SliceReady, SyncReady, DecReady]
  refine ⟨⟨?_, ?_⟩, ⟨?_, ?_⟩, ⟨?_, ?_⟩, ⟨?_, ?_⟩, ⟨?_, ?_⟩, ⟨?_, ?_⟩, ⟨?_, ?_⟩⟩ <;>
    first | decide | (constructor <;> decide)

/-- R223's own example, PERIOD = 0. -/
theorem witness_RxKeepsTheEnvelopeWhenSliceFails :
    let s := during .rx (some .rect) { demo with sigLen := 160, period := 0 }
    s.Inv ∧ s.busy = true ∧ s.stage = some .rect ∧ RectReady s ∧ LpfReady s ∧ CfgCause s .slice := by
  refine ⟨by constructor <;> decide, rfl, rfl, ?_, ?_, ?_⟩ <;> simp only [RectReady, LpfReady, CfgCause] <;> decide

theorem witness_RxWithoutPreambleSkipsDec :
    let s := during .rx (some .sync) { demo with symLen := 7 }
    s.busy = true ∧ s.err = false ∧ s.stage = some .sync ∧ SyncReady s
    ∧ ∀ i, ScanTests s i → ¬PreambleStandsAt s i := by
  refine ⟨rfl, rfl, rfl, by unfold SyncReady; decide, fun i h => ?_⟩
  have h' : i + 8 + 0 ≤ 7 := h
  omega

theorem witness_TxEqualsEncThenMod :
    demo.Inv ∧ demo.rstAsserted = false ∧ demo.busy = false ∧ demo.err = false := ⟨demo_inv, rfl, rfl, rfl⟩

/-- One sample per symbol, a 1 where the sample is above 0. -/
def burst (vs : List Int) : State := withSigs vs { demo with period := 1, bitDepth := 1, thresh := 0 }

def rxSchedule : List Event := [.write params.base 9, .engine, .engine, .engine, .engine, .engine]

def partsSchedule : List Event :=
  [.write params.base 3, .engine, .write params.base 4, .engine, .write params.base 5, .engine,
   .write params.base 6, .engine]

/-- With a preamble (FOUND) and without one. -/
theorem witness_RxEqualsItsPartsInTurn :
    ((burst [1,0,1,0,1,0,1,0]).Inv ∧ (burst [1,0,1,0,1,0,1,0]).rstAsserted = false
      ∧ (burst [1,0,1,0,1,0,1,0]).busy = false ∧ (burst [1,0,1,0,1,0,1,0]).err = false
      ∧ (result (core.run 6 (queued rxSchedule (burst [1,0,1,0,1,0,1,0])))).err = false
      ∧ (result (core.run 8 (queued partsSchedule (burst [1,0,1,0,1,0,1,0])))).found = true
      ∧ (result (core.run 6 (queued rxSchedule (burst [1,0,1,0,1,0,1,0])))).statusWord = 0x00009006)
    ∧ ((burst [1]).Inv ∧ (burst [1]).rstAsserted = false ∧ (burst [1]).busy = false ∧ (burst [1]).err = false
      ∧ (result (core.run 6 (queued rxSchedule (burst [1])))).err = false
      ∧ (result (core.run 8 (queued partsSchedule (burst [1])))).found = false
      ∧ (result (core.run 8 (queued partsSchedule (burst [1])))).statusWord = 0x0000600A) := by
  refine ⟨⟨by constructor <;> decide, ?_⟩, by constructor <;> decide, ?_⟩ <;> decide +kernel

theorem witness_ConfigurationErrorExactlyOnItsCauses :
    (let s := during .mod (some .mod) { demo with baudRate := 9 }
     s.Inv ∧ s.busy = true ∧ s.stage = some .mod ∧ CfgCause s .mod)
    ∧ (let s := during .lpf (some .lpf) { demo with lpfN := 0 }
       s.Inv ∧ s.busy = true ∧ s.stage = some .lpf ∧ CfgCause s .lpf)
    ∧ (let s := during .slice (some .slice) { demo with bitDepth := 33 }
       s.Inv ∧ s.busy = true ∧ s.stage = some .slice ∧ CfgCause s .slice) := by
  refine ⟨⟨by constructor <;> decide, rfl, rfl, ?_⟩, ⟨by constructor <;> decide, rfl, rfl, ?_⟩,
    by constructor <;> decide, rfl, rfl, ?_⟩ <;> simp only [CfgCause] <;> decide

theorem witness_RangeErrorExactlyOnItsCauses :
    (let s := during .enc (some .enc) { demo with byteLen := 5 }
     s.Inv ∧ s.busy = true ∧ s.stage = some .enc ∧ ¬CfgCause s .enc ∧ RangeCause s .enc)
    ∧ (let s := received .rect (some .rect) 161
       s.Inv ∧ s.busy = true ∧ s.stage = some .rect ∧ ¬CfgCause s .rect ∧ RangeCause s .rect)
    ∧ (let s := during .dec (some .dec) { demo with symLen := 7, payloadStart := 8 }
       s.Inv ∧ s.busy = true ∧ s.stage = some .dec ∧ ¬CfgCause s .dec ∧ RangeCause s .dec) := by
  refine ⟨⟨by constructor <;> decide, rfl, rfl, ?_, ?_⟩, ⟨received_rect_inv 161, rfl, rfl, ?_, ?_⟩,
    by constructor <;> decide, rfl, rfl, ?_, ?_⟩ <;> simp only [CfgCause, RangeCause] <;> decide

theorem witness_OverflowErrorExactlyOnItsCauses :
    (let s := during .enc (some .enc) { demo with params := { params with symMax := 39 } }
     s.Inv ∧ s.busy = true ∧ s.stage = some .enc ∧ ¬CfgCause s .enc ∧ ¬RangeCause s .enc ∧ OvfCause s .enc)
    ∧ (let s := during .slice (some .slice) { demo with period := 1, sigLen := 41 }
       s.Inv ∧ s.busy = true ∧ s.stage = some .slice
       ∧ ¬CfgCause s .slice ∧ ¬RangeCause s .slice ∧ OvfCause s .slice) := by
  refine ⟨⟨by constructor <;> decide, rfl, rfl, ?_, ?_, ?_⟩, by constructor <;> decide, rfl, rfl, ?_, ?_, ?_⟩ <;>
    simp only [CfgCause, RangeCause, OvfCause] <;> decide

theorem witness_ErrorEntryWritesNothingElse :
    let s := received .rect (some .rect) 161
    s.Inv ∧ s.busy = true ∧ Runs .rect s ∧ (result (exec .rect s)).err = true :=
  ⟨received_rect_inv 161, rfl, rfl, by decide⟩

/-- A block that has recorded E_RANGE from DEC. -/
def failed : State := { demo with err := true, errCode := some .range, errStage := some .dec }

theorem witness_StatusWriteClearsTheWrittenFlags :
    let s := queued [.write (params.base + 0x04) 0x10] failed
    s.rstAsserted = false ∧ s.busy = false ∧ s.agenda = .write (s.params.base + 0x04) 0x10 :: []
    ∧ (0x10 : Word).getLsbD 4 = true ∧ s.err = true ∧ (0x0E : Word).getLsbD 4 = false ∧ demo.err = false := by decide

theorem witness_RecordedErrorIsKeptUntilAcknowledged :
    let s := queued [.write params.base 0] failed
    s.Inv ∧ s.err = true ∧ step s = .next (result (step s)) ∧ (result (step s)).err = true :=
  ⟨by constructor <;> decide, rfl, rfl, rfl⟩

theorem witness_StatusReadsItsFields :
    (queued [.read (params.base + 0x04)] demo).agenda = .read (params.base + 0x04) :: [] := rfl

/-- The first and the last offset of the window. -/
theorem witness_WritesAreDroppedWhileBusy :
    let s (off : Nat) := queued [.write (params.base + off) 5] (during .enc (some .enc) demo)
    ((s 0).busy = true ∧ (0 : Nat) < 256 ∧ 0 % 4 = 0 ∧ (s 0).agenda = .write ((s 0).params.base + 0) 5 :: [])
    ∧ ((s 252).busy = true ∧ 252 < 256 ∧ 252 % 4 = 0
      ∧ (s 252).agenda = .write ((s 252).params.base + 252) 5 :: []) := by decide

theorem witness_ReadsWhileBusyHaveNoEffect :
    let s (off : Nat) := queued [.read (params.base + off)] (during .enc (some .enc) demo)
    (∀ off ∈ [0, 0x30, 0x34, 0x38, 0x3C, 0x54, 0x5C, 0x64, 252],
      (s off).busy = true ∧ off < 256 ∧ off % 4 = 0 ∧ (s off).agenda = .read ((s off).params.base + off) :: []) := by
  decide

/-- The last element of each buffer, and the index behind it. -/
theorem witness_DataPortWriteStoresOneElement :
    demo.Inv ∧ (received .rect (some .rect) 1).Inv ∧ demo.busy = false ∧ (received .rect (some .rect) 1).busy = true
    ∧ demo.rstAsserted = false
    ∧ (queued [.write (params.base + 0x54) 7] demo).agenda = .write (params.base + 0x54) 7 :: []
    ∧ (queued [.write (params.base + 0x5C) 7] demo).agenda = .write (params.base + 0x5C) 7 :: []
    ∧ (queued [.write (params.base + 0x64) 7] demo).agenda = .write (params.base + 0x64) 7 :: []
    ∧ (3 : Word).toNat < params.byteMax.val ∧ params.byteMax.val ≤ (4 : Word).toNat
    ∧ (39 : Word).toNat < params.symMax.val ∧ params.symMax.val ≤ (40 : Word).toNat
    ∧ (159 : Word).toNat < params.sigMax.val ∧ params.sigMax.val ≤ (160 : Word).toNat := by
  refine ⟨demo_inv, received_rect_inv 1, ?_⟩; decide

theorem witness_DataPortReadReturnsOneElement :
    let s : State := { demo with byteIdx := 3, symIdx := 39, sigIdx := 159 }
    let u : State := { demo with byteIdx := 4, symIdx := 40, sigIdx := 160 }
    (s.rstAsserted = false ∧ s.busy = false ∧ (during .enc (some .enc) demo).busy = true)
    ∧ (∀ off ∈ [0x54, 0x5C, 0x64, 0x00, 0x50, 0xFC], off < 256 ∧ off % 4 = 0
      ∧ (queued [.read (params.base + off)] s).agenda = .read (params.base + off) :: [])
    ∧ (s.byteIdx.toNat < s.params.byteMax.val ∧ s.symIdx.toNat < s.params.symMax.val
      ∧ s.sigIdx.toNat < s.params.sigMax.val)
    ∧ (u.params.byteMax.val ≤ u.byteIdx.toNat ∧ u.params.symMax.val ≤ u.symIdx.toNat
      ∧ u.params.sigMax.val ≤ u.sigIdx.toNat) := by decide

theorem witness_RegistersReadBackWhatWasWritten :
    let s (off : Nat) := queued [.write (params.base + off) 0xFFFFFFFF, .read (params.base + off)] demo
    ∀ off ∈ [0x08, 0x0C, 0x10, 0x14, 0x18, 0x1C, 0x20, 0x24, 0x28, 0x30, 0x34, 0x38, 0x3C, 0x50, 0x58, 0x60],
      (s off).rstAsserted = false ∧ (s off).busy = false
      ∧ (s off).agenda = [.write ((s off).params.base + off) 0xFFFFFFFF, .read ((s off).params.base + off)] := by
  decide

theorem witness_PlainWriteStoresOnlyItsRegister :
    let s (off : Nat) := queued [.write (params.base + off) 0xFFFFFFFF] demo
    ∀ off ∈ [0x08, 0x0C, 0x10, 0x14, 0x18, 0x1C, 0x20, 0x24, 0x28, 0x30, 0x34, 0x38, 0x3C, 0x50, 0x58, 0x60],
      (s off).rstAsserted = false ∧ (s off).busy = false
      ∧ (s off).agenda = .write ((s off).params.base + off) 0xFFFFFFFF :: [] := by decide

/-- Every offset of the clauses, the first and the last reserved one among them. -/
theorem witness_RegistersReadTheirValues :
    let s (off : Nat) := queued [.read (params.base + off)] (during .enc (some .enc) demo)
    ∀ off ∈ [0x00, 0x08, 0x0C, 0x10, 0x14, 0x18, 0x1C, 0x20, 0x24, 0x28, 0x2C, 0x30, 0x34, 0x38, 0x3C, 0x40, 0x44,
        0x48, 0x4C, 0x50, 0x58, 0x60, 0x68, 252],
      (s off).agenda = .read ((s off).params.base + off) :: [] := by decide

/-- The first and the last reserved offset, and each register of the clauses. -/
theorem witness_ReservedAndReadOnlyOffsets :
    let s (off : Nat) := queued [.read (params.base + off)] demo
    let u (off : Nat) := queued [.write (params.base + off) 5] demo
    ∀ off ∈ [0x68, 252, 0x00, 0x2C, 0x40, 0x44, 0x48, 0x4C],
      off < 256 ∧ off % 4 = 0 ∧ (s off).agenda = .read ((s off).params.base + off) :: []
      ∧ (u off).agenda = .write ((u off).params.base + off) 5 :: [] := by decide

theorem witness_AccessesTheBusCannotExpressAreRefused :
    (255 < demo.params.base ∧ demo.params.base + 256 ≤ 512 ∧ 258 % 4 ≠ 0)
    ∧ (∀ a ∈ [255, 512, 258], (queued [.read a] demo).agenda = .read a :: []
      ∧ (queued [.write a 5] demo).agenda = .write a 5 :: []) := by decide

theorem witness_EveryStepKeepsTheInvariant :
    let s := received .rect (some .rect) 1
    s.Inv ∧ step s = .next (result (step s)) := ⟨received_rect_inv 1, rfl⟩

theorem witness_OnlyInexpressibleAccessesStopTheMachine :
    (demo.Inv ∧ ∀ e ∈ demo.agenda.head?, eventExpressible demo.params e = true)
    ∧ (let s := queued [.write (params.base + 252) 0] demo
       s.Inv ∧ ∀ e ∈ s.agenda.head?, eventExpressible s.params e = true) := by
  refine ⟨⟨demo_inv, ?_⟩, by constructor <;> decide, ?_⟩ <;> decide

theorem witness_EveryCommandCompletesWithinFiveEngineSteps :
    let s := received .rx (some .rect) 128
    s.Inv ∧ s.busy = true ∧ s.agenda = [] := ⟨by constructor <;> decide, rfl, rfl⟩

/-- Each of the three ways. -/
theorem witness_SyncFlagsChangeOnlyByTheirRules :
    (let s := during .sync (some .sync) { demo with symLen := 7 }
     step s = .next (result (step s)) ∧ (result (step s)).notfound ≠ s.notfound)
    ∧ (let s := queued [.write (params.base + 0x04) 0x08] { demo with notfound := true }
       step s = .next (result (step s)) ∧ (result (step s)).notfound ≠ s.notfound)
    ∧ (let s := queued [.assertRst] { demo with found := true }
       step s = .next (result (step s)) ∧ (result (step s)).found ≠ s.found) := by
  refine ⟨⟨rfl, ?_⟩, ⟨rfl, ?_⟩, rfl, ?_⟩ <;> decide

theorem witness_StagesWriteOnlyWhatIsListed :
    let s := received .rect (some .rect) 1
    s.busy = true ∧ Runs .rect s ∧ s.stage ≠ some .dec ∧ s.stage ≠ some .enc ∧ s.stage ≠ some .slice
    ∧ s.stage ≠ some .mod ∧ s.stage ≠ some .sync
    ∧ (received .lpf (some .enc) 1).stage ≠ some .rect ∧ (received .lpf (some .enc) 1).stage ≠ some .lpf :=
  ⟨rfl, rfl, by decide⟩

theorem witness_HostCannotDisturbARunningCommand :
    let s := queued [.write params.base 0] (during .enc (some .enc) demo)
    s.busy = true ∧ s.agenda = .write params.base 0 :: []
    ∧ eventExpressible s.params (.write params.base 0) = true
    ∧ Event.write params.base 0 ≠ .engine ∧ Event.write params.base 0 ≠ .assertRst
    ∧ Event.write params.base 0 ≠ .releaseRst := by decide

theorem witness_DecRecoversWhatEncEncoded :
    let s := during .enc (some .enc) demo
    let t := result (exec .enc s)
    s.busy = true ∧ s.stage = some .enc ∧ EncReady s ∧ Runs .enc s
    ∧ Runs .dec { t with payloadStart := 8, busy := true, done := false, stage := some .dec } := by
  refine ⟨rfl, rfl, ⟨?_, ?_⟩, rfl, rfl⟩ <;> decide

theorem witness_RectIsIdempotent :
    let s := during .rect (some .rect) (withSigs [-32768, 5] demo)
    let t := result (exec .rect s)
    s.Inv ∧ s.busy = true ∧ s.stage = some .rect ∧ RectReady s ∧ Runs .rect s
    ∧ Runs .rect { t with busy := true, done := false, stage := some .rect } := by
  refine ⟨by constructor <;> decide, rfl, rfl, by unfold RectReady; decide, rfl, rfl⟩

theorem witness_LpfWithWindowOneIsTheIdentity :
    let s := during .lpf (some .lpf) (withSigs [-32768, 5] demo)
    s.Inv ∧ s.busy = true ∧ s.stage = some .lpf ∧ LpfReady s ∧ Runs .lpf s ∧ s.lpfN = 1 ∧ s.sigLen ≠ 0 := by
  refine ⟨by constructor <;> decide, rfl, rfl, by unfold LpfReady; decide, rfl, rfl, by decide⟩

theorem witness_LpfStaysInTheRangeOfItsInput :
    let s := during .lpf (some .lpf) (withSigs [-32768, 5] { demo with lpfN := 2 })
    s.Inv ∧ s.busy = true ∧ s.stage = some .lpf ∧ LpfReady s ∧ Runs .lpf s
    ∧ ∀ i, i < s.sigLen.toNat → -32768 ≤ (s.sigAt i).toInt ∧ (s.sigAt i).toInt ≤ 5 := by
  refine ⟨by constructor <;> decide, rfl, rfl, by unfold LpfReady; decide, rfl, by decide⟩

/-- Two signals that agree on the first window only, the second one with a tail past the last full window. -/
theorem witness_SliceReadsOnlyTheSymbolsOwnWindow :
    let s := during .slice (some .slice) (withSigs [1, 2, 3, 4, 5] { demo with period := 2 })
    let s' : State := { s with sigBuf := Memory.number 0 ([1, 2, 30, 40, 50].map Sample.ofInt) }
    s.busy = true ∧ s.stage = some .slice ∧ SliceReady s ∧ s' = { s with sigBuf := s'.sigBuf }
    ∧ Runs .slice s ∧ Runs .slice s' ∧ 0 < s.sigLen.toNat / s.period.toNat
    ∧ (∀ j, j < s.period.toNat → s.sigAt (0 * s.period.toNat + j) = s'.sigAt (0 * s.period.toNat + j)) := by
  refine ⟨rfl, rfl, by unfold SliceReady; decide, rfl, rfl, rfl, by decide, by decide⟩

theorem witness_SliceIsMonotone :
    let s := during .slice (some .slice) (withSigs [16384, 16385] { demo with period := 1, bitDepth := 1, thresh := 32768 })
    let s' : State := { s with sigBuf := Memory.number 0 ([16384, 20000].map Sample.ofInt), thresh := 32767 }
    s.busy = true ∧ s.stage = some .slice ∧ SliceReady s
    ∧ s' = { s with sigBuf := s'.sigBuf, thresh := s'.thresh } ∧ s'.thresh.toNat ≤ s.thresh.toNat
    ∧ (∀ i, i < s.sigLen.toNat → (s.sigAt i).toInt ≤ (s'.sigAt i).toInt)
    ∧ Runs .slice s ∧ Runs .slice s' ∧ 1 < s.sigLen.toNat / s.period.toNat
    ∧ (result (exec .slice s)).symAt 1 = true := by
  refine ⟨rfl, rfl, by unfold SliceReady; decide, rfl, by decide, by decide, rfl, rfl, by decide, by decide⟩

/-- The case where the two scans differ: the only match stands at L - 8. -/
theorem witness_ScanBoundsDifferOnlyAtTheLastPosition :
    let s := during .sync (some .sync) (withSyms [1,0,1,0,1,0,1,0] demo)
    s.busy = true ∧ s.stage = some .sync ∧ SyncReady s
    ∧ Runs .sync { s with refscan := false } ∧ Runs .sync { s with refscan := true }
    ∧ (result (exec .sync { s with refscan := false })).found = true
    ∧ (result (exec .sync { s with refscan := true })).notfound = true := by
  refine ⟨rfl, rfl, by unfold SyncReady; decide, rfl, rfl, by decide, by decide⟩

theorem witness_CarrierIsTheRoundedSine : (0 : Nat) < 44100 := by decide

theorem witness_CarrierProperties :
    ((0 : Nat) < 1 ∧ 1 < 8) ∧ (4 < 8 ∧ (2 * 4) % 8 = 0) ∧ (0 : Nat) < 3 := by decide

/-- At all three capacities at once. -/
theorem witness_RoundTripReturnsTheBytes :
    let s := demo
    s.Inv ∧ s.rstAsserted = false ∧ s.busy = false ∧ s.err = false ∧ EncReady s ∧ 1 ≤ s.sps
    ∧ (8 + 8 * s.byteLen.toNat) * s.sps ≤ s.params.sigMax.val
    ∧ s.period.toNat = s.sps ∧ s.lpfN = 1 ∧ 1 ≤ s.bitDepth.toNat ∧ s.bitDepth.toNat ≤ 32
    ∧ (∑ k ∈ Finset.range s.sps, |sinQ s.sampleRate.toNat s.carrierFreq.toNat k|) * 2 ^ s.bitDepth.toNat
        > (s.thresh.toNat : Int) * s.sps
    ∧ (s.refscan = false ∨ s.byteLen ≠ 0) := by
  refine ⟨demo_inv, rfl, rfl, rfl, ⟨?_, ?_⟩, ?_⟩ <;> decide +kernel

end Sys2Proof.Tests
end

section
/-! PROOFS. The words STATUS and IRQ_EN field by field, and the statements about reset, STATUS and `irq`. -/

namespace Sys2Proof.Machine

/-- A word that ends in a single bit. -/
theorem getLsbD_append_ofBool {n : Nat} (x : BitVec n) (b : Bool) (i : Nat) :
    (x ++ BitVec.ofBool b).getLsbD i = if i = 0 then b else x.getLsbD (i - 1) :=
  BitVec.getLsbD_concat x b i

/-- The five flags of STATUS stand at bits 0 to 4, and its fields above them (R23). -/
theorem statusWord_getLsbD (s : State) (i : Nat) :
    s.statusWord.getLsbD i
      = match i with
        | 0 => s.busy | 1 => s.done | 2 => s.found | 3 => s.notfound | 4 => s.err
        | k + 5 => ((0 : BitVec 16) ++ opcode s.op ++ stageCode s.stage ++ (0 : BitVec 3)).getLsbD k := by
  refine (getLsbD_append_ofBool (n := 16 + 4 + 4 + 3 + 1 + 1 + 1 + 1) _ _ _).trans ?_
  simp only [getLsbD_append_ofBool]
  rcases i with _ | _ | _ | _ | _ | k <;> rfl

theorem statusWord_extract_above_flags (s : State) (k n : Nat) :
    s.statusWord.extractLsb' (k + 5) n
      = ((0 : BitVec 16) ++ opcode s.op ++ stageCode s.stage ++ (0 : BitVec 3)).extractLsb' k n := by
  refine BitVec.eq_of_getLsbD_eq fun i hi => ?_
  rw [BitVec.getLsbD_extractLsb', BitVec.getLsbD_extractLsb', show k + 5 + i = k + i + 5 by omega,
    statusWord_getLsbD]

theorem statusWord_bits_7_5 (s : State) : s.statusWord.extractLsb' 5 3 = 0 := by
  rw [statusWord_extract_above_flags s 0, BitVec.extractLsb'_append_eq_right]

theorem statusWord_bits_11_8 (s : State) : s.statusWord.extractLsb' 8 4 = stageCode s.stage := by
  rw [statusWord_extract_above_flags s 3, BitVec.extractLsb'_append_eq_of_le (by omega),
    BitVec.extractLsb'_append_eq_right]

theorem statusWord_bits_15_12 (s : State) : s.statusWord.extractLsb' 12 4 = opcode s.op := by
  rw [statusWord_extract_above_flags s 7, BitVec.extractLsb'_append_eq_of_le (by omega),
    BitVec.extractLsb'_append_eq_of_le (by omega), BitVec.extractLsb'_append_eq_right]

theorem statusWord_bits_31_16 (s : State) : s.statusWord.extractLsb' 16 16 = 0 := by
  rw [statusWord_extract_above_flags s 11, BitVec.extractLsb'_append_eq_of_le (by omega),
    BitVec.extractLsb'_append_eq_of_le (by omega), BitVec.extractLsb'_append_eq_left]

/-- IRQ_EN has the three enable bits of R25 and no other. -/
theorem irqEnWord_getLsbD (s : State) (i : Nat) :
    s.irqEnWord.getLsbD i
      = if i = 1 then s.ieDone else if i = 3 then s.ieNotfound else if i = 4 then s.ieErr else false := by
  refine (BitVec.getLsbD_append (n := 27 + 1 + 1 + 1 + 1) (m := 1)).trans ?_
  simp only [BitVec.getLsbD_append, BitVec.getLsbD_ofBool]
  rcases i with _ | _ | _ | _ | _ | k <;> simp

/-- STATUS and IRQ_EN share no bit but the three pairs of R49. -/
theorem statusWord_and_irqEnWord_eq_zero_iff (s : State) :
    s.statusWord &&& s.irqEnWord = 0
      ↔ (s.done && s.ieDone) = false ∧ (s.notfound && s.ieNotfound) = false ∧ (s.err && s.ieErr) = false := by
  constructor
  · intro h
    have bit (i : Nat) : (s.statusWord.getLsbD i && s.irqEnWord.getLsbD i) = false := by
      rw [← BitVec.getLsbD_and, h]
      exact BitVec.getLsbD_zero
    have h1 := bit 1
    have h3 := bit 3
    have h4 := bit 4
    simp only [statusWord_getLsbD, irqEnWord_getLsbD] at h1 h3 h4
    exact ⟨h1, h3, h4⟩
  · rintro ⟨h1, h3, h4⟩
    refine BitVec.eq_of_getLsbD_eq fun i _ => Eq.trans ?_ BitVec.getLsbD_zero.symm
    rw [BitVec.getLsbD_and, irqEnWord_getLsbD]
    split_ifs with e1 e3 e4
    · subst e1; rw [statusWord_getLsbD]; exact h1
    · subst e3; rw [statusWord_getLsbD]; exact h3
    · subst e4; rw [statusWord_getLsbD]; exact h4
    · exact Bool.and_false _

/-- A read of STATUS gives its word and changes nothing, `rst` asserted or not (R66, R75). -/
theorem busRead_status (s : State) : busRead 0x04 s = { s with busOut := s.statusWord } := by
  unfold busRead
  split <;> rfl

/-- Settles O3: each register of the closed state is read off. -/
theorem resetLeavesEveryRegisterZero : Obligations.ResetLeavesEveryRegisterZero := by
  unfold Obligations.ResetLeavesEveryRegisterZero
  decide

/-- Settles O30: the read is `busRead_status`, and the word has its fields at their places. -/
theorem statusReadsItsFields : Obligations.StatusReadsItsFields := by
  intro s rest hagenda
  refine ⟨{ s with agenda := rest, busOut := s.statusWord }, ?_, rfl, ?_⟩
  · rw [step_read s 0x04 rest (by omega) (by omega) hagenda, busRead_status]
    rfl
  · exact ⟨statusWord_getLsbD s 0, statusWord_getLsbD s 1, statusWord_getLsbD s 2, statusWord_getLsbD s 3,
      statusWord_getLsbD s 4, statusWord_bits_7_5 s, statusWord_bits_11_8 s, statusWord_bits_15_12 s,
      statusWord_bits_31_16 s⟩

/-- Settles O40: the wire is 0 exactly where the two words have no common bit. -/
theorem irqIsAnEnabledStatusFlag : Obligations.IrqIsAnEnabledStatusFlag := by
  intro s
  have hirq : s.irq = false ↔ s.statusWord &&& s.irqEnWord = 0 := by
    rw [statusWord_and_irqEnWord_eq_zero_iff, State.irq, Bool.or_eq_false_iff, Bool.or_eq_false_iff, and_assoc]
  rw [Bool.eq_iff_iff, decide_eq_true_iff, ne_eq, ← hirq, Bool.not_eq_false]

end Sys2Proof.Machine
end

section
/-! PROOFS. What one step of the block can do, once, whatever the schedule; and what no step changes. -/

namespace Sys2Proof.Machine

/-- From `s`, its next schedule entry taken off, one step leads to `t`: every way, with its guard. A dropped
access and a turn without a step are `stay`. -/
inductive Transition : State → State → Prop
  | stay (s : State) : Transition s s
  | engine {s t : State} (hbusy : s.busy = true) (h : engineStep s.op s = .next t) : Transition s t
  | assertRst (s : State) : Transition s (assertReset s)
  | releaseRst (s : State) : Transition s (releaseReset s)
  | read (off : Nat) (s : State) : Transition s (busRead off s)
  | accept (i : Instr) {s : State} (hrst : s.rstAsserted = false) (hidle : s.busy = false)
      (hclean : s.err = false) : Transition s (acceptCommand i s)
  | illegalCommand {s : State} (hrst : s.rstAsserted = false) (hidle : s.busy = false)
      (hclean : s.err = false) : Transition s (commandErrorEntry s)
  | write (r : Reg) (w : Word) {s : State} (hrst : s.rstAsserted = false) (hidle : s.busy = false) :
      Transition s (writeReg r w s)

theorem transition_of_engineTurn {s t : State} (h : engineTurn s = .next t) : Transition s t := by
  unfold engineTurn at h
  split at h
  case isTrue hbusy =>
    rw [exec_busy _ _ hbusy] at h
    exact .engine hbusy h
  case isFalse =>
    cases h
    exact .stay s

theorem transition_of_writeCommand {s t : State} {w : Word} (hrst : s.rstAsserted = false)
    (h : writeCommand w s = .next t) : Transition s t := by
  rcases writeCommand_cases w s with
    ⟨-, e⟩ | ⟨-, -, e⟩ | ⟨hidle, hclean, -, e⟩ | ⟨hidle, hclean, i, -, e⟩ <;> cases e.symm.trans h
  · exact .stay s
  · exact .stay s
  · exact .illegalCommand hrst hidle hclean
  · exact .accept i hrst hidle hclean

theorem transition_hostWrite (off : Nat) (w : Word) (s : State) (hrst : s.rstAsserted = false) :
    Transition s (hostWrite off w s) := by
  unfold hostWrite
  split
  case isTrue => exact .stay s
  case isFalse hidle =>
    split
    · exact .stay s
    · exact .write _ w hrst (Bool.eq_false_iff.2 hidle)

theorem transition_of_busWrite {s t : State} {off : Nat} {w : Word} (h : busWrite off w s = .next t) :
    Transition s t := by
  rcases busWrite_cases off w s with ⟨-, e⟩ | ⟨hrst, -, e⟩ | ⟨hrst, -, e⟩
  · cases e.symm.trans h
    exact .stay s
  · exact transition_of_writeCommand hrst (e.symm.trans h)
  · cases e.symm.trans h
    exact transition_hostWrite off w s hrst

theorem transition_of_eventStep {s t : State} {e : Event} (h : eventStep e s = .next t) :
    Transition s t := by
  cases e with
  | engine => exact transition_of_engineTurn h
  | assertRst => cases h; exact .assertRst s
  | releaseRst => cases h; exact .releaseRst s
  | read a =>
    simp only [eventStep] at h
    split at h <;> cases h
    exact .read _ s
  | write a w =>
    simp only [eventStep] at h
    split at h
    · cases h
    · exact transition_of_busWrite h

/-- Every step takes the next entry off the schedule and is one of the transitions. -/
theorem transition_of_step {s t : State} (h : step s = .next t) :
    Transition { s with agenda := s.agenda.tail } t := by
  cases hagenda : s.agenda with
  | nil =>
    have hs : ({ s with agenda := [] } : State) = s := by rw [← hagenda]
    rw [List.tail_nil, hs]
    exact transition_of_engineTurn ((step_nil s hagenda).symm.trans h)
  | cons e rest => exact transition_of_eventStep ((step_cons s e rest hagenda).symm.trans h)

/-! ### What no step changes -/

/-- A register write leaves the parameters and `rst`. -/
theorem writeReg_inputs (r : Reg) (w : Word) (s : State) :
    (writeReg r w s).params = s.params ∧ (writeReg r w s).rstAsserted = s.rstAsserted := by
  cases r with
  | status => simp only [writeReg, writeStatus]; split <;> exact ⟨rfl, rfl⟩
  | byteData => simp only [writeReg, writeByteData]; split <;> exact ⟨rfl, rfl⟩
  | symData => simp only [writeReg, writeSymData]; split <;> exact ⟨rfl, rfl⟩
  | sigData => simp only [writeReg, writeSigData]; split <;> exact ⟨rfl, rfl⟩
  | _ => exact ⟨rfl, rfl⟩

/-- An ENGINE step leaves the parameters and `rst`. -/
theorem engineStep_inputs {i : Instr} {s t : State} (h : engineStep i s = .next t) :
    t.params = s.params ∧ t.rstAsserted = s.rstAsserted := by
  rcases engineStep_cases i s with ⟨-, e⟩ | ⟨st, -, ⟨c, -, e⟩ | ⟨u, hu, ⟨-, e⟩ | ⟨st', -, e⟩ | ⟨-, e⟩⟩⟩ <;>
    cases e.symm.trans h
  · exact ⟨rfl, rfl⟩
  · exact ⟨rfl, rfl⟩
  all_goals
    rw [runStage_frame st s u hu]
    exact ⟨rfl, rfl⟩

theorem transition_params {s t : State} (h : Transition s t) : t.params = s.params := by
  cases h with
  | engine _ h => exact (engineStep_inputs h).1
  | read off => rw [busRead_frame]
  | write r w => exact (writeReg_inputs r w s).1
  | _ => rfl

/-- No step changes the parameters (R6). -/
theorem step_params {s t : State} (h : step s = .next t) : t.params = s.params :=
  transition_params (s := { s with agenda := s.agenda.tail }) (transition_of_step h)

end Sys2Proof.Machine
end

section
/-! PROOFS. The invariant of R52 and R45, in two parts that the operations keep separately: the flags with the
sequencer, and the buffers. The rest of it, the reset state under `rst`, is settled where `rst` is released. -/

namespace Sys2Proof.Machine

/-! ### The two parts -/

/-- R52 (a) to (d), with the sequencer on its table (R196). -/
def State.FlagsSound (s : State) : Prop :=
  ¬(s.found = true ∧ s.notfound = true)
  ∧ (s.busy = true → s.done = false ∧ s.err = false)
  ∧ (s.busy = false → s.stage = none)
  ∧ (s.err = false → s.errCode = none ∧ s.errStage = none)
  ∧ (s.err = true → s.errCode ≠ none)
  ∧ (s.busy = true → sequencerOnTable s.op s.stage = true)

/-- A buffer in canonical form, below its capacity (log 7, R60). -/
def BufferSound {α : Type} (m : List (Nat × α)) (cap : Nat) : Prop := Memory.wf m ∧ Memory.below m cap

/-- All three buffers are sound, and SIG holds legal samples only (R45). -/
def State.BuffersSound (s : State) : Prop :=
  BufferSound s.byteBuf s.params.byteMax.val ∧ BufferSound s.symBuf s.params.symMax.val
  ∧ BufferSound s.sigBuf s.params.sigMax.val ∧ samplesInRange s.sigBuf

theorem inv_iff (s : State) :
    s.Inv ↔ s.FlagsSound ∧ s.BuffersSound ∧ (s.rstAsserted = true → s = resetOf s) := by
  constructor
  · rintro ⟨hflags, hbusy, hidle, hclean, hcode, htable, hrange, hb, hy, hg, hb', hy', hg', hheld⟩
    exact ⟨⟨hflags, hbusy, hidle, hclean, hcode, htable⟩, ⟨⟨hb, hb'⟩, ⟨hy, hy'⟩, ⟨hg, hg'⟩, hrange⟩, hheld⟩
  · rintro ⟨⟨hflags, hbusy, hidle, hclean, hcode, htable⟩, ⟨⟨hb, hb'⟩, ⟨hy, hy'⟩, ⟨hg, hg'⟩, hrange⟩, hheld⟩
    exact ⟨hflags, hbusy, hidle, hclean, hcode, htable, hrange, hb, hy, hg, hb', hy', hg', hheld⟩

theorem inv_of_released {s : State} (hf : s.FlagsSound) (hb : s.BuffersSound) (hrst : s.rstAsserted = false) :
    s.Inv :=
  (inv_iff s).2 ⟨hf, hb, fun h => by simp [hrst] at h⟩

/-! ### The buffers -/

theorem bufferSound_nil {α : Type} (cap : Nat) : BufferSound ([] : List (Nat × α)) cap := ⟨.nil, nofun⟩

theorem bufferSound_write {α : Type} {m : List (Nat × α)} {cap i : Nat} (v : α) (h : BufferSound m cap)
    (hi : i < cap) : BufferSound (Memory.write m i v) cap :=
  ⟨wf_write m i v h.1, below_write m i cap v h.2 hi⟩

theorem bufferSound_replacePrefix {α : Type} {m : List (Nat × α)} {cap : Nat} {vs : List α}
    (h : BufferSound m cap) (hv : vs.length ≤ cap) : BufferSound (Memory.replacePrefix m vs) cap :=
  ⟨wf_replacePrefix m vs h.1, below_replacePrefix m vs cap h.2 hv⟩

/-- A sample that the host writes keeps the legal range (R45, R72). -/
theorem samplesInRange_write {m : List (Nat × Sample)} (i : Nat) (w : Word) (h : samplesInRange m) :
    samplesInRange (Memory.write m i (toSample w)) := fun c hc => by
  rcases mem_write hc with rfl | hc
  · exact toSample_inRange w
  · exact h c hc

/-! ### The flags and the sequencer -/

theorem flagsSound_finish {s : State} (h : s.FlagsSound) : (finish s).FlagsSound := by
  obtain ⟨hflags, -, -, hclean, hcode, -⟩ := h
  exact ⟨hflags, nofun, fun _ => rfl, hclean, hcode, nofun⟩

theorem flagsSound_errorEntry (c : ErrCode) (st : Stage) {s : State} (h : s.FlagsSound) :
    (errorEntry c st s).FlagsSound :=
  ⟨h.1, nofun, fun _ => rfl, nofun, nofun, nofun⟩

/-- The sequencer goes on to another stage of its command (R196, R197). -/
theorem flagsSound_next_stage {s : State} {st : Stage} (h : s.FlagsSound) (hbusy : s.busy = true)
    (htable : sequencerOnTable s.op (some st) = true) : ({ s with stage := some st } : State).FlagsSound := by
  obtain ⟨hflags, hrun, -, hclean, hcode, -⟩ := h
  exact ⟨hflags, hrun, fun hidle => by simp [hbusy] at hidle, hclean, hcode, fun _ => htable⟩

theorem flagsSound_acceptCommand (i : Instr) {s : State} (h : s.FlagsSound) (he : s.err = false) :
    (acceptCommand i s).FlagsSound := by
  obtain ⟨hflags, -, -, hclean, hcode, -⟩ := h
  exact ⟨hflags, fun _ => ⟨rfl, he⟩, nofun, hclean, hcode, fun _ => sequencerOnTable_firstStage i⟩

theorem flagsSound_commandErrorEntry {s : State} (h : s.FlagsSound) (hidle : s.busy = false) :
    (commandErrorEntry s).FlagsSound := by
  obtain ⟨hflags, -, hstage, -, -, -⟩ := h
  exact ⟨hflags, fun hb => by simp [hidle] at hb, hstage, nofun, nofun, fun hb => by simp [hidle] at hb⟩

theorem flagsSound_errorReturn {s : State} (h : s.FlagsSound) : (errorReturn s).FlagsSound := by
  obtain ⟨hflags, hrun, hstage, -, -, htable⟩ := h
  exact ⟨hflags, fun hb => ⟨(hrun hb).1, rfl⟩, hstage, fun _ => ⟨rfl, rfl⟩, nofun, htable⟩

/-- Flags that a write clears stay sound (R23). -/
theorem flagsSound_writeStatus (w : Word) {s : State} (h : s.FlagsSound) : (writeStatus w s).FlagsSound := by
  obtain ⟨hflags, hrun, hstage, hclean, hcode, htable⟩ := h
  have hcleared : ({ s with
      done := s.done && !w.getLsbD 1
      found := s.found && !w.getLsbD 2
      notfound := s.notfound && !w.getLsbD 3 } : State).FlagsSound := by
    refine ⟨fun hboth => hflags ?_, fun hb => ?_, hstage, hclean, hcode, htable⟩
    · simp only [Bool.and_eq_true] at hboth
      exact ⟨hboth.1.1, hboth.2.1⟩
    · exact ⟨by simp [(hrun hb).1], (hrun hb).2⟩
  unfold writeStatus
  split
  · exact flagsSound_errorReturn hcleared
  · exact hcleared

/-! ### Register writes -/

theorem buffersSound_writeStatus (w : Word) {s : State} (h : s.BuffersSound) :
    (writeStatus w s).BuffersSound := by
  unfold writeStatus
  split <;> exact h

/-- Only STATUS writes a flag, and only the DATA ports write a buffer, below its capacity (R67, R70). -/
theorem sound_writeReg (r : Reg) (w : Word) {s : State} (hf : s.FlagsSound) (hb : s.BuffersSound) :
    (writeReg r w s).FlagsSound ∧ (writeReg r w s).BuffersSound := by
  have ⟨hbyte, hsym, hsig, hrange⟩ := hb
  cases r with
  | status => exact ⟨flagsSound_writeStatus w hf, buffersSound_writeStatus w hb⟩
  | byteData =>
    simp only [writeReg, writeByteData]
    split
    next hlt => exact ⟨hf, bufferSound_write _ hbyte hlt, hsym, hsig, hrange⟩
    next => exact ⟨hf, hb⟩
  | symData =>
    simp only [writeReg, writeSymData]
    split
    next hlt => exact ⟨hf, hbyte, bufferSound_write _ hsym hlt, hsig, hrange⟩
    next => exact ⟨hf, hb⟩
  | sigData =>
    simp only [writeReg, writeSigData]
    split
    next hlt => exact ⟨hf, hbyte, hsym, bufferSound_write _ hsig hlt, samplesInRange_write _ w hrange⟩
    next => exact ⟨hf, hb⟩
  | _ => exact ⟨hf, hb⟩

/-! ### The stages -/

/-- The `require` block of a stage. -/
def StageReady (st : Stage) (s : State) : Prop :=
  match st with
  | .enc => EncReady s
  | .mod => ModReady s
  | .rect => RectReady s
  | .lpf => LpfReady s
  | .slice => SliceReady s
  | .sync => SyncReady s
  | .dec => DecReady s

/-- A stage that raises no error had all that it requires. -/
theorem stageReady_of_runStage_ok {st : Stage} {s t : State} (hrange : samplesInRange s.sigBuf)
    (h : runStage st s = .ok t) : StageReady st s := by
  cases st with
  | enc =>
    rcases stageEnc_cases s with ⟨-, e⟩ | ⟨-, -, e⟩ | ⟨hr, -⟩
      <;> [cases e.symm.trans h; cases e.symm.trans h; exact hr]
  | mod =>
    rcases stageMod_cases s with ⟨-, e⟩ | ⟨-, -, e⟩ | ⟨-, -, -, e⟩ | ⟨hr, -⟩
      <;> [cases e.symm.trans h; cases e.symm.trans h; cases e.symm.trans h; exact hr]
  | rect =>
    rcases stageRect_cases s hrange with ⟨-, e⟩ | ⟨hr, -⟩ <;> [cases e.symm.trans h; exact hr]
  | lpf =>
    rcases stageLpf_cases s hrange with ⟨-, e⟩ | ⟨-, -, e⟩ | ⟨hr, -⟩
      <;> [cases e.symm.trans h; cases e.symm.trans h; exact hr]
  | slice =>
    rcases stageSlice_cases s with ⟨-, e⟩ | ⟨-, -, -, e⟩ | ⟨-, -, -, -, e⟩ | ⟨hr, -⟩
      <;> [cases e.symm.trans h; cases e.symm.trans h; cases e.symm.trans h; exact hr]
  | sync =>
    rcases stageSync_cases s with ⟨-, e⟩ | ⟨hr, -⟩ <;> [cases e.symm.trans h; exact hr]
  | dec =>
    rcases stageDec_cases s with ⟨-, e⟩ | ⟨-, -, -, e⟩ | ⟨hr, -⟩
      <;> [cases e.symm.trans h; cases e.symm.trans h; exact hr]

/-- SYNC writes FOUND and NOTFOUND, never both 1 (R179), and no buffer. -/
theorem sound_syncResult {s : State} (hf : s.FlagsSound) (hb : s.BuffersSound) :
    (syncResult s).FlagsSound ∧ (syncResult s).BuffersSound := by
  obtain ⟨-, hrest⟩ := hf
  unfold syncResult
  split
  · exact ⟨⟨by simp [setSyncFlags], hrest⟩, hb⟩
  · exact ⟨⟨by simp [setSyncFlags], hrest⟩, hb⟩

/-- A stage's result fits its buffer, is legal, and leaves the flags sound. -/
theorem sound_runStage {st : Stage} {s t : State} (hf : s.FlagsSound) (hb : s.BuffersSound)
    (h : runStage st s = .ok t) : t.FlagsSound ∧ t.BuffersSound := by
  have ⟨hbyte, hsym, hsig, hrange⟩ := hb
  have hready := stageReady_of_runStage_ok hrange h
  cases st with
  | enc =>
    cases (stageEnc_of_ready s hready).symm.trans h
    obtain ⟨-, hfit⟩ := hready
    exact ⟨hf, hbyte, bufferSound_replacePrefix hsym (by simpa using hfit), hsig, hrange⟩
  | mod =>
    cases (stageMod_of_ready s hready).symm.trans h
    obtain ⟨-, -, hfit⟩ := hready
    exact ⟨hf, hbyte, hsym, bufferSound_replacePrefix hsig (by simpa using hfit),
      samplesInRange_modulate s _ _ _ _ hrange⟩
  | rect =>
    cases (stageRect_of_ready s hready).symm.trans h
    have hfit : s.sigLen.toNat ≤ s.params.sigMax.val := hready
    exact ⟨hf, hbyte, hsym, bufferSound_replacePrefix hsig (by simpa [rectify] using hfit),
      samplesInRange_rectify s _ hrange⟩
  | lpf =>
    cases (stageLpf_of_ready s hready).symm.trans h
    obtain ⟨hwindow, hfit⟩ := hready
    exact ⟨hf, hbyte, hsym, bufferSound_replacePrefix hsig (by simpa using hfit),
      samplesInRange_lowPass s _ _ hwindow hrange⟩
  | slice =>
    cases (stageSlice_of_ready s hready).symm.trans h
    obtain ⟨-, -, -, hfit⟩ := hready
    exact ⟨hf, hbyte, bufferSound_replacePrefix hsym (by simpa using hfit), hsig, hrange⟩
  | sync =>
    cases (stageSync_of_ready s hready).symm.trans h
    exact sound_syncResult hf hb
  | dec =>
    cases (stageDec_of_ready s hready).symm.trans h
    obtain ⟨-, -, hfit⟩ := hready
    exact ⟨hf, bufferSound_replacePrefix hbyte (by simpa using hfit), hsym, hsig, hrange⟩

/-! ### The invariant under each transition -/

/-- The reset state has the invariant (R50, R52). -/
theorem inv_resetOf (s : State) : (resetOf s).Inv := by
  have hflags : (resetOf s).FlagsSound := ⟨nofun, nofun, fun _ => rfl, fun _ => ⟨rfl, rfl⟩, nofun, nofun⟩
  exact (inv_iff _).2 ⟨hflags, ⟨bufferSound_nil _, bufferSound_nil _, bufferSound_nil _, nofun⟩, fun _ => rfl⟩

theorem inv_assertReset (s : State) : (assertReset s).Inv := inv_resetOf (assertReset s)

theorem inv_releaseReset {s : State} (hi : s.Inv) : (releaseReset s).Inv := by
  obtain ⟨hf, hb, -⟩ := (inv_iff s).1 hi
  exact inv_of_released hf hb rfl

/-- A read moves an index at most, and none while `rst` is asserted (R71, R245). -/
theorem inv_busRead (off : Nat) {s : State} (hi : s.Inv) : (busRead off s).Inv := by
  obtain ⟨hf, hb, hheld⟩ := (inv_iff s).1 hi
  cases hrst : s.rstAsserted with
  | true =>
    rw [busRead_held off s hrst]
    exact (inv_iff _).2 ⟨hf, hb, fun _ =>
      congrArg (fun u : State => { u with busOut := (hostRead off s).busOut }) (hheld hrst)⟩
  | false =>
    rw [busRead_frame]
    exact inv_of_released hf hb hrst

/-- An ENGINE step: the end, an error, or a stage's result with what follows it (R197). -/
theorem inv_engineStep {s t : State} (hi : s.Inv) (hbusy : s.busy = true)
    (h : engineStep s.op s = .next t) : t.Inv := by
  obtain ⟨hf, hb, -⟩ := (inv_iff s).1 hi
  have hrst : t.rstAsserted = false :=
    (engineStep_inputs h).2.trans (not_held_of_busy_or_err s hi (.inl hbusy))
  rcases engineStep_cases s.op s with
    ⟨-, e⟩ | ⟨st, -, ⟨c, -, e⟩ | ⟨u, hu, ⟨-, e⟩ | ⟨st', hnext, e⟩ | ⟨-, e⟩⟩⟩ <;> cases e.symm.trans h
  · exact inv_of_released (flagsSound_finish hf) hb hrst
  · exact inv_of_released (flagsSound_errorEntry c st hf) hb hrst
  · obtain ⟨hfu, hbu⟩ := sound_runStage hf hb hu
    exact inv_of_released (flagsSound_finish hfu) hbu hrst
  · obtain ⟨hfu, hbu⟩ := sound_runStage hf hb hu
    have hsame : u.busy = s.busy ∧ u.op = s.op := by
      rw [runStage_frame st s u hu]
      exact ⟨rfl, rfl⟩
    have htable : sequencerOnTable u.op (some st') = true := by
      rw [hsame.2]
      exact sequencerOnTable_of_nextStage s.op st st' u.found hnext
    exact inv_of_released (flagsSound_next_stage hfu (hsame.1.trans hbusy) htable) hbu hrst

theorem inv_of_transition {s t : State} (hi : s.Inv) (h : Transition s t) : t.Inv := by
  obtain ⟨hf, hb, -⟩ := (inv_iff s).1 hi
  cases h with
  | stay => exact hi
  | engine hbusy h => exact inv_engineStep hi hbusy h
  | assertRst => exact inv_assertReset s
  | releaseRst => exact inv_releaseReset hi
  | read off => exact inv_busRead off hi
  | accept i hrst _ hclean => exact inv_of_released (flagsSound_acceptCommand i hf hclean) hb hrst
  | illegalCommand hrst hidle _ => exact inv_of_released (flagsSound_commandErrorEntry hf hidle) hb hrst
  | write r w hrst _ =>
    obtain ⟨hf', hb'⟩ := sound_writeReg r w hf hb
    exact inv_of_released hf' hb' ((writeReg_inputs r w s).2.trans hrst)

/-- Every step keeps the invariant. -/
theorem step_inv {s t : State} (hi : s.Inv) (h : step s = .next t) : t.Inv :=
  inv_of_transition (inv_agenda s _ hi) (transition_of_step h)

/-- Settles O41: `State.reset` is its own reset state. -/
theorem invariantHoldsAfterReset : Obligations.InvariantHoldsAfterReset := inv_resetOf State.reset

/-- Settles O42, over the transitions that a step can be. -/
theorem everyStepKeepsTheInvariant : Obligations.EveryStepKeepsTheInvariant :=
  fun _ _ hi h => ⟨step_inv hi h, step_params h⟩

end Sys2Proof.Machine
end

section
/-! PROOFS. What a host read of a register gives, and the statements about reads of the registers. -/

namespace Sys2Proof.Machine

/-! ### The word at an offset -/

/-- The offsets of BYTE_DATA, SYM_DATA and SIG_DATA (R67). -/
abbrev IsDataPort (off : Nat) : Prop := off = 0x54 ∨ off = 0x5C ∨ off = 0x64

/-- The word that a read without a side effect gives: the register's value, 0 where no register stands (R68). -/
def State.wordAt (s : State) (off : Nat) : Word :=
  match regAt off with
  | none => 0
  | some r => s.regValue r

theorem wordAt_reserved (s : State) {off : Nat} (h : 0x68 ≤ off) : s.wordAt off = 0 := by
  rw [State.wordAt, regAt_reserved off h]

theorem wordAt_agenda (s : State) (rest : List Event) (off : Nat) :
    ({ s with agenda := rest } : State).wordAt off = s.wordAt off := rfl

theorem isDataPort_of_regAt {off : Nat} {r : Reg} (h : regAt off = some r)
    (hr : r = .byteData ∨ r = .symData ∨ r = .sigData) : IsDataPort off := by
  unfold regAt at h
  split at h <;> cases h <;> simp at hr <;> decide

/-! ### Reads without a side effect -/

/-- A read of BYTE_DATA that the port does not serve (R71). -/
theorem readByteData_blocked {s : State} (h : s.busy = true ∨ s.params.byteMax.val ≤ s.byteIdx.toNat) :
    readByteData s = { s with busOut := 0 } := by
  rw [readByteData, if_neg (by simpa [imp_iff_not_or] using h)]

theorem readSymData_blocked {s : State} (h : s.busy = true ∨ s.params.symMax.val ≤ s.symIdx.toNat) :
    readSymData s = { s with busOut := 0 } := by
  rw [readSymData, if_neg (by simpa [imp_iff_not_or] using h)]

theorem readSigData_blocked {s : State} (h : s.busy = true ∨ s.params.sigMax.val ≤ s.sigIdx.toNat) :
    readSigData s = { s with busOut := 0 } := by
  rw [readSigData, if_neg (by simpa [imp_iff_not_or] using h)]

/-- Away from the DATA ports, and everywhere while BUSY = 1, a read has no side effect (R71, R74, R75). -/
theorem hostRead_eq_wordAt {off : Nat} {s : State} (h : ¬IsDataPort off ∨ s.busy = true) :
    hostRead off s = { s with busOut := s.wordAt off } := by
  have busy_of_port {r : Reg} (hreg : regAt off = some r)
      (hr : r = .byteData ∨ r = .symData ∨ r = .sigData) : s.busy = true :=
    h.resolve_left (not_not_intro (isDataPort_of_regAt hreg hr))
  unfold hostRead State.wordAt
  cases hreg : regAt off with
  | none => rfl
  | some r =>
    cases r with
    | byteData => exact readByteData_blocked (.inl (busy_of_port hreg (by simp)))
    | symData => exact readSymData_blocked (.inl (busy_of_port hreg (by simp)))
    | sigData => exact readSigData_blocked (.inl (busy_of_port hreg (by simp)))
    | _ => rfl

/-- The same for the bus, `rst` asserted or not (R245). -/
theorem busRead_eq_wordAt {off : Nat} {s : State} (h : ¬IsDataPort off ∨ s.busy = true) :
    busRead off s = { s with busOut := s.wordAt off } := by
  unfold busRead
  rw [hostRead_eq_wordAt h]
  split <;> rfl

/-- A read without a side effect gives the word at its offset. -/
theorem readsAs_wordAt (s : State) {off : Nat} (hlt : off < 256) (h4 : off % 4 = 0)
    (h : ¬IsDataPort off ∨ s.busy = true) : ReadsAs s off (s.wordAt off) := by
  intro rest hagenda
  have hread := busRead_eq_wordAt (s := { s with agenda := rest }) h
  rw [step_read s off rest hlt h4 hagenda, hread, wordAt_agenda]

/-- A register that is no DATA port is read without a side effect, at any time. -/
theorem readsAs_plain (s : State) (off : Nat) (h : off < 256 ∧ off % 4 = 0 ∧ ¬IsDataPort off := by decide) :
    ReadsAs s off (s.wordAt off) :=
  readsAs_wordAt s h.1 h.2.1 (.inl h.2.2)

/-! ### The computed words -/

theorem ctrlWord_eq (s : State) : s.ctrlWord = if s.refscan then 1 else 0 := by
  have word : ∀ b : Bool, (0 : BitVec 31) ++ BitVec.ofBool b = if b then 1 else 0 := by decide
  exact word s.refscan

theorem irqEnWord_eq (s : State) :
    s.irqEnWord
      = (if s.ieDone then 0x02 else 0) + (if s.ieNotfound then 0x08 else 0) + (if s.ieErr then 0x10 else 0) := by
  have word : ∀ d n e : Bool,
      (0 : BitVec 27) ++ BitVec.ofBool e ++ BitVec.ofBool n ++ (0 : BitVec 1) ++ BitVec.ofBool d ++ (0 : BitVec 1)
        = (if d then 0x02 else 0) + (if n then 0x08 else 0) + (if e then 0x10 else 0) := by decide
  exact word s.ieDone s.ieNotfound s.ieErr

/-- The fields of ERR_INFO, CODE in the low byte (R38). -/
theorem errInfoWord_eq (s : State) :
    s.errInfoWord = BitVec.ofNat 32 (256 * (stageCode s.errStage).toNat + (errorCode s.errCode).toNat) := by
  have hstage := (stageCode s.errStage).isLt
  have hcode := (errorCode s.errCode).isLt
  apply BitVec.eq_of_toNat_eq
  rw [State.errInfoWord, BitVec.toNat_append, BitVec.toNat_append, ← Nat.shiftLeft_add_eq_or_of_lt hcode,
    Nat.shiftLeft_eq, BitVec.toNat_ofNat]
  simp
  omega

/-- SPS is the truncated quotient, 0 for BAUD_RATE = 0 (R33). -/
theorem sps_eq (s : State) :
    s.sps = if s.baudRate = 0 then 0 else s.sampleRate.toNat / s.baudRate.toNat := by
  have hzero : s.baudRate.toNat = 0 ↔ s.baudRate = 0 := (BitVec.toNat_eq (y := 0#32)).symm
  simp only [State.sps, samplesPerSymbol, hzero]

theorem sps_lt (s : State) : s.sps < 4294967296 := by
  have hle : s.sampleRate.toNat / s.baudRate.toNat ≤ s.sampleRate.toNat := Nat.div_le_self _ _
  have hlt := s.sampleRate.isLt
  rw [sps_eq]
  split <;> omega

/-- SPS fits its register. -/
theorem toNat_spsWord (s : State) : (BitVec.ofNat 32 s.sps).toNat = s.sps :=
  Nat.mod_eq_of_lt (sps_lt s)

/-- A capacity fits its register (R6, R39). -/
theorem toNat_capacityWord (cap : Fin 4294967295) : (BitVec.ofNat 32 cap.val).toNat = cap.val :=
  Nat.mod_eq_of_lt (by omega)

/-! ### The statements -/

/-- Settles O37: away from the DATA ports a read gives the word at its offset, and the computed words are known. -/
theorem registersReadTheirValues : Obligations.RegistersReadTheirValues := by
  intro s
  have hctrl : ReadsAs s 0x08 s.ctrlWord := readsAs_plain s 0x08
  have hirqEn : ReadsAs s 0x0C s.irqEnWord := readsAs_plain s 0x0C
  have hsps : ReadsAs s 0x2C (BitVec.ofNat 32 s.sps) := readsAs_plain s 0x2C
  have herrInfo : ReadsAs s 0x40 s.errInfoWord := readsAs_plain s 0x40
  rw [ctrlWord_eq] at hctrl
  rw [irqEnWord_eq] at hirqEn
  rw [sps_eq, apply_ite (BitVec.ofNat 32)] at hsps
  rw [errInfoWord_eq] at herrInfo
  refine ⟨readsAs_plain s 0x00, hctrl, hirqEn, readsAs_plain s 0x10, readsAs_plain s 0x14, readsAs_plain s 0x18,
    readsAs_plain s 0x1C, readsAs_plain s 0x20, readsAs_plain s 0x24, readsAs_plain s 0x28, hsps,
    readsAs_plain s 0x30, readsAs_plain s 0x34, readsAs_plain s 0x38, readsAs_plain s 0x3C, herrInfo,
    readsAs_plain s 0x44, readsAs_plain s 0x48, readsAs_plain s 0x4C, readsAs_plain s 0x50, readsAs_plain s 0x58,
    readsAs_plain s 0x60, fun off hlo hlt h4 => ?_⟩
  exact wordAt_reserved s hlo ▸ readsAs_plain s off ⟨hlt, h4, by unfold IsDataPort; omega⟩

/-- Settles O32: while BUSY = 1 every offset is read without a side effect. -/
theorem readsWhileBusyHaveNoEffect : Obligations.ReadsWhileBusyHaveNoEffect := by
  intro s off rest hbusy hlt h4 hagenda
  refine ⟨_, readsAs_wordAt s hlt h4 (.inr hbusy) rest hagenda, rfl, ?_, ?_, ?_, ?_, ?_⟩
  · rintro (rfl | rfl | rfl) <;> rfl
  all_goals
    rintro rfl
    rfl

end Sys2Proof.Machine
end

section
/-! PROOFS. What a host write of a register does, and the statements about plain, reserved and read-only registers. -/

namespace Sys2Proof.Machine

/-! ### A host write -/

/-- While BUSY = 1 every write is dropped, CMD among them (R73, R195). -/
theorem busWrite_busy (off : Nat) (w : Word) (s : State) (h : s.busy = true) : busWrite off w s = .next s := by
  rcases busWrite_cases off w s with ⟨-, e⟩ | ⟨-, -, e⟩ | ⟨-, -, e⟩
  · exact e
  · rcases writeCommand_cases w s with ⟨-, e'⟩ | ⟨hidle, -⟩ | ⟨hidle, -⟩ | ⟨hidle, -⟩
    · exact e.trans e'
    all_goals simp [h] at hidle
  · rw [e, hostWrite_busy off w s h]

theorem hostWrite_reserved {off : Nat} (w : Word) (s : State) (h : 0x68 ≤ off) : hostWrite off w s = s := by
  rw [hostWrite, regAt_reserved off h]
  split <;> rfl

theorem hostWrite_reg {off : Nat} {r : Reg} (w : Word) (s : State) (hreg : regAt off = some r)
    (hidle : s.busy = false) : hostWrite off w s = writeReg r w s := by
  rw [hostWrite, hreg, if_neg (by simp [hidle])]

/-- A step at a write of a register other than CMD: dropped while `rst` is asserted or BUSY = 1, else taken. -/
theorem step_write_cases {s : State} {off : Nat} {w : Word} {rest : List Event} (hlt : off < 256)
    (h4 : off % 4 = 0) (hcmd : off ≠ 0) (hagenda : s.agenda = .write (s.params.base + off) w :: rest) :
    ((s.rstAsserted = true ∨ s.busy = true) ∧ step s = .next { s with agenda := rest })
    ∨ (s.rstAsserted = false ∧ s.busy = false
        ∧ step s = .next (hostWrite off w { s with agenda := rest })) := by
  rw [step_write s off w rest hlt h4 hagenda]
  rcases busWrite_cases off w { s with agenda := rest } with ⟨hrst, e⟩ | ⟨-, hzero, -⟩ | ⟨hrst, -, e⟩
  · exact .inl ⟨.inl hrst, e⟩
  · exact absurd hzero hcmd
  · by_cases hbusy : s.busy = true
    · exact .inl ⟨.inr hbusy, e.trans (congrArg Host.Outcome.next (hostWrite_busy off w _ hbusy))⟩
    · exact .inr ⟨hrst, Bool.eq_false_iff.2 hbusy, e⟩

/-! ### Registers without a side effect -/

/-- The registers that a write only stores to: all but CMD, STATUS and the DATA ports (R67, R75). -/
def Reg.isPlain (r : Reg) : Bool :=
  match r with
  | .cmd | .status | .byteData | .symData | .sigData => false
  | _ => true

theorem writeReg_agenda {r : Reg} (h : r.isPlain = true) (w : Word) (s : State) (rest : List Event) :
    writeReg r w { s with agenda := rest } = { writeReg r w s with agenda := rest } := by
  cases r <;> first | rfl | cases h

theorem regAt_bounds {off : Nat} {r : Reg} (h : regAt off = some r) : off < 256 ∧ off % 4 = 0 := by
  unfold regAt at h
  split at h <;> first | decide | cases h

/-- A write to a plain register of an idle block, `rst` released, leaves what `writeReg` gives (R67). -/
theorem writeLeaves_writeReg {s : State} (hrst : s.rstAsserted = false) (hidle : s.busy = false) {off : Nat}
    {r : Reg} (hreg : regAt off = some r) (hplain : r.isPlain = true) (w : Word) :
    WriteLeaves s off w (writeReg r w s) := by
  intro rest hagenda
  obtain ⟨hlt, h4⟩ := regAt_bounds hreg
  have hcmd : off ≠ 0 := by
    rintro rfl
    cases hreg
    cases hplain
  rcases step_write_cases hlt h4 hcmd hagenda with ⟨hdropped | hdropped, -⟩ | ⟨-, -, e⟩
  · simp [hrst] at hdropped
  · simp [hidle] at hdropped
  · rw [e, hostWrite_reg w { s with agenda := rest } hreg hidle, writeReg_agenda hplain]

/-- A write and then a read of one plain register gives the value that the write left. -/
theorem run_write_then_read {s : State} {off : Nat} {r : Reg} {w : Word} (hrst : s.rstAsserted = false)
    (hidle : s.busy = false) (hreg : regAt off = some r) (hplain : r.isPlain = true)
    (hagenda : s.agenda = [.write (s.params.base + off) w, .read (s.params.base + off)]) :
    ∃ t, core.run 2 s = .next t ∧ t.busOut = (writeReg r w s).regValue r := by
  obtain ⟨hlt, h4⟩ := regAt_bounds hreg
  have hport : ¬IsDataPort off := by
    rintro (rfl | rfl | rfl) <;> cases hreg <;> cases hplain
  have hwrite := writeLeaves_writeReg hrst hidle hreg hplain w _ hagenda
  have hread := readsAs_wordAt { writeReg r w s with agenda := [.read (s.params.base + off)] } hlt h4 (.inl hport) []
    (by rw [(writeReg_inputs r w s).1])
  have hword : (writeReg r w s).wordAt off = (writeReg r w s).regValue r := by rw [State.wordAt, hreg]
  exact ⟨_, (run_succ 1 _ _ hwrite).trans (run_succ 0 _ _ hread), hword⟩

/-! ### The implemented bits of CTRL and IRQ_EN -/

/-- CTRL keeps bit 0 of the word written (R24). -/
theorem ctrlWord_written (w : Word) (s : State) : (writeReg .ctrl w s).ctrlWord = w &&& 1 := by
  refine (ctrlWord_eq _).trans (Eq.trans ?_ BitVec.and_one_eq_setWidth_ofBool_getLsbD.symm)
  show (if w.getLsbD 0 then (1 : Word) else 0) = (BitVec.ofBool (w.getLsbD 0)).setWidth 32
  cases w.getLsbD 0 <;> rfl

/-- IRQ_EN keeps bits 1, 3 and 4 of the word written (R25). -/
theorem irqEnWord_written (w : Word) (s : State) : (writeReg .irqEn w s).irqEnWord = w &&& 0x1A := by
  have mask : ∀ i < 32, (0x1A : Word).getLsbD i = decide (i = 1 ∨ i = 3 ∨ i = 4) := by decide
  refine BitVec.eq_of_getLsbD_eq fun i hi => ?_
  rw [irqEnWord_getLsbD, BitVec.getLsbD_and, mask i hi]
  simp only [writeReg]
  split_ifs with h1 h3 h4
  · simp [h1]
  · simp [h3]
  · simp [h4]
  · simp [h1, h3, h4]

/-- What a plain, writable register reads back: the word, or its implemented bits (R24 to R37, R40). -/
theorem readBack_plain {off : Nat}
    (h : off ∈ [0x08, 0x0C, 0x10, 0x14, 0x18, 0x1C, 0x20, 0x24, 0x28, 0x30, 0x34, 0x38, 0x3C,
      0x50, 0x58, 0x60]) :
    ∃ r, regAt off = some r ∧ r.isPlain = true ∧ ∀ w s, (writeReg r w s).regValue r
      = if off = 0x08 then w &&& 1 else if off = 0x0C then w &&& 0x1A else w := by
  simp only [List.mem_cons, List.not_mem_nil, or_false] at h
  rcases h with rfl | rfl | h
  · exact ⟨.ctrl, rfl, rfl, ctrlWord_written⟩
  · exact ⟨.irqEn, rfl, rfl, irqEnWord_written⟩
  · rcases h with rfl | rfl | rfl | rfl | rfl | rfl | rfl | rfl | rfl | rfl | rfl | rfl | rfl | rfl <;>
      exact ⟨_, rfl, rfl, fun _ _ => rfl⟩

/-! ### Read-only registers -/

/-- A write to a reserved offset or to a read-only register has no effect (R67, R68). -/
theorem hostWrite_ignored {off : Nat} (h : 0x68 ≤ off ∨ off ∈ [0x2C, 0x40, 0x44, 0x48, 0x4C]) (w : Word)
    (s : State) (hidle : s.busy = false) : hostWrite off w s = s := by
  rcases h with h | h
  · exact hostWrite_reserved w s h
  · simp only [List.mem_cons, List.not_mem_nil, or_false] at h
    rcases h with rfl | rfl | rfl | rfl | rfl
    · exact hostWrite_reg (r := .sps) w s rfl hidle
    · exact hostWrite_reg (r := .errInfo) w s rfl hidle
    · exact hostWrite_reg (r := .capByte) w s rfl hidle
    · exact hostWrite_reg (r := .capSym) w s rfl hidle
    · exact hostWrite_reg (r := .capSig) w s rfl hidle

/-! ### The statements -/

/-- Settles O31: `busWrite_busy` at the write's offset. -/
theorem writesAreDroppedWhileBusy : Obligations.WritesAreDroppedWhileBusy := by
  intro s off w rest hbusy hlt h4 hagenda
  rw [step_write s off w rest hlt h4 hagenda, busWrite_busy off w { s with agenda := rest } hbusy]

/-- Settles O36: `writeReg` at each plain register. -/
theorem plainWriteStoresOnlyItsRegister : Obligations.PlainWriteStoresOnlyItsRegister := by
  intro s w hrst hidle
  have leaves {off : Nat} {r : Reg} (hreg : regAt off = some r) (hplain : r.isPlain = true) :
      WriteLeaves s off w (writeReg r w s) := writeLeaves_writeReg hrst hidle hreg hplain w
  exact ⟨leaves (r := .ctrl) rfl rfl, leaves (r := .irqEn) rfl rfl, leaves (r := .sampleRate) rfl rfl,
    leaves (r := .baudRate) rfl rfl, leaves (r := .carrierFreq) rfl rfl, leaves (r := .bitDepth) rfl rfl,
    leaves (r := .lpfN) rfl rfl, leaves (r := .period) rfl rfl, leaves (r := .thresh) rfl rfl,
    leaves (r := .byteLen) rfl rfl, leaves (r := .symLen) rfl rfl, leaves (r := .sigLen) rfl rfl,
    leaves (r := .payloadStart) rfl rfl, leaves (r := .byteIdx) rfl rfl, leaves (r := .symIdx) rfl rfl,
    leaves (r := .sigIdx) rfl rfl⟩

/-- Settles O35: the write and the read in turn, with what each register keeps of the word. -/
theorem registersReadBackWhatWasWritten : Obligations.RegistersReadBackWhatWasWritten := by
  intro s off w hrst hidle hoff hagenda
  obtain ⟨r, hreg, hplain, hvalue⟩ := readBack_plain hoff
  obtain ⟨t, hrun, hout⟩ := run_write_then_read hrst hidle hreg hplain hagenda
  exact ⟨t, hrun, hout.trans (hvalue w s)⟩

/-- Settles O38: such a write is dropped or ignored, and such a read gives the word at its offset. -/
theorem reservedAndReadOnlyOffsets : Obligations.ReservedAndReadOnlyOffsets := by
  intro s off rest hlt h4
  refine ⟨fun hoff w hagenda => ?_, fun hoff hagenda => ?_⟩
  · have hcmd : off ≠ 0 := by
      rintro rfl
      revert hoff
      decide
    rcases step_write_cases hlt h4 hcmd hagenda with ⟨-, e⟩ | ⟨-, hidle, e⟩
    · exact e
    · rw [e, hostWrite_ignored hoff w { s with agenda := rest } hidle]
  · have hport : ¬IsDataPort off := by
      rintro (rfl | rfl | rfl) <;> revert hoff <;> decide
    refine ⟨_, readsAs_wordAt s hlt h4 (.inl hport) rest hagenda, rfl, ?_, ?_, ?_, ?_, ?_, ?_⟩
    · rintro (hreserved | rfl)
      · exact wordAt_reserved s hreserved
      · rfl
    · rintro rfl
      exact (toNat_spsWord s).trans (sps_eq s)
    · rintro rfl
      rfl
    · rintro rfl
      exact toNat_capacityWord s.params.byteMax
    · rintro rfl
      exact toNat_capacityWord s.params.symMax
    · rintro rfl
      exact toNat_capacityWord s.params.sigMax

end Sys2Proof.Machine
end

section
/-! PROOFS. The DATA ports: what one write stores and one read gives (R70 to R72). -/

namespace Sys2Proof.Machine

/-! ### Indices and conversions -/

/-- An index below a capacity moves on without wrapping (R6, R70). -/
theorem toNat_succ_of_lt_capacity {i : Word} {cap : Fin 4294967295} (h : i.toNat < cap.val) :
    (i + 1).toNat = i.toNat + 1 := by
  have hcap := cap.isLt
  rw [BitVec.toNat_add, show (1 : Word).toNat = 1 from rfl, Nat.mod_eq_of_lt (by omega)]

theorem toNat_fromByte (b : Byte) : (fromByte b).toNat = b.toNat :=
  BitVec.toNat_setWidth_of_le (by omega)

theorem toNat_fromSymbol (b : Symbol) : (fromSymbol b).toNat = b.toNat := by
  cases b <;> rfl

theorem toInt_fromSample (v : Sample) : (fromSample v).toInt = v.toInt :=
  BitVec.toInt_signExtend_of_le (by omega)

/-! ### Writes -/

theorem writeByteData_frame (w : Word) (s : State) :
    { writeByteData w s with byteBuf := s.byteBuf, byteIdx := s.byteIdx } = s := by
  unfold writeByteData
  split <;> rfl

theorem writeSymData_frame (w : Word) (s : State) :
    { writeSymData w s with symBuf := s.symBuf, symIdx := s.symIdx } = s := by
  unfold writeSymData
  split <;> rfl

theorem writeSigData_frame (w : Word) (s : State) :
    { writeSigData w s with sigBuf := s.sigBuf, sigIdx := s.sigIdx } = s := by
  unfold writeSigData
  split <;> rfl

/-- BYTE below its capacity: the element at the index is the written one, and the others stay (R70). -/
theorem writeByteData_below (w : Word) (s : State) (hwf : Memory.wf s.byteBuf)
    (h : s.byteIdx.toNat < s.params.byteMax.val) :
    (writeByteData w s).byteAt s.byteIdx.toNat = toByte w
    ∧ (writeByteData w s).byteIdx.toNat = s.byteIdx.toNat + 1
    ∧ ∀ i, i ≠ s.byteIdx.toNat → (writeByteData w s).byteAt i = s.byteAt i := by
  rw [writeByteData, if_pos h]
  refine ⟨?_, toNat_succ_of_lt_capacity h, fun i hi => ?_⟩
  · simp [State.byteAt, read?_write _ _ _ _ hwf]
  · simp [State.byteAt, read?_write _ _ _ _ hwf, hi]

theorem writeSymData_below (w : Word) (s : State) (hwf : Memory.wf s.symBuf)
    (h : s.symIdx.toNat < s.params.symMax.val) :
    (writeSymData w s).symAt s.symIdx.toNat = toSymbol w
    ∧ (writeSymData w s).symIdx.toNat = s.symIdx.toNat + 1
    ∧ ∀ i, i ≠ s.symIdx.toNat → (writeSymData w s).symAt i = s.symAt i := by
  rw [writeSymData, if_pos h]
  refine ⟨?_, toNat_succ_of_lt_capacity h, fun i hi => ?_⟩
  · simp [State.symAt, read?_write _ _ _ _ hwf]
  · simp [State.symAt, read?_write _ _ _ _ hwf, hi]

/-- SIG below its capacity; the stored sample has the value of the 16 written bits (R72). -/
theorem writeSigData_below (w : Word) (s : State) (hwf : Memory.wf s.sigBuf)
    (h : s.sigIdx.toNat < s.params.sigMax.val) :
    ((writeSigData w s).sigAt s.sigIdx.toNat).toInt = (w.extractLsb' 0 16).toInt
    ∧ (writeSigData w s).sigIdx.toNat = s.sigIdx.toNat + 1
    ∧ ∀ i, i ≠ s.sigIdx.toNat → (writeSigData w s).sigAt i = s.sigAt i := by
  rw [writeSigData, if_pos h]
  refine ⟨?_, toNat_succ_of_lt_capacity h, fun i hi => ?_⟩
  · simp [State.sigAt, read?_write _ _ _ _ hwf, toInt_toSample]
  · simp [State.sigAt, read?_write _ _ _ _ hwf, hi]

/-- What a step at a write of a DATA port can be, for a claim `frame` on every such write, a claim `taken` on a
write below the capacity, and no effect otherwise (R70, R73, R245). -/
theorem step_dataPortWrite {s : State} {off : Nat} {r : Reg} {w : Word} {rest : List Event}
    {below full : Prop} {frame taken : State → Prop} (hreg : regAt off = some r) (hport : IsDataPort off)
    (hdropped : frame { s with agenda := rest })
    (hframe : frame (writeReg r w { s with agenda := rest }))
    (htaken : below → taken (writeReg r w { s with agenda := rest }))
    (hfull : full → writeReg r w { s with agenda := rest } = { s with agenda := rest })
    (hagenda : s.agenda = .write (s.params.base + off) w :: rest) :
    ∃ t, step s = .next t ∧ frame t ∧ (s.rstAsserted = false → s.busy = false → below → taken t)
      ∧ (s.busy = true ∨ full → t = { s with agenda := rest }) := by
  obtain ⟨hlt, h4⟩ := regAt_bounds hreg
  rcases step_write_cases hlt h4 (by unfold IsDataPort at hport; omega) hagenda with ⟨hdrop, e⟩ | ⟨-, hidle, e⟩
  · refine ⟨_, e, hdropped, fun hrst hidle => ?_, fun _ => rfl⟩
    simp [hrst, hidle] at hdrop
  · rw [hostWrite_reg w { s with agenda := rest } hreg hidle] at e
    refine ⟨_, e, hframe, fun _ _ => htaken, fun hno => hfull (hno.resolve_left ?_)⟩
    simp [hidle]

/-- Settles O33, port by port. -/
theorem dataPortWriteStoresOneElement : Obligations.DataPortWriteStoresOneElement := by
  intro s w rest hinv
  refine ⟨step_dataPortWrite rfl (by decide) rfl (writeByteData_frame w _)
      (writeByteData_below w { s with agenda := rest } hinv.byteWf) fun h => ?_,
    step_dataPortWrite rfl (by decide) rfl (writeSymData_frame w _)
      (writeSymData_below w { s with agenda := rest } hinv.symWf) fun h => ?_,
    step_dataPortWrite rfl (by decide) rfl (writeSigData_frame w _)
      (writeSigData_below w { s with agenda := rest } hinv.sigWf) fun h => ?_⟩
  all_goals exact if_neg (Nat.not_lt.2 h)

/-! ### Reads -/

theorem readByteData_frame (s : State) :
    { readByteData s with byteIdx := s.byteIdx, busOut := s.busOut } = s := by
  unfold readByteData
  split <;> rfl

theorem readSymData_frame (s : State) :
    { readSymData s with symIdx := s.symIdx, busOut := s.busOut } = s := by
  unfold readSymData
  split <;> rfl

theorem readSigData_frame (s : State) :
    { readSigData s with sigIdx := s.sigIdx, busOut := s.busOut } = s := by
  unfold readSigData
  split <;> rfl

theorem readByteData_below {s : State} (hidle : s.busy = false) (h : s.byteIdx.toNat < s.params.byteMax.val) :
    readByteData s = { s with busOut := fromByte (s.byteAt s.byteIdx.toNat), byteIdx := s.byteIdx + 1 } := by
  rw [readByteData, if_pos (by simp [hidle, h])]

theorem readSymData_below {s : State} (hidle : s.busy = false) (h : s.symIdx.toNat < s.params.symMax.val) :
    readSymData s = { s with busOut := fromSymbol (s.symAt s.symIdx.toNat), symIdx := s.symIdx + 1 } := by
  rw [readSymData, if_pos (by simp [hidle, h])]

theorem readSigData_below {s : State} (hidle : s.busy = false) (h : s.sigIdx.toNat < s.params.sigMax.val) :
    readSigData s = { s with busOut := fromSample (s.sigAt s.sigIdx.toNat), sigIdx := s.sigIdx + 1 } := by
  rw [readSigData, if_pos (by simp [hidle, h])]

/-- What a step at a read of a DATA port can be: the port's own read `port` while `rst` is released, or only its
word; for a claim `taken` on a read below the capacity, and the word 0 otherwise (R71, R245). -/
theorem step_dataPortRead {s : State} {off : Nat} {rest : List Event} {below full : Prop}
    {frame taken blocked : State → Prop} (hport : IsDataPort off)
    (hheld : frame { s with agenda := rest, busOut := (hostRead off { s with agenda := rest }).busOut })
    (hframe : frame (hostRead off { s with agenda := rest }))
    (htaken : s.busy = false → below → taken (hostRead off { s with agenda := rest }))
    (hblocked : blocked { s with agenda := rest, busOut := 0 })
    (hfull : s.busy = true ∨ full →
      hostRead off { s with agenda := rest } = { s with agenda := rest, busOut := 0 })
    (hagenda : s.agenda = .read (s.params.base + off) :: rest) :
    ∃ t, step s = .next t ∧ frame t ∧ (s.rstAsserted = false → s.busy = false → below → taken t)
      ∧ (s.busy = true ∨ full → blocked t) := by
  have hbounds : off < 256 ∧ off % 4 = 0 := by unfold IsDataPort at hport; omega
  have hstep := step_read s off rest hbounds.1 hbounds.2 hagenda
  by_cases hrst : s.rstAsserted = true
  · rw [busRead_held off { s with agenda := rest } hrst] at hstep
    refine ⟨_, hstep, hheld, fun hreleased => ?_, fun hno => ?_⟩
    · simp [hrst] at hreleased
    · rw [hfull hno]
      exact hblocked
  · rw [busRead_released off { s with agenda := rest } (Bool.eq_false_iff.2 hrst)] at hstep
    refine ⟨_, hstep, hframe, fun _ => htaken, fun hno => ?_⟩
    rw [hfull hno]
    exact hblocked

/-- Settles O34, port by port; a read elsewhere gives the word at its offset. -/
theorem dataPortReadReturnsOneElement : Obligations.DataPortReadReturnsOneElement := by
  intro s rest
  refine ⟨?_, ?_, ?_, fun off hlt h4 hbyte hsym hsig hagenda => ?_⟩
  · refine step_dataPortRead (by decide) rfl (readByteData_frame _) (fun hidle h => ?_) ⟨rfl, rfl⟩
      (readByteData_blocked (s := { s with agenda := rest }))
    have hread : hostRead 0x54 { s with agenda := rest } = _ := readByteData_below hidle h
    rw [hread]
    exact ⟨toNat_fromByte _, toNat_succ_of_lt_capacity h⟩
  · refine step_dataPortRead (by decide) rfl (readSymData_frame _) (fun hidle h => ?_) ⟨rfl, rfl⟩
      (readSymData_blocked (s := { s with agenda := rest }))
    have hread : hostRead 0x5C { s with agenda := rest } = _ := readSymData_below hidle h
    rw [hread]
    exact ⟨toNat_fromSymbol _, toNat_succ_of_lt_capacity h⟩
  · refine step_dataPortRead (by decide) rfl (readSigData_frame _) (fun hidle h => ?_) ⟨rfl, rfl⟩
      (readSigData_blocked (s := { s with agenda := rest }))
    have hread : hostRead 0x64 { s with agenda := rest } = _ := readSigData_below hidle h
    rw [hread]
    exact ⟨toInt_fromSample _, toNat_succ_of_lt_capacity h⟩
  · have hport : ¬IsDataPort off := by unfold IsDataPort; omega
    exact ⟨_, readsAs_wordAt s hlt h4 (.inl hport) rest hagenda, rfl⟩

end Sys2Proof.Machine
end

section
/-! PROOFS. The accesses that the bus cannot express, the host beside a running command, and what the stages write. -/

namespace Sys2Proof.Machine

/-! ### Bus addresses -/

/-- An address outside the window or off a word names no register (R64, U5). -/
theorem busOffset_eq_none {p : Config.Params} {a : Nat} (h : a < p.base ∨ p.base + 256 ≤ a ∨ a % 4 ≠ 0) :
    busOffset p a = none := by
  have hmalformed : ¬wellFormedBusAddress p a = true := by
    simp only [wellFormedBusAddress, Bool.and_eq_true, decide_eq_true_eq]
    omega
  rw [busOffset, if_neg hmalformed]

/-- An address that the bus can express is a word of the window (R64). -/
theorem exists_offset_of_wellFormed {p : Config.Params} {a : Nat} (h : wellFormedBusAddress p a = true) :
    ∃ off, off < 256 ∧ off % 4 = 0 ∧ a = p.base + off := by
  have hbase : p.base % 4 = 0 := by unfold Config.Params.base; omega
  simp only [wellFormedBusAddress, Bool.and_eq_true, decide_eq_true_eq] at h
  exact ⟨a - p.base, by omega, by omega, by omega⟩

/-- Settles O39: the address names no register, so the access has no meaning. -/
theorem accessesTheBusCannotExpressAreRefused : Obligations.AccessesTheBusCannotExpressAreRefused := by
  intro s a rest haddr
  have hoff := busOffset_eq_none haddr
  refine ⟨fun hagenda => ?_, fun w hagenda => ?_⟩
  all_goals
    rw [step_cons s _ rest hagenda]
    simp only [eventStep, hoff]

/-- Settles O47: a read moves only the host's word, and a write is dropped. -/
theorem hostCannotDisturbARunningCommand : Obligations.HostCannotDisturbARunningCommand := by
  intro s e rest hbusy hagenda hexpr hengine hassert hrelease
  cases e with
  | read a =>
    obtain ⟨off, hlt, h4, rfl⟩ := exists_offset_of_wellFormed hexpr
    exact ⟨_, readsAs_wordAt s hlt h4 (.inr hbusy) rest hagenda, rfl⟩
  | write a w =>
    obtain ⟨off, hlt, h4, rfl⟩ := exists_offset_of_wellFormed hexpr
    exact ⟨_, writesAreDroppedWhileBusy s off w rest hbusy hlt h4 hagenda, rfl⟩
  | engine => exact absurd rfl hengine
  | assertRst => exact absurd rfl hassert
  | releaseRst => exact absurd rfl hrelease

/-! ### What a stage writes -/

/-- `s` with what stage `st` may write taken from its result `t` (R61). -/
def listedWrites (st : Stage) (s t : State) : State :=
  match st with
  | .enc | .slice => { s with symBuf := t.symBuf, symLen := t.symLen }
  | .mod => { s with sigBuf := t.sigBuf, sigLen := t.sigLen }
  | .rect | .lpf => { s with sigBuf := t.sigBuf }
  | .sync => { s with payloadStart := t.payloadStart, found := t.found, notfound := t.notfound }
  | .dec => { s with byteBuf := t.byteBuf, byteLen := t.byteLen }

theorem runStage_eq_listedWrites {st : Stage} {s t : State} (h : runStage st s = .ok t) :
    t = listedWrites st s t := by
  cases st with
  | sync =>
    simp only [runStage, stageSync] at h
    split at h
    · cases h
    · split at h <;> cases h <;> rfl
  | _ =>
    simp only [runStage, stageEnc, stageMod, stageRect, stageLpf, stageSlice, stageDec] at h
    split_ifs at h
    cases h
    rfl

/-- Each buffer, length and SYNC result is written only by the stages listed for it; `st` is the stage that an
ENGINE step runs (R61). -/
def WritesOnlyListed (st : Option Stage) (s t : State) : Prop :=
  (st ≠ some .dec → t.byteBuf = s.byteBuf ∧ t.byteLen = s.byteLen)
  ∧ (st ≠ some .enc → st ≠ some .slice → t.symBuf = s.symBuf ∧ t.symLen = s.symLen)
  ∧ (st ≠ some .mod → t.sigLen = s.sigLen)
  ∧ (st ≠ some .mod → st ≠ some .rect → st ≠ some .lpf → t.sigBuf = s.sigBuf)
  ∧ (st ≠ some .sync → t.payloadStart = s.payloadStart ∧ t.found = s.found ∧ t.notfound = s.notfound)

theorem writesOnlyListed_of_runStage {st : Stage} {s t : State} (hst : s.stage = some st)
    (h : runStage st s = .ok t) : WritesOnlyListed s.stage s t := by
  rw [hst, runStage_eq_listedWrites h]
  cases st <;> simp [WritesOnlyListed, listedWrites]

/-- A state with the same buffers, lengths and SYNC results. -/
theorem writesOnlyListed_refl (st : Option Stage) (s : State) : WritesOnlyListed st s s :=
  ⟨fun _ => ⟨rfl, rfl⟩, fun _ _ => ⟨rfl, rfl⟩, fun _ => rfl, fun _ _ _ => rfl, fun _ => ⟨rfl, rfl, rfl⟩⟩

/-- Settles O46: the end of a command and an error write the handshake only; a stage writes what is listed. -/
theorem stagesWriteOnlyWhatIsListed : Obligations.StagesWriteOnlyWhatIsListed := by
  intro i s t hbusy h
  rw [exec_busy i s hbusy] at h
  rcases engineStep_cases i s with
    ⟨-, e⟩ | ⟨st, hst, ⟨c, -, e⟩ | ⟨u, hu, ⟨-, e⟩ | ⟨st', -, e⟩ | ⟨-, e⟩⟩⟩ <;> cases e.symm.trans h
  · exact ⟨rfl, writesOnlyListed_refl s.stage s⟩
  · exact ⟨rfl, writesOnlyListed_refl s.stage s⟩
  · have hlisted : WritesOnlyListed s.stage s u := writesOnlyListed_of_runStage hst hu
    refine ⟨?_, hlisted⟩
    rw [runStage_frame st s u hu]
    rfl
  · have hlisted : WritesOnlyListed s.stage s u := writesOnlyListed_of_runStage hst hu
    refine ⟨?_, hlisted⟩
    rw [runStage_frame st s u hu]

end Sys2Proof.Machine
end

section
/-! PROOFS. The command word: decoder and encoder are inverse to each other, the words refused for each reason, and
the statements about the encoding (30_encoding.md R97, R100, R101). -/

namespace Sys2Proof

/-! ### The accepted words -/

theorem decode_encode (i : Instr) : decode (encode i) = .ok i :=
  (decode_ok_iff (encode i) i).2 (encode_toNat i)

theorem encode_eq_of_decode {w : Word} {i : Instr} (h : decode w = .ok i) : encode i = w :=
  BitVec.eq_of_toNat_eq ((encode_toNat i).trans ((decode_ok_iff w i).1 h).symm)

/-! ### The refused words -/

/-- The reserved values of OPC. -/
theorem instrOfOpcode_eq_none_iff (n : Nat) : instrOfOpcode n = none ↔ 10 ≤ n := by
  constructor
  · intro hnone
    by_contra hlt
    have hn : n < 10 := Nat.lt_of_not_le hlt
    interval_cases n <;> cases hnone
  · intro hn
    cases h : instrOfOpcode n with
    | none => rfl
    | some i =>
      have hopc := opcode_of_instrOfOpcode n i h
      have hlt := opcode_lt_ten i
      omega

/-- A bit of ZERO is set, whatever OPC is. -/
theorem decode_zeroFieldSet_iff (w : Word) : decode w = .error .zeroFieldSet ↔ 16 ≤ w.toNat := by
  unfold decode
  split_ifs with hzero <;> rw [zeroField_eq_zero_iff] at hzero
  · have hlt : ¬ 16 ≤ w.toNat := by omega
    split <;> simp [hlt]
  · have hle : 16 ≤ w.toNat := by omega
    simp [hle]

/-- ZERO is clear and OPC is reserved. -/
theorem decode_reservedOpcode_iff (w : Word) :
    decode w = .error .reservedOpcode ↔ 10 ≤ w.toNat ∧ w.toNat < 16 := by
  unfold decode
  split_ifs with hzero <;> rw [zeroField_eq_zero_iff] at hzero
  · rw [opcodeField_toNat, Nat.mod_eq_of_lt (by omega)]
    split
    next i hsome =>
      have hlt : ¬ 10 ≤ w.toNat := by simp [← instrOfOpcode_eq_none_iff, hsome]
      simp [hlt]
    next hnone =>
      have hle : 10 ≤ w.toNat := (instrOfOpcode_eq_none_iff _).1 hnone
      have hlt : w.toNat < 16 := by omega
      simp [hle, hlt]
  · have hle : ¬ w.toNat < 16 := by omega
    simp [hle]

/-- The illegal words of R101, by the word's value and its low four bits. -/
theorem decode_error_iff (w : Word) :
    (∃ r, decode w = .error r) ↔ 16 ≤ w.toNat ∨ 10 ≤ w.toNat % 16 := by
  constructor
  · rintro ⟨_ | _, hr⟩
    · exact .inl ((decode_zeroFieldSet_iff w).1 hr)
    · have hbounds := (decode_reservedOpcode_iff w).1 hr
      omega
  · intro h
    by_cases hzero : 16 ≤ w.toNat
    · exact ⟨.zeroFieldSet, (decode_zeroFieldSet_iff w).2 hzero⟩
    · exact ⟨.reservedOpcode, (decode_reservedOpcode_iff w).2 (by omega)⟩

/-! ### The statements -/

/-- Settles O2: decoder and encoder are inverse to each other, and a word is refused for one of R101's two reasons. -/
theorem decodeAndEncodeAgree : Obligations.DecodeAndEncodeAgree :=
  ⟨fun i _ => decode_encode i, fun _ _ => encode_eq_of_decode, decode_error_iff⟩

/-- Settles O1: each legal word is the encoding of its command, and each illegal one is refused for its own reason. -/
theorem decoderReadsTheOpcodeMap : Obligations.DecoderReadsTheOpcodeMap :=
  ⟨decode_encode .nop, decode_encode .enc, decode_encode .mod, decode_encode .rect, decode_encode .lpf,
    decode_encode .slice, decode_encode .sync, decode_encode .dec, decode_encode .tx, decode_encode .rx,
    (decode_reservedOpcode_iff 0x0000000A).2 (by decide), (decode_zeroFieldSet_iff 0x00000011).2 (by decide)⟩

end Sys2Proof
end

section
/-! PROOFS. The transmit stages ENC and MOD as the one stage of their commands (40_bitencoder_modulator.md R120, R123). -/

namespace Sys2Proof.Machine

/-! ### The end of a command -/

theorem finished_finish (s : State) : Finished (finish s) := ⟨rfl, rfl, rfl⟩

/-- An effect sets the handshake aside, which is all that the end of the command writes (R197). -/
theorem encEffect_finish {s t : State} (h : EncEffect s t) : EncEffect s (finish t) := h

theorem modEffect_finish {s t : State} (h : ModEffect s t) : ModEffect s (finish t) := h

/-! ### ENC -/

theorem stageEnc_eq_range {s : State} (h : s.params.byteMax.val < s.byteLen.toNat) :
    stageEnc s = .error .range := by
  rcases stageEnc_cases s with ⟨-, e⟩ | ⟨hle, -⟩ | ⟨⟨hle, -⟩, -⟩
  · exact e
  all_goals omega

theorem stageEnc_eq_ovf {s : State} (hle : s.byteLen.toNat ≤ s.params.byteMax.val)
    (h : s.params.symMax.val < 8 + 8 * s.byteLen.toNat) : stageEnc s = .error .ovf := by
  rcases stageEnc_cases s with ⟨hlt, -⟩ | ⟨-, -, e⟩ | ⟨⟨-, hfit⟩, -⟩
  · omega
  · exact e
  · omega

/-- Settles O10: the stage ends the command where it is ready, and otherwise its first failing requirement is raised. -/
theorem encWritesPreambleThenBytes : Obligations.EncWritesPreambleThenBytes := by
  refine ⟨rfl, rfl, fun s hbusy hstage => ⟨fun hready => ?_, fun hlen => ?_, fun hle hfit => ?_⟩⟩
  · exact ⟨_, exec_done .enc s _ .enc hbusy hstage (stageEnc_of_ready s hready) rfl,
      encEffect_finish (encEffect_of_ready s hready), finished_finish _⟩
  · exact exec_error .enc s .enc .range hbusy hstage (stageEnc_eq_range hlen)
  · exact exec_error .enc s .enc .ovf hbusy hstage (stageEnc_eq_ovf hle hfit)

/-! ### MOD -/

/-- Every cause of E_CFG in MOD leaves no whole sample per symbol (R33, R123). -/
theorem sps_lt_one_iff (s : State) :
    s.sps < 1 ↔ s.baudRate.toNat = 0 ∨ s.sampleRate.toNat < s.baudRate.toNat := by
  unfold State.sps samplesPerSymbol
  split
  next hzero => simp [hzero]
  next => rw [Nat.lt_one_iff, Nat.div_eq_zero_iff]

theorem stageMod_eq_cfg {s : State} (h : s.sps < 1) : stageMod s = .error .cfg := by
  rcases stageMod_cases s with ⟨-, e⟩ | ⟨hsps, -⟩ | ⟨hsps, -⟩ | ⟨⟨hsps, -⟩, -⟩
  · exact e
  all_goals omega

theorem stageMod_eq_range {s : State} (hsps : 1 ≤ s.sps) (h : s.params.symMax.val < s.symLen.toNat) :
    stageMod s = .error .range := by
  rcases stageMod_cases s with ⟨hlt, -⟩ | ⟨-, -, e⟩ | ⟨-, hle, -⟩ | ⟨⟨-, hle, -⟩, -⟩
  · omega
  · exact e
  all_goals omega

theorem stageMod_eq_ovf {s : State} (hsps : 1 ≤ s.sps) (hle : s.symLen.toNat ≤ s.params.symMax.val)
    (h : s.params.sigMax.val < s.symLen.toNat * s.sps) : stageMod s = .error .ovf := by
  rcases stageMod_cases s with ⟨hlt, -⟩ | ⟨-, hlt, -⟩ | ⟨-, -, -, e⟩ | ⟨⟨-, -, hfit⟩, -⟩
  · omega
  · omega
  · exact e
  · omega

/-- Settles O11: the stage ends the command where it is ready, and otherwise its first failing requirement is raised. -/
theorem modWritesCarrierOrSilencePerSymbol : Obligations.ModWritesCarrierOrSilencePerSymbol := by
  refine ⟨rfl, rfl, fun s hbusy hstage =>
    ⟨fun hready => ?_, fun hrate => ?_, fun hsps hlen => ?_, fun hsps hle hfit => ?_⟩⟩
  · exact ⟨_, exec_done .mod s _ .mod hbusy hstage (stageMod_of_ready s hready) rfl,
      modEffect_finish (modEffect_of_ready s hready), finished_finish _⟩
  · exact exec_error .mod s .mod .cfg hbusy hstage (stageMod_eq_cfg ((sps_lt_one_iff s).2 hrate))
  · exact exec_error .mod s .mod .range hbusy hstage (stageMod_eq_range hsps hlen)
  · exact exec_error .mod s .mod .ovf hbusy hstage (stageMod_eq_ovf hsps hle hfit)

end Sys2Proof.Machine
end

section
/-! PROOFS. The carrier: how near the model's sine is to the real one, the values this fixes, and the symmetry of the
table (40_bitencoder_modulator.md R124, R125). -/

namespace Sys2Proof.Machine

/-! ### Nearness to the real sine -/

/-- Rounding down or up at a tie, the result is within a half. -/
theorem abs_sub_le_half_of_rounded {y : ℝ} {v : ℤ} (h : v = ⌊y + 1 / 2⌋ ∨ v = -⌊-y + 1 / 2⌋) :
    |y - v| ≤ 1 / 2 := by
  rw [abs_le]
  rcases h with rfl | rfl
  · have hlo := Int.floor_le (y + 1 / 2)
    have hhi := Int.lt_floor_add_one (y + 1 / 2)
    constructor <;> linarith
  · have hlo := Int.floor_le (-y + 1 / 2)
    have hhi := Int.lt_floor_add_one (-y + 1 / 2)
    push_cast
    constructor <;> linarith

/-- The table is within the margin of a half from the exact value (R124, log 8). -/
theorem sineTable_near {fs m : Nat} (hm : m < fs) :
    |32768 * Real.sin (2 * Real.pi * m / fs) - sineTable fs m| ≤ 1 / 2 + 1 / 10 ^ 15 := by
  obtain ⟨y, hy, hrounded⟩ := sineTable_near_sin fs m hm
  calc _ ≤ |32768 * Real.sin (2 * Real.pi * m / fs) - y| + |y - sineTable fs m| := abs_sub_le _ _ _
    _ ≤ 1 / 10 ^ 15 + 1 / 2 := add_le_add (abs_sub_comm y _ ▸ hy) (abs_sub_le_half_of_rounded hrounded)
    _ = _ := add_comm _ _

/-- The sine depends on `fc` and `k` through the phase index only (R124). -/
theorem sin_phase_index {fs : Nat} (hfs : 0 < fs) (fc k : Nat) :
    Real.sin (2 * Real.pi * fc * k / fs) = Real.sin (2 * Real.pi * (fc * k % fs : Nat) / fs) := by
  have hfs' : (fs : ℝ) ≠ 0 := by positivity
  have hdiv : (fc : ℝ) * k = (fc * k % fs : Nat) + fs * (fc * k / fs : Nat) := by
    exact_mod_cast (Nat.mod_add_div (fc * k) fs).symm
  rw [← Real.sin_add_nat_mul_two_pi (2 * Real.pi * (fc * k % fs : Nat) / fs) (fc * k / fs)]
  congr 1
  rw [mul_assoc, hdiv]
  field_simp

theorem sinQ_near {fs : Nat} (hfs : 0 < fs) (fc k : Nat) :
    |32768 * Real.sin (2 * Real.pi * fc * k / fs) - sinQ fs fc k| ≤ 1 / 2 + 1 / 10 ^ 15 := by
  rw [sin_phase_index hfs, sinQ]
  exact sineTable_near (Nat.mod_lt _ hfs)

/-- An integer within a half and a margin is the nearest one, where no half-integer is within the margin. -/
theorem eq_round_of_near {x ε : ℝ} {v : ℤ} (h : |x - v| ≤ 1 / 2 + ε)
    (hfar : ∀ n : ℤ, ε < |x - (n + 1 / 2)|) : v = round x := by
  obtain ⟨hlo, hhi⟩ := abs_le.1 h
  rw [eq_comm, round_eq, Int.floor_eq_iff]
  constructor
  · by_contra hlt
    refine absurd (hfar (v - 1)) (not_lt.2 (abs_le.2 ?_))
    push_cast
    constructor <;> linarith
  · by_contra hge
    refine absurd (hfar v) (not_lt.2 (abs_le.2 ?_))
    constructor <;> linarith

/-- Settles O55: the distance is `sinQ_near`, and it fixes the rounding away from the half-integers. -/
theorem carrierIsTheRoundedSine : Obligations.CarrierIsTheRoundedSine :=
  fun _ fc k hfs => ⟨sinQ_near hfs fc k, eq_round_of_near (sinQ_near hfs fc k)⟩

/-! ### The exact points -/

/-- Where the exact value is an integer, the table holds it. -/
theorem sineTable_eq_of_sin {fs m : Nat} (hm : m < fs) {v : ℤ}
    (hv : 32768 * Real.sin (2 * Real.pi * m / fs) = v) : sineTable fs m = v := by
  have hnear := sineTable_near hm
  have hlt : |v - sineTable fs m| < 1 := by
    have hmargin : (1 : ℝ) / 2 + 1 / 10 ^ 15 < 1 := by norm_num
    rw [hv] at hnear
    exact_mod_cast hnear.trans_lt hmargin
  exact (sub_eq_zero.1 (Int.abs_lt_one_iff.1 hlt)).symm

/-- The same for a phase index at the part a / b of the period. -/
theorem sineTable_eq_of_fraction {a b m : Nat} (hab : a < b) (hm : 0 < m) {v : ℤ}
    (hv : 32768 * Real.sin (2 * Real.pi * (a / b)) = v) : sineTable (b * m) (a * m) = v := by
  refine sineTable_eq_of_sin (Nat.mul_lt_mul_of_pos_right hab hm) ?_
  have hm' : (m : ℝ) ≠ 0 := by positivity
  rw [← hv, Nat.cast_mul, Nat.cast_mul, mul_div_assoc, mul_div_mul_right _ _ hm']

theorem sineTable_eq_zero {fs m : Nat} (hm : m < fs) (hdvd : 2 * m % fs = 0) : sineTable fs m = 0 := by
  obtain ⟨c, hc⟩ := Nat.dvd_of_mod_eq_zero hdvd
  have hfs : (fs : ℝ) ≠ 0 := Nat.cast_ne_zero.2 (by omega)
  have hc' : (2 : ℝ) * m = fs * c := by exact_mod_cast hc
  have hangle : 2 * Real.pi * m / fs = c * Real.pi := by
    rw [div_eq_iff hfs]
    linear_combination Real.pi * hc'
  refine sineTable_eq_of_sin hm ?_
  rw [hangle, Real.sin_nat_mul_pi, mul_zero, Int.cast_zero]

theorem sineTable_quarter {m : Nat} (hm : 0 < m) : sineTable (4 * m) m = 32768 := by
  have h := sineTable_eq_of_fraction (a := 1) (b := 4) (v := 32768) (by omega) hm (by
    rw [show 2 * Real.pi * ((1 : ℕ) / (4 : ℕ)) = Real.pi / 2 by push_cast; ring, Real.sin_pi_div_two]
    norm_num)
  rwa [one_mul] at h

theorem sineTable_twelfth {m : Nat} (hm : 0 < m) : sineTable (12 * m) m = 16384 := by
  have h := sineTable_eq_of_fraction (a := 1) (b := 12) (v := 16384) (by omega) hm (by
    rw [show 2 * Real.pi * ((1 : ℕ) / (12 : ℕ)) = Real.pi / 6 by push_cast; ring, Real.sin_pi_div_six]
    norm_num)
  rwa [one_mul] at h

theorem sineTable_five_twelfths {m : Nat} (hm : 0 < m) : sineTable (12 * m) (5 * m) = 16384 :=
  sineTable_eq_of_fraction (by omega) hm (by
    rw [show 2 * Real.pi * ((5 : ℕ) / (12 : ℕ)) = Real.pi - Real.pi / 6 by push_cast; ring, Real.sin_pi_sub,
      Real.sin_pi_div_six]
    norm_num)

/-! ### The symmetry of the table -/

/-- The second half of the table is the first one read backwards and negated. -/
theorem sineTable_of_second_half {fs m : Nat} (h : fs < 2 * m) : sineTable fs m = -sineTable fs (fs - m) := by
  simp only [sineTable]
  rw [if_neg (show ¬2 * m ≤ fs by omega), if_pos (show 2 * (fs - m) ≤ fs by omega)]
  split <;> rfl

/-- The table is odd; at the half period this needs the exact value 0 (R125 (c)). -/
theorem sineTable_sub {fs m : Nat} (hm : m < fs) : sineTable fs (fs - m) = -sineTable fs m := by
  rcases lt_trichotomy (2 * m) fs with hlt | hhalf | hgt
  · rw [sineTable_of_second_half (m := fs - m) (by omega), show fs - (fs - m) = m by omega]
  · have hzero : sineTable fs m = 0 := sineTable_eq_zero hm (by rw [hhalf, Nat.mod_self])
    rw [show fs - m = m by omega, hzero, neg_zero]
  · rw [sineTable_of_second_half hgt, neg_neg]

/-! ### The statement -/

/-- A symbol starts with the sample 0; without a sample rate the model's table has one entry, which is 0 too. -/
theorem sinQ_zero (fs fc : Nat) : sinQ fs fc 0 = 0 := by
  rw [sinQ, mul_zero, Nat.zero_mod]
  cases fs with
  | zero => decide +kernel
  | succ n => exact sineTable_eq_zero n.succ_pos (by simp)

/-- Settles O56: the general clauses from the nearness to the real sine and the symmetry, the reference rows by
evaluation. -/
theorem carrierProperties : Obligations.CarrierProperties := by
  refine ⟨sinQ_zero, sinQ_bounds, fun _ _ _ => sineTable_sub, fun _ _ => sineTable_eq_zero,
    fun m hm => ⟨sineTable_quarter hm, ?_⟩,
    fun m hm => ⟨sineTable_twelfth hm, sineTable_five_twelfths hm, ?_, ?_⟩, ?_⟩
  · rw [show 3 * m = 4 * m - m by omega, sineTable_sub (m := m) (by omega), sineTable_quarter hm]
  · rw [show 7 * m = 12 * m - 5 * m by omega, sineTable_sub (by omega), sineTable_five_twelfths hm]
  · rw [show 11 * m = 12 * m - m by omega, sineTable_sub (m := m) (by omega), sineTable_twelfth hm]
  · refine ⟨?_, ?_, ?_, ?_, ?_, ?_, ?_⟩ <;> decide +kernel

end Sys2Proof.Machine
end

section
/-! PROOFS. The envelope detector: RECT and LPF as the one stage of their commands, and the laws of the two stages
(41_envelope_detector.md R140 to R145). -/

namespace Sys2Proof.Machine

/-! ### RECT -/

theorem rectEffect_finish {s t : State} (h : RectEffect s t) : RectEffect s (finish t) := h

/-- RECT writes no length (R141). -/
theorem rectEffect_sigLen {s t : State} (h : RectEffect s t) : t.sigLen = s.sigLen :=
  (congrArg State.sigLen h.1 :)

theorem rectEffect_nonneg {s t : State} (h : RectEffect s t) {i : Nat} (hi : i < s.sigLen.toNat) :
    0 ≤ (t.sigAt i).toInt := by
  obtain ⟨-, habs, -⟩ := h
  rw [habs i hi]
  exact abs_nonneg _

/-- RECT changes no sample where none below SIG_LEN is negative. -/
theorem rectEffect_sigAt_of_nonneg {s t : State} (h : RectEffect s t)
    (hpos : ∀ i, i < s.sigLen.toNat → 0 ≤ (s.sigAt i).toInt) (i : Nat) : t.sigAt i = s.sigAt i := by
  obtain ⟨-, habs, habove⟩ := h
  by_cases hi : i < s.sigLen.toNat
  · exact BitVec.eq_of_toInt_eq ((habs i hi).trans (abs_of_nonneg (hpos i hi)))
  · exact habove i (Nat.le_of_not_lt hi)

theorem exec_rect_of_ready {s : State} (hbusy : s.busy = true) (hstage : s.stage = some .rect)
    (hready : RectReady s) :
    exec .rect s = .next (finish { s with
      sigBuf := Memory.replacePrefix s.sigBuf (rectify (s.sigs s.sigLen.toNat)) }) :=
  exec_done .rect s _ .rect hbusy hstage (stageRect_of_ready s hready) rfl

/-- What a RECT that completes has done; its result is again one that RECT can take (R45, R140). -/
theorem rectEffect_of_exec {s t : State} (hrange : samplesInRange s.sigBuf) (hbusy : s.busy = true)
    (hstage : s.stage = some .rect) (hready : RectReady s) (h : exec .rect s = .next t) :
    RectEffect s t ∧ samplesInRange t.sigBuf ∧ RectReady t := by
  cases (exec_rect_of_ready hbusy hstage hready).symm.trans h
  exact ⟨rectEffect_finish (rectEffect s hrange), samplesInRange_rectify s _ hrange, hready⟩

theorem stageRect_eq_range {s : State} (h : s.params.sigMax.val < s.sigLen.toNat) :
    stageRect s = .error .range := by
  rw [stageRect, if_pos h]

/-- Settles O12: the stage ends the command where SIG_LEN fits, and raises E_RANGE where it does not. -/
theorem rectWritesAbsoluteValues : Obligations.RectWritesAbsoluteValues := by
  refine ⟨rfl, rfl, fun s hinv hbusy hstage => ⟨fun hready => ?_, fun hlen => ?_⟩⟩
  · exact ⟨_, exec_rect_of_ready hbusy hstage hready, rectEffect_finish (rectEffect s hinv.sigRange),
      finished_finish _⟩
  · exact exec_error .rect s .rect .range hbusy hstage (stageRect_eq_range hlen)

/-- Settles O49: the first run leaves no negative sample below SIG_LEN, and where there is none RECT changes none. -/
theorem rectIsIdempotent : Obligations.RectIsIdempotent := by
  intro s t u hinv hbusy hstage hready hfirst hsecond
  obtain ⟨heffect, hrange, hready'⟩ := rectEffect_of_exec hinv.sigRange hbusy hstage hready hfirst
  have hlen : t.sigLen = s.sigLen := rectEffect_sigLen heffect
  have hpos : ∀ i, i < s.sigLen.toNat → 0 ≤ (t.sigAt i).toInt := fun _ => rectEffect_nonneg heffect
  have hpos' : ∀ i, i < t.sigLen.toNat → 0 ≤ (t.sigAt i).toInt := by rwa [hlen]
  obtain ⟨hagain, -, -⟩ :=
    rectEffect_of_exec (s := { t with busy := true, done := false, stage := some .rect })
      hrange rfl rfl hready' hsecond
  have hsame := rectEffect_sigAt_of_nonneg hagain hpos'
  exact ⟨hlen, hpos, hsame⟩

/-! ### LPF -/

theorem lpfEffect_finish {s t : State} (h : LpfEffect s t) : LpfEffect s (finish t) := h

/-- LPF writes no length (R144). -/
theorem lpfEffect_sigLen {s t : State} (h : LpfEffect s t) : t.sigLen = s.sigLen :=
  (congrArg State.sigLen h.1 :)

/-- A window that starts at its own index holds one sample, and LPF keeps it (R144). -/
theorem lpfEffect_sigAt_of_single {s t : State} (h : LpfEffect s t) {i : Nat}
    (hwindow : i + 1 - s.lpfN.toNat = i) : t.sigAt i = s.sigAt i := by
  obtain ⟨-, hmean, habove⟩ := h
  by_cases hi : i < s.sigLen.toNat
  · have hvalue := hmean i hi
    simp only [hwindow, Finset.Icc_self, Finset.sum_singleton] at hvalue
    exact BitVec.eq_of_toInt_eq (by simpa using hvalue)
  · exact habove i (Nat.le_of_not_lt hi)

/-- An interval that holds the samples below SIG_LEN holds their window means (R145). -/
theorem lpfEffect_bounds {s t : State} {a b : Int} (h : LpfEffect s t) (hwindow : 1 ≤ s.lpfN.toNat)
    (hin : ∀ i, i < s.sigLen.toNat → a ≤ (s.sigAt i).toInt ∧ (s.sigAt i).toInt ≤ b)
    {i : Nat} (hi : i < s.sigLen.toNat) : a ≤ (t.sigAt i).toInt ∧ (t.sigAt i).toInt ≤ b := by
  obtain ⟨-, hmean, -⟩ := h
  have havg : (t.sigAt i).toInt = movingAverage s.lpfN.toNat (fun j => (s.sigAt j).toInt) i :=
    (hmean i hi).trans (movingAverage_eq _ _ _ hwindow).symm
  rw [havg]
  exact movingAverage_bounds hwindow fun j hj => hin j (lt_of_le_of_lt hj hi)

theorem exec_lpf_of_ready {s : State} (hbusy : s.busy = true) (hstage : s.stage = some .lpf)
    (hready : LpfReady s) :
    exec .lpf s = .next (finish { s with
      sigBuf := Memory.replacePrefix s.sigBuf (lowPass s.lpfN.toNat (s.sigs s.sigLen.toNat)) }) :=
  exec_done .lpf s _ .lpf hbusy hstage (stageLpf_of_ready s hready) rfl

/-- What an LPF that completes has done (R143). -/
theorem lpfEffect_of_exec {s t : State} (hrange : samplesInRange s.sigBuf) (hbusy : s.busy = true)
    (hstage : s.stage = some .lpf) (hready : LpfReady s) (h : exec .lpf s = .next t) : LpfEffect s t := by
  cases (exec_lpf_of_ready hbusy hstage hready).symm.trans h
  exact lpfEffect_finish (lpfEffect_of_ready s hready hrange)

theorem stageLpf_eq_cfg {s : State} (h : s.lpfN = 0) : stageLpf s = .error .cfg := by
  rw [stageLpf, if_pos (by simp [h])]

theorem stageLpf_eq_range {s : State} (hne : s.lpfN ≠ 0) (h : s.params.sigMax.val < s.sigLen.toNat) :
    stageLpf s = .error .range := by
  have hpos : ¬s.lpfN.toNat < 1 := by
    rw [Nat.lt_one_iff]
    exact fun hzero => hne (BitVec.eq_of_toNat_eq hzero)
  rw [stageLpf, if_neg hpos, if_pos h]

/-- Settles O13: the stage ends the command where it is ready, and otherwise its first failing requirement is raised. -/
theorem lpfWritesFlooredWindowMeans : Obligations.LpfWritesFlooredWindowMeans := by
  refine ⟨rfl, rfl, fun s hinv hbusy hstage => ⟨fun hready => ?_, fun hzero => ?_, fun hne hlen => ?_⟩⟩
  · exact ⟨_, exec_lpf_of_ready hbusy hstage hready,
      lpfEffect_finish (lpfEffect_of_ready s hready hinv.sigRange), finished_finish _⟩
  · exact exec_error .lpf s .lpf .cfg hbusy hstage (stageLpf_eq_cfg hzero)
  · exact exec_error .lpf s .lpf .range hbusy hstage (stageLpf_eq_range hne hlen)

/-- Settles O50: with LPF_N = 1 every window holds one sample, and the window of the first sample always does. -/
theorem lpfWithWindowOneIsTheIdentity : Obligations.LpfWithWindowOneIsTheIdentity := by
  intro s t hinv hbusy hstage hready h
  have heffect : LpfEffect s t := lpfEffect_of_exec hinv.sigRange hbusy hstage hready h
  refine ⟨lpfEffect_sigLen heffect, fun hone i => ?_, fun _ => ?_⟩
  · exact lpfEffect_sigAt_of_single heffect (by simp [hone])
  · obtain ⟨hwindow, -⟩ := hready
    exact lpfEffect_sigAt_of_single heffect (by omega)

/-- Settles O51: each output is the moving average of samples in the interval. -/
theorem lpfStaysInTheRangeOfItsInput : Obligations.LpfStaysInTheRangeOfItsInput := by
  intro s t a b hinv hbusy hstage hready h hin i hi
  exact lpfEffect_bounds (lpfEffect_of_exec hinv.sigRange hbusy hstage hready h) hready.1 hin hi

end Sys2Proof.Machine
end

section
/-! PROOFS. The symbol-rate sampler and slicer: SLICE as the one stage of its command, and the laws of the stage
(42_sampler_slicer.md R160, R161, R166). -/

namespace Sys2Proof.Machine

/-! ### A SLICE that completes -/

theorem sliceEffect_finish {s t : State} (h : SliceEffect s t) : SliceEffect s (finish t) := h

theorem exec_slice_of_ready {s : State} (hbusy : s.busy = true) (hstage : s.stage = some .slice)
    (hready : SliceReady s) :
    exec .slice s = .next (finish { s with
      symBuf := Memory.replacePrefix s.symBuf
        (sampleAndThreshold s.period.toNat s.bitDepth.toNat s.thresh.toNat (s.sigs s.sigLen.toNat))
      symLen := BitVec.ofNat 32 (s.sigLen.toNat / s.period.toNat) }) :=
  exec_done .slice s _ .slice hbusy hstage (stageSlice_of_ready s hready) rfl

/-- What a SLICE that completes has done (R160). -/
theorem sliceEffect_of_exec {s t : State} (hbusy : s.busy = true) (hstage : s.stage = some .slice)
    (hready : SliceReady s) (h : exec .slice s = .next t) : SliceEffect s t := by
  cases (exec_slice_of_ready hbusy hstage hready).symm.trans h
  exact sliceEffect_finish (sliceEffect_of_ready s hready)

/-! ### The errors of SLICE -/

/-- The first two requirements of SLICE fail exactly for R217's causes of E_CFG. -/
theorem cfgCause_slice_iff (s : State) :
    CfgCause s .slice ↔ s.period.toNat < 1 ∨ s.bitDepth.toNat < 1 ∨ 32 < s.bitDepth.toNat := by
  simp only [CfgCause, Nat.lt_one_iff, ← BitVec.toNat_inj, BitVec.toNat_zero, BitVec.ofNat_eq_ofNat]

theorem not_cfgCause_slice {s : State} (hperiod : s.period ≠ 0) (hpos : s.bitDepth ≠ 0)
    (hdepth : s.bitDepth.toNat ≤ 32) : ¬CfgCause s .slice :=
  not_or.2 ⟨hperiod, not_or.2 ⟨hpos, Nat.not_lt.2 hdepth⟩⟩

theorem stageSlice_eq_cfg {s : State} (h : CfgCause s .slice) : stageSlice s = .error .cfg := by
  rw [cfgCause_slice_iff] at h
  rcases stageSlice_cases s with ⟨-, e⟩ | ⟨hperiod, hdepth, -⟩ | ⟨hperiod, hdepth, -⟩ | ⟨⟨hperiod, hdepth, -⟩, -⟩
  · exact e
  all_goals omega

theorem stageSlice_eq_range {s : State} (hcfg : ¬CfgCause s .slice)
    (h : s.params.sigMax.val < s.sigLen.toNat) : stageSlice s = .error .range := by
  rw [cfgCause_slice_iff] at hcfg
  rcases stageSlice_cases s with ⟨hcause, -⟩ | ⟨-, -, -, e⟩ | ⟨-, -, hle, -⟩ | ⟨⟨-, -, hle, -⟩, -⟩
  · exact absurd hcause hcfg
  · exact e
  all_goals omega

theorem stageSlice_eq_ovf {s : State} (hcfg : ¬CfgCause s .slice)
    (hle : s.sigLen.toNat ≤ s.params.sigMax.val)
    (h : s.params.symMax.val < s.sigLen.toNat / s.period.toNat) : stageSlice s = .error .ovf := by
  rw [cfgCause_slice_iff] at hcfg
  rcases stageSlice_cases s with ⟨hcause, -⟩ | ⟨-, -, hlt, -⟩ | ⟨-, -, -, -, e⟩ | ⟨⟨-, -, -, hfit⟩, -⟩
  · exact absurd hcause hcfg
  · exact absurd hlt (Nat.not_lt.2 hle)
  · exact e
  · exact absurd h (Nat.not_lt.2 hfit)

/-- Settles O14: the stage ends the command where it is ready, and otherwise its first failing requirement is raised. -/
theorem sliceComparesWindowSumsExactly : Obligations.SliceComparesWindowSumsExactly := by
  refine ⟨rfl, rfl, fun s hbusy hstage => ⟨fun hready => ?_, fun hcause => ?_,
    fun hperiod hpos hdepth hlen => ?_, fun hperiod hpos hdepth hle hfit => ?_⟩⟩
  · exact ⟨_, exec_slice_of_ready hbusy hstage hready, sliceEffect_finish (sliceEffect_of_ready s hready),
      finished_finish _⟩
  · exact exec_error .slice s .slice .cfg hbusy hstage (stageSlice_eq_cfg hcause)
  · exact exec_error .slice s .slice .range hbusy hstage
      (stageSlice_eq_range (not_cfgCause_slice hperiod hpos hdepth) hlen)
  · exact exec_error .slice s .slice .ovf hbusy hstage
      (stageSlice_eq_ovf (not_cfgCause_slice hperiod hpos hdepth) hle hfit)

/-! ### The laws of SLICE -/

/-- A full window lies below SIG_LEN. -/
theorem window_index_lt {l p i j : Nat} (hi : i < l / p) (hj : j < p) : i * p + j < l :=
  calc i * p + j < i * p + p := Nat.add_lt_add_left hj _
    _ = (i + 1) * p := (Nat.succ_mul i p).symm
    _ ≤ l := (Nat.le_div_iff_mul_le (Nat.zero_lt_of_lt hj)).1 hi

/-- R166 (a), (b) for one symbol: no smaller sample in its own window and no greater threshold keep it 1. -/
theorem sliceEffect_symAt_mono {s s' t t' : State} (h : SliceEffect s t) (h' : SliceEffect s' t')
    (hsame : s' = { s with sigBuf := s'.sigBuf, thresh := s'.thresh })
    (hthresh : s'.thresh.toNat ≤ s.thresh.toNat) {i : Nat} (hi : i < s.sigLen.toNat / s.period.toNat)
    (hwindow : ∀ j, j < s.period.toNat →
      (s.sigAt (i * s.period.toNat + j)).toInt ≤ (s'.sigAt (i * s.period.toNat + j)).toInt)
    (hone : t.symAt i = true) : t'.symAt i = true := by
  obtain ⟨-, -, hbit, -⟩ := h
  obtain ⟨-, -, hbit', -⟩ := h'
  have hlen : s'.sigLen = s.sigLen := by rw [hsame]
  have hperiod : s'.period = s.period := by rw [hsame]
  have hdepth : s'.bitDepth = s.bitDepth := by rw [hsame]
  rw [hlen, hperiod, hdepth] at hbit'
  rw [hbit i hi, decide_eq_true_iff] at hone
  rw [hbit' i hi, decide_eq_true_iff]
  calc (s'.thresh.toNat : Int) * s.period.toNat
      ≤ s.thresh.toNat * s.period.toNat := by gcongr
    _ < (∑ j ∈ Finset.range s.period.toNat, (s.sigAt (i * s.period.toNat + j)).toInt)
          * 2 ^ s.bitDepth.toNat := hone
    _ ≤ (∑ j ∈ Finset.range s.period.toNat, (s'.sigAt (i * s.period.toNat + j)).toInt)
          * 2 ^ s.bitDepth.toNat := by
        gcongr with j hj
        exact hwindow j (Finset.mem_range.1 hj)

/-- Settles O53: a window that counts lies below SIG_LEN, so none of its samples is smaller in the second run. -/
theorem sliceIsMonotone : Obligations.SliceIsMonotone := by
  intro s s' t t' hbusy hstage hready hsame hthresh hsamples h h' i hi
  have heffect : SliceEffect s t := sliceEffect_of_exec hbusy hstage hready h
  have heffect' : SliceEffect s' t' := by
    rw [hsame] at h' ⊢
    exact sliceEffect_of_exec hbusy hstage hready h'
  exact sliceEffect_symAt_mono heffect heffect' hsame hthresh hi
    fun j hj => hsamples _ (window_index_lt hi hj)

/-- Settles O52: equal windows are monotone both ways. -/
theorem sliceReadsOnlyTheSymbolsOwnWindow : Obligations.SliceReadsOnlyTheSymbolsOwnWindow := by
  intro s s' t t' hbusy hstage hready hsame h h'
  obtain ⟨m, rfl⟩ : ∃ m, s' = { s with sigBuf := m } := ⟨_, hsame⟩
  have heffect : SliceEffect s t := sliceEffect_of_exec hbusy hstage hready h
  have heffect' : SliceEffect { s with sigBuf := m } t' := sliceEffect_of_exec hbusy hstage hready h'
  have ⟨_, hlen, _⟩ := heffect
  have ⟨_, hlen', _⟩ := heffect'
  refine ⟨BitVec.eq_of_toNat_eq (hlen.trans hlen'.symm), fun i hi hwindow => ?_⟩
  rw [Bool.eq_iff_iff]
  constructor
  · exact sliceEffect_symAt_mono heffect heffect' rfl le_rfl hi
      fun j hj => (congrArg BitVec.toInt (hwindow j hj)).le
  · exact sliceEffect_symAt_mono heffect' heffect rfl le_rfl hi
      fun j hj => (congrArg BitVec.toInt (hwindow j hj)).ge

end Sys2Proof.Machine
end

section
/-! PROOFS. Frame synchronisation: SYNC as the one stage of its command, the two scan bounds, and who may change
FOUND and NOTFOUND (43_framesync_deserializer.md R175 to R179). -/

namespace Sys2Proof.Machine

/-! ### A SYNC that completes -/

theorem syncEffect_finish {s t : State} (h : SyncEffect s t) : SyncEffect s (finish t) := h

theorem exec_sync_of_ready {s : State} (hbusy : s.busy = true) (hstage : s.stage = some .sync)
    (hready : SyncReady s) : exec .sync s = .next (finish (syncResult s)) :=
  exec_done .sync s _ .sync hbusy hstage (stageSync_of_ready s hready) rfl

theorem stageSync_eq_range {s : State} (h : s.params.symMax.val < s.symLen.toNat) :
    stageSync s = .error .range := by
  rw [stageSync, if_pos h]

/-- Settles O15: the stage ends the command where SYM_LEN fits, and raises E_RANGE where it does not. -/
theorem syncFindsTheFirstPreamble : Obligations.SyncFindsTheFirstPreamble := by
  refine ⟨rfl, rfl, fun s hbusy hstage => ⟨fun hready => ?_, fun hlen => ?_⟩⟩
  · exact ⟨_, exec_sync_of_ready hbusy hstage hready, syncEffect_finish (syncEffect s), finished_finish _,
      syncResult_flags s⟩
  · exact exec_error .sync s .sync .range hbusy hstage (stageSync_eq_range hlen)

/-! ### The two scan bounds -/

theorem syncResult_of_some {s : State} {hit : Nat}
    (h : findPreamble s.refscan s.symLen.toNat s.symAt = some hit) :
    syncResult s = { setSyncFlags true s with payloadStart := BitVec.ofNat 32 (hit + 8) } := by
  rw [syncResult, h]

theorem syncResult_of_none {s : State} (h : findPreamble s.refscan s.symLen.toNat s.symAt = none) :
    syncResult s = { setSyncFlags false s with payloadStart := 0xFFFFFFFF } := by
  rw [syncResult, h]

/-- REFSCAN = 0 tests the positions of REFSCAN = 1, then L - 8 (R176). -/
theorem findPreamble_false_eq {l : Nat} (hl : 8 ≤ l) (x : Nat → Symbol) :
    findPreamble false l x
      = (findPreamble true l x).or (if preambleAt x (l - 8) then some (l - 8) else none) := by
  have hcand : candidates false l = candidates true l + 1 := by
    simp only [candidates, Bool.false_eq_true, if_false, if_true]
    omega
  rw [findPreamble, hcand, List.range_succ, List.find?_append, List.find?_singleton]
  rfl

/-- The scan bounds answer alike, unless the first match is the last position, which only REFSCAN = 0 tests. -/
theorem findPreamble_bounds (l : Nat) (x : Nat → Symbol) :
    findPreamble false l x = findPreamble true l x
    ∨ (8 ≤ l ∧ findPreamble false l x = some (l - 8) ∧ findPreamble true l x = none) := by
  by_cases hl : 8 ≤ l
  · rw [findPreamble_false_eq hl]
    cases htrue : findPreamble true l x with
    | some hit => exact .inl rfl
    | none =>
      by_cases hp : preambleAt x (l - 8) = true
      · exact .inr ⟨hl, by simp [hp], rfl⟩
      · exact .inl (by simp [hp])
  · have hcand : candidates false l = candidates true l := by
      simp only [candidates, Bool.false_eq_true, if_false, if_true]
      omega
    exact .inl (by rw [findPreamble, hcand, findPreamble])

/-- Settles O54: one answer of the two scans gives one report; else REFSCAN = 0 has found L - 8, and REFSCAN = 1
nothing. -/
theorem scanBoundsDifferOnlyAtTheLastPosition : Obligations.ScanBoundsDifferOnlyAtTheLastPosition := by
  intro s t t' hbusy hstage hready h h'
  cases (exec_sync_of_ready (s := { s with refscan := false }) hbusy hstage hready).symm.trans h
  cases (exec_sync_of_ready (s := { s with refscan := true }) hbusy hstage hready).symm.trans h'
  rcases findPreamble_bounds s.symLen.toNat s.symAt with heq | ⟨hlen, hlast, hnone⟩
  · left
    cases hfind : findPreamble true s.symLen.toNat s.symAt with
    | some hit =>
      rw [syncResult_of_some (s := { s with refscan := false }) (heq.trans hfind),
        syncResult_of_some (s := { s with refscan := true }) hfind]
      exact ⟨rfl, rfl, rfl⟩
    | none =>
      rw [syncResult_of_none (s := { s with refscan := false }) (heq.trans hfind),
        syncResult_of_none (s := { s with refscan := true }) hfind]
      exact ⟨rfl, rfl, rfl⟩
  · right
    obtain ⟨hmatch, -, hfirst⟩ := (findPreamble_eq_some ..).1 hlast
    rw [syncResult_of_some (s := { s with refscan := false }) hlast,
      syncResult_of_none (s := { s with refscan := true }) hnone]
    refine ⟨hlen, (preambleAt_iff ..).1 hmatch, fun i hi hstands => ?_, rfl, ?_, rfl⟩
    · exact Bool.false_ne_true ((hfirst i hi).symm.trans ((preambleAt_iff ..).2 hstands))
    · have hend : s.symLen.toNat - 8 + 8 = s.symLen.toNat := by omega
      simp only [finish_payloadStart, hend, BitVec.ofNat_toNat, BitVec.setWidth_eq]

/-! ### Who changes FOUND and NOTFOUND -/

/-- FOUND and NOTFOUND are in `t` as in `s`. -/
def SameSyncFlags (s t : State) : Prop := t.found = s.found ∧ t.notfound = s.notfound

/-- The ENGINE's turn changes the flags only by a SYNC stage (R61, R179). -/
theorem engineTurn_syncFlags {s t : State} (h : engineTurn s = .next t) :
    SameSyncFlags s t ∨ (s.busy = true ∧ s.stage = some .sync) := by
  unfold engineTurn at h
  split at h
  case isTrue hbusy =>
    by_cases hstage : s.stage = some .sync
    · exact .inr ⟨hbusy, hstage⟩
    · obtain ⟨-, -, -, -, -, hsync⟩ := stagesWriteOnlyWhatIsListed s.op s t hbusy h
      exact .inl (hsync hstage).2
  case isFalse =>
    cases h
    exact .inl ⟨rfl, rfl⟩

/-- A CMD write changes neither flag: acceptance and its refusals leave them (R195). -/
theorem writeCommand_syncFlags {w : Word} {s t : State} (h : writeCommand w s = .next t) :
    SameSyncFlags s t := by
  rcases writeCommand_cases w s with ⟨-, e⟩ | ⟨-, -, e⟩ | ⟨-, -, -, e⟩ | ⟨-, -, i, -, e⟩ <;>
    cases e.symm.trans h <;> exact ⟨rfl, rfl⟩

/-- A register write changes the flags only at STATUS of an idle block (R73, R227). -/
theorem hostWrite_syncFlags (off : Nat) (w : Word) (s : State) :
    SameSyncFlags s (hostWrite off w s) ∨ (s.busy = false ∧ off = 0x04) := by
  cases hbusy : s.busy with
  | true =>
    rw [hostWrite_busy off w s hbusy]
    exact .inl ⟨rfl, rfl⟩
  | false =>
    cases hreg : regAt off with
    | none =>
      rw [hostWrite, hreg, ite_self]
      exact .inl ⟨rfl, rfl⟩
    | some r =>
      rw [hostWrite_reg w s hreg hbusy]
      by_cases hr : r = .status
      · exact .inr ⟨rfl, (regAt_status_iff off).1 (hr ▸ hreg)⟩
      · exact .inl (writeReg_flags r w s hr)

theorem busWrite_syncFlags {off : Nat} {w : Word} {s t : State} (h : busWrite off w s = .next t) :
    SameSyncFlags s t ∨ (s.busy = false ∧ off = 0x04) := by
  rcases busWrite_cases off w s with ⟨-, e⟩ | ⟨-, -, e⟩ | ⟨-, -, e⟩
  · cases e.symm.trans h
    exact .inl ⟨rfl, rfl⟩
  · exact .inl (writeCommand_syncFlags (e.symm.trans h))
  · cases e.symm.trans h
    exact hostWrite_syncFlags off w s

theorem busRead_syncFlags (off : Nat) (s : State) : SameSyncFlags s (busRead off s) := by
  rw [busRead_frame]
  exact ⟨rfl, rfl⟩

/-- The bus address of a register offset is that offset above BASE (R64). -/
theorem eq_base_add_of_busOffset {p : Config.Params} {a off : Nat} (h : busOffset p a = some off) :
    a = p.base + off := by
  have hwf : wellFormedBusAddress p a = true := by rw [← busOffset_isSome_iff, h]; rfl
  obtain ⟨off', hlt, h4, rfl⟩ := exists_offset_of_wellFormed hwf
  rw [busOffset_base p off' hlt h4] at h
  cases h
  rfl

/-- What can change the flags, for each entry of the schedule. -/
theorem eventStep_syncFlags {e : Event} {s t : State} (h : eventStep e s = .next t) :
    SameSyncFlags s t
    ∨ (e = .engine ∧ s.busy = true ∧ s.stage = some .sync)
    ∨ (s.busy = false ∧ ∃ w, e = .write (s.params.base + 0x04) w)
    ∨ e = .assertRst := by
  cases e with
  | engine => exact (engineTurn_syncFlags h).imp id fun hsync => .inl ⟨rfl, hsync⟩
  | assertRst => exact .inr (.inr (.inr rfl))
  | releaseRst =>
    cases h
    exact .inl ⟨rfl, rfl⟩
  | read a =>
    simp only [eventStep] at h
    split at h <;> cases h
    exact .inl (busRead_syncFlags _ s)
  | write a w =>
    simp only [eventStep] at h
    split at h
    next => cases h
    next off hoff =>
      rcases busWrite_syncFlags h with hsame | ⟨hidle, rfl⟩
      · exact .inl hsame
      · exact .inr (.inr (.inl ⟨hidle, w, by rw [eq_base_add_of_busOffset hoff]⟩))

/-- Settles O45: an empty schedule gives the ENGINE's turn, and an entry of it is one of its kinds. -/
theorem syncFlagsChangeOnlyByTheirRules : Obligations.SyncFlagsChangeOnlyByTheirRules := by
  intro s t h hchange
  have hdiffer : ¬SameSyncFlags s t := fun hsame => hchange.elim (· hsame.1) (· hsame.2)
  cases hagenda : s.agenda with
  | nil =>
    obtain ⟨hbusy, hstage⟩ :=
      (engineTurn_syncFlags ((step_nil s hagenda).symm.trans h)).resolve_left hdiffer
    exact .inl ⟨hbusy, hstage, .inl rfl⟩
  | cons e rest =>
    rcases (eventStep_syncFlags ((step_cons s e rest hagenda).symm.trans h)).resolve_left hdiffer with
      ⟨rfl, hbusy, hstage⟩ | ⟨hidle, w, rfl⟩ | rfl
    · exact .inl ⟨hbusy, hstage, .inr rfl⟩
    · exact .inr (.inl ⟨hidle, w, rest, rfl⟩)
    · exact .inr (.inr ⟨rest, rfl⟩)

end Sys2Proof.Machine
end

section
/-! PROOFS. The deserializer: DEC as the one stage of its command, and its law with ENC
(43_framesync_deserializer.md R181, R185). -/

namespace Sys2Proof.Machine

/-! ### A DEC that completes -/

theorem decEffect_finish {s t : State} (h : DecEffect s t) : DecEffect s (finish t) := h

theorem exec_dec_of_ready {s : State} (hbusy : s.busy = true) (hstage : s.stage = some .dec)
    (hready : DecReady s) :
    exec .dec s = .next (finish { s with
      byteBuf := Memory.replacePrefix s.byteBuf
        (decodeSymbols s.symAt s.payloadStart.toNat s.symLen.toNat)
      byteLen := BitVec.ofNat 32 ((s.symLen.toNat - s.payloadStart.toNat) / 8) }) :=
  exec_done .dec s _ .dec hbusy hstage (stageDec_of_ready s hready) rfl

/-- What a DEC that completes has done (R181). -/
theorem decEffect_of_exec {s t : State} (hbusy : s.busy = true) (hstage : s.stage = some .dec)
    (hready : DecReady s) (h : exec .dec s = .next t) : DecEffect s t := by
  cases (exec_dec_of_ready hbusy hstage hready).symm.trans h
  exact decEffect_finish (decEffect_of_ready s hready)

/-! ### The errors of DEC -/

theorem stageDec_eq_range {s : State} (h : RangeCause s .dec) : stageDec s = .error .range := by
  rcases stageDec_cases s with ⟨-, e⟩ | ⟨hlen, hstart, -⟩ | ⟨⟨hlen, hstart, -⟩, -⟩
  · exact e
  all_goals
    simp only [RangeCause] at h
    omega

theorem stageDec_eq_ovf {s : State} (hlen : s.symLen.toNat ≤ s.params.symMax.val)
    (hstart : s.payloadStart.toNat ≤ s.symLen.toNat)
    (h : s.params.byteMax.val < (s.symLen.toNat - s.payloadStart.toNat) / 8) : stageDec s = .error .ovf := by
  rcases stageDec_cases s with ⟨hcause, -⟩ | ⟨-, -, -, e⟩ | ⟨⟨-, -, hfit⟩, -⟩
  · omega
  · exact e
  · omega

/-- Settles O16: the stage ends the command where it is ready, and otherwise its first failing requirement is raised. -/
theorem decWritesOneBytePerFullGroup : Obligations.DecWritesOneBytePerFullGroup := by
  refine ⟨rfl, rfl, fun s hbusy hstage =>
    ⟨fun hready => ?_, fun hlen => ?_, fun hstart => ?_, fun hlen hstart hfit => ?_⟩⟩
  · exact ⟨_, exec_dec_of_ready hbusy hstage hready, decEffect_finish (decEffect_of_ready s hready),
      finished_finish _⟩
  · exact exec_error .dec s .dec .range hbusy hstage (stageDec_eq_range (.inl hlen))
  · exact exec_error .dec s .dec .range hbusy hstage (stageDec_eq_range (.inr hstart))
  · exact exec_error .dec s .dec .ovf hbusy hstage (stageDec_eq_ovf hlen hstart hfit)

/-! ### DEC after ENC -/

/-- What an ENC that completes has done (R120). -/
theorem encEffect_of_exec {s t : State} (hbusy : s.busy = true) (hstage : s.stage = some .enc)
    (hready : EncReady s) (h : exec .enc s = .next t) : EncEffect s t := by
  cases (exec_done .enc s _ .enc hbusy hstage (stageEnc_of_ready s hready) rfl).symm.trans h
  exact encEffect_finish (encEffect_of_ready s hready)

theorem encEffect_params {s t : State} (h : EncEffect s t) : t.params = s.params :=
  (congrArg State.params h.1 :)

/-- A byte is fixed by its bits in the order of the wire (R91). -/
theorem byte_eq_of_symbols {a b : Byte} (h : ∀ j, j < 8 → a.getLsbD (7 - j) = b.getLsbD (7 - j)) :
    a = b := by
  refine BitVec.eq_of_getLsbD_eq fun i hi => ?_
  have hbit := h (7 - i) (by omega)
  rwa [Nat.sub_sub_self (by omega)] at hbit

/-- Settles O48: from symbol 8 on, ENC has written one full group per byte, and DEC reads the groups back. -/
theorem decRecoversWhatEncEncoded : Obligations.DecRecoversWhatEncEncoded := by
  intro s t u hbusy hstage hready henc hdec
  have heffect : EncEffect s t := encEffect_of_exec hbusy hstage hready henc
  have hparams : t.params = s.params := encEffect_params heffect
  obtain ⟨-, hlen, -, hpayload, -⟩ := heffect
  obtain ⟨hbytes, hsyms⟩ := hready
  have hstart : (8 : Word).toNat = 8 := rfl
  have hgroups : (t.symLen.toNat - (8 : Word).toNat) / 8 = s.byteLen.toNat := by omega
  have hready' : DecReady { t with payloadStart := 8, busy := true, done := false, stage := some .dec } := by
    refine ⟨?_, ?_, ?_⟩ <;> simp only [hparams] <;> omega
  obtain ⟨-, hcount, hbits, -⟩ := decEffect_of_exec rfl rfl hready' hdec
  refine ⟨BitVec.eq_of_toNat_eq (hcount.trans hgroups), fun c hc => byte_eq_of_symbols fun j hj => ?_⟩
  calc (u.byteAt c).getLsbD (7 - j)
      = t.symAt (8 + 8 * c + j) := hbits c j (hc.trans_eq hgroups.symm) hj
    _ = (s.byteAt c).getLsbD (7 - j) := hpayload c j hc hj

end Sys2Proof.Machine
end

section
/-! PROOFS. The CMD write in its branches, and NOP (44_sequencer_commands.md R195, R200). -/

namespace Sys2Proof.Machine

/-! ### What a CMD write leaves -/

/-- CODE 1 and no stage (R195 third branch, R216). -/
theorem errInfoWord_commandErrorEntry (s : State) : (commandErrorEntry s).errInfoWord = 1 := by
  rw [errInfoWord_eq]
  rfl

/-- The first stage has the command's own number, but for TX and RX, which start with ENC and RECT (R196). -/
theorem stageCode_firstStage (i : Instr) :
    (stageCode (firstStage i)).toNat
      = if (opcode i).toNat = 8 then 1 else if (opcode i).toNat = 9 then 3 else (opcode i).toNat := by
  cases i <;> rfl

/-- Settles O8: the four branches of a CMD write, each under its own guard and excluded by the other three. -/
theorem commandWriteIsAcceptedOrDroppedOrRefused : Obligations.CommandWriteIsAcceptedOrDroppedOrRefused := by
  intro s w rest hrst hagenda
  rw [step_writeCommand s w rest hrst hagenda]
  rcases writeCommand_cases w { s with agenda := rest } with
    ⟨(hbusy : s.busy = true), e⟩ | ⟨(hidle : s.busy = false), (herr : s.err = true), e⟩
    | ⟨(hidle : s.busy = false), (hclean : s.err = false), hrefused, e⟩
    | ⟨(hidle : s.busy = false), (hclean : s.err = false), i, hdecode, e⟩
  · exact ⟨_, e, fun _ => rfl, by simp [hbusy], by simp [hbusy], by simp [hbusy]⟩
  · exact ⟨_, e, by simp [hidle], fun _ _ => rfl, by simp [herr], by simp [herr]⟩
  · have hillegal := (decode_error_iff w).1 hrefused
    refine ⟨_, e, by simp [hidle], by simp [hclean], fun _ _ _ => ⟨rfl, errInfoWord_commandErrorEntry _⟩, ?_⟩
    intro _ _ hzero hopc
    omega
  · have hword : w.toNat = (opcode i).toNat := (decode_ok_iff w i).1 hdecode
    have hlt := opcode_lt_ten i
    have hmod : w.toNat % 16 = (opcode i).toNat := by omega
    refine ⟨_, e, by simp [hidle], by simp [hclean], ?_, fun _ _ _ _ => ⟨rfl, hmod.symm, ?_⟩⟩
    · intro _ _ hillegal
      omega
    · rw [hmod]
      exact stageCode_firstStage i

/-! ### NOP -/

/-- Settles O9: acceptance gives NOP no stage, so its one ENGINE step ends it. -/
theorem nopFinishesInOneEngineStep : Obligations.NopFinishesInOneEngineStep := by
  refine ⟨rfl, fun s hidle hclean => exec_idle .nop s hidle hclean, fun s hbusy hstage => ?_, _, rfl, rfl⟩
  have hfinish : finish s = { s with busy := false, done := true } := by rw [finish, ← hstage]
  rw [exec_busy .nop s hbusy, engineStep_none .nop s hstage, hfinish]

end Sys2Proof.Machine
end

section
/-! PROOFS. The ENGINE steps of TX and RX, stage by stage (44_sequencer_commands.md R203 to R205). -/

namespace Sys2Proof.Machine

/-! ### A stage that is ready -/

/-- The effect of a stage, the handshake set aside. -/
def StageEffect (st : Stage) (s t : State) : Prop :=
  match st with
  | .enc => EncEffect s t
  | .mod => ModEffect s t
  | .rect => RectEffect s t
  | .lpf => LpfEffect s t
  | .slice => SliceEffect s t
  | .sync => SyncEffect s t
  | .dec => DecEffect s t

/-- A stage that has what it requires raises no error and has its effect; RECT and LPF need legal samples to be
exact (R45). -/
theorem runStage_of_ready {st : Stage} {s : State}
    (hrange : st = .rect ∨ st = .lpf → samplesInRange s.sigBuf) (h : StageReady st s) :
    ∃ t, runStage st s = .ok t ∧ StageEffect st s t := by
  cases st with
  | enc => exact ⟨_, stageEnc_of_ready s h, encEffect_of_ready s h⟩
  | mod => exact ⟨_, stageMod_of_ready s h, modEffect_of_ready s h⟩
  | rect => exact ⟨_, stageRect_of_ready s h, rectEffect s (hrange (.inl rfl))⟩
  | lpf => exact ⟨_, stageLpf_of_ready s h, lpfEffect_of_ready s h (hrange (.inr rfl))⟩
  | slice => exact ⟨_, stageSlice_of_ready s h, sliceEffect_of_ready s h⟩
  | sync => exact ⟨_, stageSync_of_ready s h, syncEffect s⟩
  | dec => exact ⟨_, stageDec_of_ready s h, decEffect_of_ready s h⟩

/-- What follows the stage writes the handshake only, which an effect sets aside. -/
theorem stageEffect_next_stage {st : Stage} {s t : State} (st' : Stage) (h : StageEffect st s t) :
    StageEffect st s { t with stage := some st' } := by
  cases st <;> exact h

theorem stageEffect_finish {st : Stage} {s t : State} (h : StageEffect st s t) : StageEffect st s (finish t) := by
  cases st <;> exact h

/-- A stage writes no part of the handshake itself, so the command goes on as it was (R197). -/
theorem goesOn_next_stage {st : Stage} {s t : State} (hbusy : s.busy = true) (h : runStage st s = .ok t)
    (st' : Stage) : GoesOn s { t with stage := some st' } st' := by
  rw [runStage_frame st s t h]
  exact ⟨hbusy, rfl, rfl⟩

theorem goesOn_trans {s t u : State} {st st' : Stage} (h : GoesOn s t st) (h' : GoesOn t u st') :
    GoesOn s u st' := by
  obtain ⟨-, -, hdone⟩ := h
  obtain ⟨hbusy, hstage, hdone'⟩ := h'
  exact ⟨hbusy, hstage, hdone'.trans hdone⟩

/-- Every stage keeps the legal range of the samples (R45). -/
theorem samplesInRange_of_runStage {st : Stage} {s t : State} (hrange : samplesInRange s.sigBuf)
    (h : runStage st s = .ok t) : samplesInRange t.sigBuf := by
  have hready := stageReady_of_runStage_ok hrange h
  cases st with
  | mod =>
    cases (stageMod_of_ready s hready).symm.trans h
    exact samplesInRange_modulate s _ _ _ _ hrange
  | rect =>
    cases (stageRect_of_ready s hready).symm.trans h
    exact samplesInRange_rectify s _ hrange
  | lpf =>
    cases (stageLpf_of_ready s hready).symm.trans h
    exact samplesInRange_lowPass s _ _ hready.1 hrange
  | _ =>
    rw [runStage_eq_listedWrites h]
    exact hrange

/-! ### An ENGINE step whose stage is ready -/

theorem exec_goesOn {i : Instr} {st st' : Stage} {s : State}
    (hrange : st = .rect ∨ st = .lpf → samplesInRange s.sigBuf)
    (hbusy : s.busy = true) (hstage : s.stage = some st) (hready : StageReady st s)
    (hnext : ∀ found, nextStage i st found = .stage st') :
    ∃ t, exec i s = .next t ∧ StageEffect st s t ∧ GoesOn s t st' := by
  obtain ⟨t, hrun, heffect⟩ := runStage_of_ready hrange hready
  exact ⟨_, exec_stage i s t st st' hbusy hstage hrun (hnext _), stageEffect_next_stage st' heffect,
    goesOn_next_stage hbusy hrun st'⟩

theorem exec_finishes {i : Instr} {st : Stage} {s : State}
    (hrange : st = .rect ∨ st = .lpf → samplesInRange s.sigBuf)
    (hbusy : s.busy = true) (hstage : s.stage = some st) (hready : StageReady st s)
    (hnext : ∀ found, nextStage i st found = .done) :
    ∃ t, exec i s = .next t ∧ StageEffect st s t ∧ Finished t := by
  obtain ⟨t, hrun, heffect⟩ := runStage_of_ready hrange hready
  exact ⟨_, exec_done i s t st hbusy hstage hrun (hnext _), stageEffect_finish heffect, finished_finish t⟩

/-- Every ENGINE step leaves legal samples for the next (R45). -/
theorem samplesInRange_of_exec {i : Instr} {s t : State} (hrange : samplesInRange s.sigBuf)
    (hbusy : s.busy = true) (h : exec i s = .next t) : samplesInRange t.sigBuf := by
  rw [exec_busy i s hbusy] at h
  rcases engineStep_cases i s with
    ⟨-, e⟩ | ⟨st, -, ⟨c, -, e⟩ | ⟨u, hu, ⟨-, e⟩ | ⟨st', -, e⟩ | ⟨-, e⟩⟩⟩ <;> cases e.symm.trans h
  · exact hrange
  · exact hrange
  · exact samplesInRange_of_runStage (t := u) hrange hu
  · exact samplesInRange_of_runStage (t := u) hrange hu

/-- SYNC in RX, by what it finds: DEC follows a hit only (R196, R205). -/
theorem exec_rx_sync_of_found {s : State} (hbusy : s.busy = true) (hstage : s.stage = some .sync)
    (hready : SyncReady s) (hfound : (syncResult s).found = true) :
    exec .rx s = .next { syncResult s with stage := some .dec } :=
  exec_stage .rx s _ .sync .dec hbusy hstage (stageSync_of_ready s hready) (by rw [hfound]; rfl)

theorem exec_rx_sync_of_not_found {s : State} (hbusy : s.busy = true) (hstage : s.stage = some .sync)
    (hready : SyncReady s) (hlost : (syncResult s).found = false) :
    exec .rx s = .next (finish (syncResult s)) :=
  exec_done .rx s _ .sync hbusy hstage (stageSync_of_ready s hready) (by rw [hlost]; rfl)

/-- The SYNC step of RX; a preamble that it finds ends inside SYM. -/
theorem exec_rx_sync {s : State} (hbusy : s.busy = true) (hstage : s.stage = some .sync) (hready : SyncReady s) :
    ∃ t, exec .rx s = .next t ∧ SyncEffect s t
      ∧ (t.found = true → GoesOn s t .dec ∧ t.payloadStart.toNat ≤ s.symLen.toNat)
      ∧ (t.found = false → Finished t) := by
  cases hfound : (syncResult s).found with
  | true =>
    exact ⟨_, exec_rx_sync_of_found hbusy hstage hready hfound,
      stageEffect_next_stage (st := .sync) .dec (syncEffect s),
      fun _ => ⟨goesOn_next_stage (st := .sync) hbusy (stageSync_of_ready s hready) .dec,
        syncResult_payloadStart_le s hfound⟩,
      by simp [hfound]⟩
  | false =>
    exact ⟨_, exec_rx_sync_of_not_found hbusy hstage hready hfound, syncEffect_finish (syncEffect s),
      by simp [hfound], fun _ => finished_finish _⟩

/-! ### The statements on single steps -/

/-- Settles O19: the step of each stage, by whether the sequencer's table goes on or ends after it. -/
theorem compositeStagesRunUnderTheirOwnRequirement :
    Obligations.CompositeStagesRunUnderTheirOwnRequirement := by
  intro s hinv hbusy
  have hrange {st : Stage} : st = .rect ∨ st = .lpf → samplesInRange s.sigBuf := fun _ => hinv.sigRange
  refine ⟨fun hstage hready => exec_goesOn hrange hbusy hstage hready fun _ => rfl,
    fun hstage hready => exec_finishes hrange hbusy hstage hready fun _ => rfl,
    fun hstage hready => exec_goesOn hrange hbusy hstage hready fun _ => rfl,
    fun hstage hready => exec_goesOn hrange hbusy hstage hready fun _ => rfl,
    fun hstage hready => exec_goesOn hrange hbusy hstage hready fun _ => rfl,
    fun hstage hready => ?_,
    fun hstage hready => exec_finishes hrange hbusy hstage hready fun _ => rfl⟩
  obtain ⟨t, hexec, heffect, hhit, hlost⟩ := exec_rx_sync hbusy hstage hready
  exact ⟨t, hexec, heffect, fun hfound => (hhit hfound).1, hlost⟩

/-- Settles O21: a scan without a match leaves the sentinel, and after it RX has no stage left. -/
theorem rxWithoutPreambleSkipsDec : Obligations.RxWithoutPreambleSkipsDec := by
  intro s hbusy hclean hstage hready hscan
  have hnone : findPreamble s.refscan s.symLen.toNat s.symAt = none :=
    (findPreamble_eq_none ..).2 fun i hi => Bool.eq_false_iff.2 fun hmatch =>
      hscan i ((lt_candidates_iff ..).1 hi) ((preambleAt_iff ..).1 hmatch)
  have hresult := syncResult_of_none hnone
  rw [exec_rx_sync_of_not_found hbusy hstage hready (by rw [hresult]; rfl), hresult]
  simp only [finish, setSyncFlags, hclean, Bool.not_false]

/-! ### What a stage leaves to the later ones -/

/-- An effect gives back every register that its stage does not write, so what is asked of those alone is kept. -/
theorem rectEffect_restores {s t : State} (h : RectEffect s t) (P : State → Prop) (hs : P s) :
    P { t with sigBuf := s.sigBuf, busy := s.busy, done := s.done, stage := s.stage } :=
  h.1.symm ▸ hs

theorem lpfEffect_restores {s t : State} (h : LpfEffect s t) (P : State → Prop) (hs : P s) :
    P { t with sigBuf := s.sigBuf, busy := s.busy, done := s.done, stage := s.stage } :=
  h.1.symm ▸ hs

theorem encEffect_sps {s t : State} (h : EncEffect s t) : t.sps = s.sps :=
  (congrArg State.sps h.1 :)

/-- ENC leaves as many symbols as SYM can take, so MOD lacks a sample rate or SIG elements at most. -/
theorem encEffect_modReady {s t : State} (h : EncEffect s t) (hready : EncReady s) (hsps : 1 ≤ s.sps)
    (hfit : (8 + 8 * s.byteLen.toNat) * s.sps ≤ s.params.sigMax.val) : ModReady t := by
  have hparams := encEffect_params h
  have hsame := encEffect_sps h
  obtain ⟨-, hlen, -⟩ := h
  obtain ⟨-, hsyms⟩ := hready
  rw [ModReady, hparams, hsame, hlen]
  exact ⟨hsps, hsyms, hfit⟩

/-- BYTE can take the bytes of all the symbols that SLICE would write. -/
def SlicedBytesFit (s : State) : Prop := s.sigLen.toNat / s.period.toNat / 8 ≤ s.params.byteMax.val

/-- SLICE leaves at most as many symbols as SYM can take. -/
theorem sliceEffect_syncReady {s t : State} (h : SliceEffect s t) (hready : SliceReady s) : SyncReady t := by
  have hparams : t.params = s.params := (congrArg State.params h.1 :)
  obtain ⟨-, hlen, -⟩ := h
  obtain ⟨-, -, -, hfit⟩ := hready
  rw [SyncReady, hparams, hlen]
  exact hfit

theorem sliceEffect_bytesFit {s t : State} (h : SliceEffect s t) (hfit : SlicedBytesFit s) :
    t.symLen.toNat / 8 ≤ t.params.byteMax.val := by
  have hparams : t.params = s.params := (congrArg State.params h.1 :)
  obtain ⟨-, hlen, -⟩ := h
  rw [hparams, hlen]
  exact hfit

/-- SYNC leaves SYM as it is, so DEC needs a payload that starts inside SYM, and room for its bytes. -/
theorem syncEffect_decReady {s t : State} (h : SyncEffect s t) (hready : SyncReady s)
    (hstart : t.payloadStart.toNat ≤ s.symLen.toNat)
    (hfit : (s.symLen.toNat - t.payloadStart.toNat) / 8 ≤ s.params.byteMax.val) : DecReady t := by
  have hparams : t.params = s.params := (congrArg State.params h.1 :)
  have hlen : t.symLen = s.symLen := (congrArg State.symLen h.1 :)
  rw [DecReady, hparams, hlen]
  exact ⟨hready, hstart, hfit⟩

/-! ### The statements on whole commands -/

/-- Settles O17: ENC's result has all that MOD requires. -/
theorem txRunsEncThenMod : Obligations.TxRunsEncThenMod := by
  refine ⟨rfl, fun s hbusy hstage henc hsps hfit => ?_⟩
  obtain ⟨t, hexec, heffect, hgoes⟩ :=
    exec_goesOn (i := .tx) (st := .enc) (by simp) hbusy hstage henc fun _ => rfl
  have ⟨hbusy', hstage', _⟩ := hgoes
  obtain ⟨u, hexec', heffect', hfinished⟩ :=
    exec_finishes (i := .tx) (st := .mod) (by simp) hbusy' hstage' (encEffect_modReady heffect henc hsps hfit)
      fun _ => rfl
  have hsame : t.sps = s.sps := encEffect_sps heffect
  have hsyms : u.symLen = t.symLen := (congrArg State.symLen heffect'.1 :)
  have ⟨_, hsymLen, _⟩ := heffect
  have ⟨_, hsigLen, _⟩ := heffect'
  refine ⟨t, u, hexec, heffect, hgoes, hexec', heffect', hfinished, ?_, ?_⟩
  · rw [hsyms, hsymLen]
  · rw [hsigLen, hsymLen, hsame]

/-- Settles O18: each stage leaves what the next one requires; DEC's payload starts inside SYM because SYNC found it
there. -/
theorem rxRunsItsStagesInOrder : Obligations.RxRunsItsStagesInOrder := by
  refine ⟨rfl, fun s hinv hbusy hstage hlpf hslice hfit => ?_⟩
  have hrange := hinv.sigRange
  obtain ⟨t1, hexec1, hrect, hgoes1⟩ :=
    exec_goesOn (i := .rx) (st := .rect) (fun _ => hrange) hbusy hstage hlpf.2 fun _ => rfl
  have ⟨hbusy1, hstage1, _⟩ := hgoes1
  have hrange1 := samplesInRange_of_exec hrange hbusy hexec1
  have hlpf1 : LpfReady t1 := rectEffect_restores hrect LpfReady hlpf
  have hslice1 : SliceReady t1 := rectEffect_restores hrect SliceReady hslice
  have hfit1 : SlicedBytesFit t1 := rectEffect_restores hrect SlicedBytesFit hfit
  obtain ⟨t2, hexec2, hmean, hgoes2⟩ :=
    exec_goesOn (i := .rx) (st := .lpf) (fun _ => hrange1) hbusy1 hstage1 hlpf1 fun _ => rfl
  have ⟨hbusy2, hstage2, _⟩ := hgoes2
  have hslice2 : SliceReady t2 := lpfEffect_restores hmean SliceReady hslice1
  have hfit2 : SlicedBytesFit t2 := lpfEffect_restores hmean SlicedBytesFit hfit1
  obtain ⟨t3, hexec3, hbits, hgoes3⟩ :=
    exec_goesOn (i := .rx) (st := .slice) (by simp) hbusy2 hstage2 hslice2 fun _ => rfl
  have ⟨hbusy3, hstage3, _⟩ := hgoes3
  have hsync3 : SyncReady t3 := sliceEffect_syncReady hbits hslice2
  obtain ⟨t4, hexec4, hscan, hhit, hlost⟩ := exec_rx_sync hbusy3 hstage3 hsync3
  have hgoes : GoesOn s t3 .sync := goesOn_trans hgoes1 (goesOn_trans hgoes2 hgoes3)
  refine ⟨t1, t2, t3, t4, hexec1, hrect, hgoes1, hexec2, hmean, goesOn_trans hgoes1 hgoes2, hexec3, hbits, hgoes,
    hexec4, hscan, fun hfound => ?_, hlost⟩
  obtain ⟨hgoes4, hstart⟩ := hhit hfound
  have ⟨hbusy4, hstage4, _⟩ := hgoes4
  have hdec4 : DecReady t4 := syncEffect_decReady hscan hsync3 hstart
    ((Nat.div_le_div_right (Nat.sub_le _ _)).trans (sliceEffect_bytesFit hbits hfit2))
  exact ⟨goesOn_trans hgoes hgoes4,
    exec_finishes (i := .rx) (st := .dec) (by simp) hbusy4 hstage4 hdec4 fun _ => rfl⟩

end Sys2Proof.Machine
end

section
/-! PROOFS. Every command completes (44_sequencer_commands.md R197, R199). -/

namespace Sys2Proof.Machine

/-! ### How many ENGINE steps are left -/

/-- The ENGINE steps that a command takes from STAGE on, at most (R196). -/
def stepsLeft (i : Instr) (st : Option Stage) : Nat :=
  match i, st with
  | .tx, some .enc => 2
  | .rx, some .rect => 5
  | .rx, some .lpf => 4
  | .rx, some .slice => 3
  | .rx, some .sync => 2
  | _, _ => 1

theorem stepsLeft_pos (i : Instr) (st : Option Stage) : 0 < stepsLeft i st := by
  unfold stepsLeft
  split <;> decide

theorem stepsLeft_le_five (i : Instr) (st : Option Stage) : stepsLeft i st ≤ 5 := by
  unfold stepsLeft
  split <;> decide

/-- The sequencer's table only goes forward (R196). -/
theorem stepsLeft_lt_of_nextStage {i : Instr} {st st' : Stage} {found : Bool}
    (h : nextStage i st found = .stage st') : stepsLeft i (some st') < stepsLeft i (some st) := by
  unfold nextStage at h
  split at h <;> (try split at h) <;> cases h <;> decide

/-- On the table, a stage that has run is followed by another one or by the end (R196). -/
theorem nextStage_ne_offTable {i : Instr} {st : Stage} (h : sequencerOnTable i (some st) = true) (found : Bool) :
    nextStage i st found ≠ .offTable := by
  revert h
  cases i <;> cases st <;> cases found <;> decide

/-! ### One ENGINE step of a sound state -/

/-- The command has ended, with exactly one of DONE and ERR (R199). -/
def Completed (t : State) : Prop :=
  t.busy = false ∧ ((t.done = true ∧ t.err = false) ∨ (t.done = false ∧ t.err = true))

/-- An ENGINE step completes the command or brings it nearer to its end. -/
theorem step_completes_or_advances {s : State} (hinv : s.Inv) (hbusy : s.busy = true) (hagenda : s.agenda = []) :
    ∃ t, step s = .next t
      ∧ (Completed t
        ∨ (t.busy = true ∧ t.agenda = [] ∧ stepsLeft t.op t.stage < stepsLeft s.op s.stage)) := by
  obtain ⟨hdone, hclean⟩ := hinv.busyClean hbusy
  have hstep : step s = engineStep s.op s := by
    rw [step_nil s hagenda, engineTurn, if_pos hbusy, exec_busy _ _ hbusy]
  rw [hstep]
  rcases engineStep_cases s.op s with
    ⟨-, e⟩ | ⟨st, hstage, ⟨c, -, e⟩ | ⟨u, hu, ⟨-, e⟩ | ⟨st', hnext, e⟩ | ⟨hoff, -⟩⟩⟩
  · exact ⟨_, e, .inl ⟨rfl, .inl ⟨rfl, hclean⟩⟩⟩
  · exact ⟨_, e, .inl ⟨rfl, .inr ⟨hdone, rfl⟩⟩⟩
  · exact ⟨_, e, .inl ⟨rfl, .inl ⟨rfl, (runStage_ok_err st s u hu).trans hclean⟩⟩⟩
  · refine ⟨_, e, .inr ?_⟩
    rw [runStage_frame st s u hu, hstage]
    exact ⟨hbusy, hagenda, stepsLeft_lt_of_nextStage hnext⟩
  · exact absurd hoff (nextStage_ne_offTable (hstage ▸ hinv.onTable hbusy) u.found)

/-- As many steps as are left are enough. -/
theorem completes_within (n : Nat) {s : State} (hinv : s.Inv) (hbusy : s.busy = true) (hagenda : s.agenda = [])
    (hleft : stepsLeft s.op s.stage ≤ n) : ∃ k t, k ≤ n ∧ core.run k s = .next t ∧ Completed t := by
  induction n generalizing s with
  | zero =>
    have hpos := stepsLeft_pos s.op s.stage
    omega
  | succ n ih =>
    obtain ⟨t, hstep, hcompleted | ⟨hbusy', hagenda', hless⟩⟩ := step_completes_or_advances hinv hbusy hagenda
    · exact ⟨1, t, by omega, run_succ 0 s t hstep, hcompleted⟩
    · obtain ⟨k, u, hk, hrun, hcompleted⟩ := ih (step_inv hinv hstep) hbusy' hagenda' (by omega)
      exact ⟨k + 1, u, by omega, (run_succ k s t hstep).trans hrun, hcompleted⟩

/-- Settles O44: no command has more than five ENGINE steps left. -/
theorem everyCommandCompletesWithinFiveEngineSteps : Obligations.EveryCommandCompletesWithinFiveEngineSteps :=
  fun s hinv hbusy hagenda => completes_within 5 hinv hbusy hagenda (stepsLeft_le_five s.op s.stage)

end Sys2Proof.Machine
end

section
/-! PROOFS. Runs of whole commands from an idle block: each stage's own result, and the handshake, OP and the
schedule beside it (44_sequencer_commands.md R195 to R197, R207). -/

namespace Sys2Proof.Machine

/-! ### A state in a command's hands -/

/-- `d` while command `i` runs, stage `st` next, with the schedule `es`. -/
def State.running (d : State) (i : Instr) (st : Stage) (es : List Event) : State :=
  { d with busy := true, done := false, stage := some st, op := i, agenda := es }

/-- `d` after command `i` has finished. -/
def State.ended (d : State) (i : Instr) (es : List Event) : State :=
  { d with busy := false, done := true, stage := none, op := i, agenda := es }

/-- `d` after stage `st` of command `i` has raised `c`. -/
def State.failed (d : State) (c : ErrCode) (st : Stage) (i : Instr) (es : List Event) : State :=
  { afterError d c st with done := false, op := i, agenda := es }

/-- No stage reads or writes the handshake, OP or the schedule. -/
theorem runStage_running (st : Stage) (d : State) (i : Instr) (st' : Stage) (es : List Event) :
    runStage st (d.running i st' es) = (runStage st d).map (fun t => t.running i st' es) := by
  cases st with
  | sync =>
    have hscan : findPreamble (d.running i st' es).refscan (d.running i st' es).symLen.toNat
          (d.running i st' es).symAt
        = findPreamble d.refscan d.symLen.toNat d.symAt := rfl
    simp only [runStage, stageSync, apply_ite (Except.map _), hscan]
    cases findPreamble d.refscan d.symLen.toNat d.symAt <;> rfl
  | _ =>
    simp only [runStage, stageEnc, stageMod, stageRect, stageLpf, stageSlice, stageDec, apply_ite (Except.map _)]
    rfl

theorem runStage_running_error {st : Stage} {d : State} {c : ErrCode} (h : runStage st d = .error c) (i : Instr)
    (st' : Stage) (es : List Event) : runStage st (d.running i st' es) = .error c := by
  rw [runStage_running, h]
  rfl

theorem runStage_running_ok {st : Stage} {d a : State} (h : runStage st d = .ok a) (i : Instr) (st' : Stage)
    (es : List Event) : runStage st (d.running i st' es) = .ok (a.running i st' es) := by
  rw [runStage_running, h]
  rfl

/-- `s` takes a command once it is idle, by a CMD write at the BASE of `p`: `rst` is released and ERR = 0 (R195). -/
def TakesCommandsAt (p : Config.Params) (s : State) : Prop :=
  s.rstAsserted = false ∧ s.err = false ∧ s.params = p

theorem takesCommandsAt_of_runStage {p : Config.Params} {st : Stage} {d a : State} (hd : TakesCommandsAt p d)
    (h : runStage st d = .ok a) : TakesCommandsAt p a := by
  rw [runStage_frame st d a h]
  exact hd

/-! ### Steps -/

/-- The ENGINE's entry in the schedule of a running command. -/
theorem step_running (d : State) (i : Instr) (st : Stage) (es : List Event) :
    step (d.running i st (.engine :: es)) = engineStep i (d.running i st es) := by
  rw [step_cons _ .engine es rfl, ← exec_busy i (d.running i st es) rfl]
  rfl

theorem step_running_error {st : Stage} {d : State} {c : ErrCode} (h : runStage st d = .error c) (i : Instr)
    (es : List Event) : step (d.running i st (.engine :: es)) = .next (d.failed c st i es) := by
  rw [step_running, engineStep_error i _ st c rfl (runStage_running_error h i st es)]
  rfl

theorem step_running_stage {st st' : Stage} {d a : State} {i : Instr} (h : runStage st d = .ok a)
    (hnext : nextStage i st a.found = .stage st') (es : List Event) :
    step (d.running i st (.engine :: es)) = .next (a.running i st' es) := by
  rw [step_running, engineStep_stage i _ _ st st' rfl (runStage_running_ok h i st es) hnext]
  rfl

theorem step_running_done {st : Stage} {d a : State} {i : Instr} (h : runStage st d = .ok a)
    (hnext : nextStage i st a.found = .done) (es : List Event) :
    step (d.running i st (.engine :: es)) = .next (a.ended i es) := by
  rw [step_running, engineStep_done i _ _ st rfl (runStage_running_ok h i st es) hnext]
  rfl

/-- The CMD write of a command with a first stage, to an idle block. -/
theorem step_accept {p : Config.Params} {d : State} {i : Instr} {st : Stage} {w : Word} {es : List Event}
    (hd : TakesCommandsAt p d) (hidle : d.busy = false) (hdecode : decode w = .ok i)
    (hfirst : firstStage i = some st) :
    step { d with agenda := .write p.base w :: es } = .next (d.running i st es) := by
  obtain ⟨hrst, hclean, rfl⟩ := hd
  rw [step_writeCommand { d with agenda := .write d.params.base w :: es } w es hrst rfl]
  rcases writeCommand_cases w { d with agenda := es } with
    ⟨hbusy, -⟩ | ⟨-, herr, -⟩ | ⟨-, -, ⟨r, hrefused⟩, -⟩ | ⟨-, -, j, haccepted, e⟩
  · simp [hidle] at hbusy
  · simp [hclean] at herr
  · cases hdecode.symm.trans hrefused
  · cases hdecode.symm.trans haccepted
    rw [e, acceptCommand, hfirst]
    rfl

/-- The same after another command. -/
theorem step_accept_next {p : Config.Params} {d : State} {i : Instr} {st : Stage} {w : Word}
    (hd : TakesCommandsAt p d) (hdecode : decode w = .ok i) (hfirst : firstStage i = some st) (j : Instr)
    (es : List Event) :
    step (d.ended j (.write p.base w :: es)) = .next (d.running i st es) :=
  step_accept (d := d.ended j []) hd rfl hdecode hfirst

/-- A CMD write after an error is dropped (R195, R225). -/
theorem step_failed_write {d : State} (hrst : d.rstAsserted = false) (c : ErrCode) (st : Stage) (i : Instr)
    (w : Word) (es : List Event) :
    step (d.failed c st i (.write d.params.base w :: es)) = .next (d.failed c st i es) := by
  rw [step_writeCommand (d.failed c st i (.write d.params.base w :: es)) w es hrst rfl]
  rcases writeCommand_cases w (d.failed c st i es) with ⟨-, e⟩ | ⟨-, -, e⟩ | ⟨-, herr, -⟩ | ⟨-, herr, -⟩
  · exact e
  · exact e
  · cases herr
  · cases herr

/-- The ENGINE has no step while BUSY = 0 (R197). -/
theorem step_idle_engine {s : State} {es : List Event} (hidle : s.busy = false)
    (hagenda : s.agenda = .engine :: es) :
    step s = .next { s with agenda := es } := by
  rw [step_cons s .engine es hagenda, eventStep, engineTurn, if_neg (by simp [hidle])]

/-! ### Runs -/

/-- A command of one stage on the idle block `d`, from its CMD write to its end. -/
theorem run_command {p : Config.Params} {d a : State} {i : Instr} {st : Stage} {w : Word} {es : List Event}
    (hd : TakesCommandsAt p d) (hidle : d.busy = false) (hdecode : decode w = .ok i)
    (hfirst : firstStage i = some st) (h : runStage st d = .ok a) (hlast : nextStage i st a.found = .done) (n : Nat) :
    core.run (n + 2) { d with agenda := .write p.base w :: .engine :: es } = core.run n (a.ended i es) :=
  (run_succ (n + 1) _ (d.running i st (.engine :: es)) (step_accept hd hidle hdecode hfirst)).trans
    (run_succ n _ _ (step_running_done h hlast es))

/-- A command of one stage after another command. -/
theorem run_next_command {p : Config.Params} {d a : State} {i j : Instr} {st : Stage} {w : Word} {es : List Event}
    (hd : TakesCommandsAt p d) (hdecode : decode w = .ok i) (hfirst : firstStage i = some st)
    (h : runStage st d = .ok a) (hlast : nextStage i st a.found = .done) (n : Nat) :
    core.run (n + 2) (d.ended j (.write p.base w :: .engine :: es)) = core.run n (a.ended i es) :=
  (run_succ (n + 1) _ (d.running i st (.engine :: es)) (step_accept_next hd hdecode hfirst j _)).trans
    (run_succ n _ _ (step_running_done h hlast es))

/-- Turns without a step only take their entries off the schedule. -/
theorem run_idle_engine (n : Nat) {s : State} (hidle : s.busy = false) (hagenda : s.agenda = .replicate n .engine) :
    core.run n s = .next { s with agenda := [] } := by
  induction n generalizing s with
  | zero =>
    have hs : s = { s with agenda := [] } := by
      rw [List.replicate_zero] at hagenda
      rw [← hagenda]
    exact congrArg Host.Outcome.next hs
  | succ n ih =>
    rw [List.replicate_succ] at hagenda
    exact (run_succ n s _ (step_idle_engine hidle hagenda)).trans
      (ih (s := { s with agenda := .replicate n .engine }) hidle rfl)

/-- A run that ends without error has met none at its next stage: an error would have stayed. -/
theorem runStage_ok_of_run {n : Nat} {d t : State} {i : Instr} {st : Stage}
    (h : core.run (n + 1) (d.running i st (.engine :: .replicate n .engine)) = .next t) (hclean : t.err = false) :
    ∃ a, runStage st d = .ok a := by
  cases hrun : runStage st d with
  | ok a => exact ⟨a, rfl⟩
  | error c =>
    rw [run_succ n _ _ (step_running_error hrun i _), run_idle_engine n rfl rfl] at h
    cases h
    cases hclean

/-! ### TX and its parts -/

/-- Settles O22: both forms run ENC on the same state and MOD on what it leaves; after an error of ENC the CMD
write of MOD is dropped. -/
theorem txEqualsEncThenMod : Obligations.TxEqualsEncThenMod := by
  intro s _ hrst hidle hclean
  have hs : TakesCommandsAt s.params s := ⟨hrst, hclean, rfl⟩
  have htx : step { s with agenda := [.write s.params.base 8, .engine, .engine] }
      = .next (s.running .tx .enc [.engine, .engine]) := step_accept hs hidle rfl rfl
  have henc : step { s with agenda := [.write s.params.base 1, .engine, .write s.params.base 2, .engine] }
      = .next (s.running .enc .enc [.engine, .write s.params.base 2, .engine]) :=
    step_accept hs hidle rfl rfl
  cases ha : runStage .enc s with
  | error c =>
    refine ⟨s.failed c .enc .tx [], s.failed c .enc .enc [], ?_, ?_, rfl, rfl, rfl, rfl, .inr ⟨rfl, rfl, rfl⟩⟩
    · rw [run_succ 2 _ _ htx, run_succ 1 _ _ (step_running_error ha .tx _), run_idle_engine 1 rfl rfl]
      rfl
    · rw [run_succ 3 _ _ henc, run_succ 2 _ _ (step_running_error ha .enc _),
        run_succ 1 _ _ (step_failed_write hrst c .enc .enc 2 _), run_idle_engine 1 rfl rfl]
      rfl
  | ok a =>
    have hs' : TakesCommandsAt s.params a := takesCommandsAt_of_runStage hs ha
    have htx' := (run_succ 2 _ _ htx).trans (run_succ 1 _ _ (step_running_stage (st' := .mod) ha rfl _))
    have hmod := (run_succ 3 _ _ henc).trans <| (run_succ 2 _ _ (step_running_done ha rfl _)).trans <|
      run_succ 1 _ _ (step_accept_next (i := .mod) hs' rfl rfl .enc _)
    cases hb : runStage .mod a with
    | error c =>
      exact ⟨a.failed c .mod .tx [], a.failed c .mod .mod [],
        htx'.trans (run_succ 0 _ _ (step_running_error hb .tx _)),
        hmod.trans (run_succ 0 _ _ (step_running_error hb .mod _)), rfl, rfl, rfl, rfl, .inl rfl⟩
    | ok b =>
      exact ⟨b.ended .tx [], b.ended .mod [], htx'.trans (run_succ 0 _ _ (step_running_done hb rfl _)),
        hmod.trans (run_succ 0 _ _ (step_running_done hb rfl _)), rfl, rfl, rfl, rfl, .inl rfl⟩

/-! ### RX and its parts -/

/-- What an RX that ends without error has done. -/
theorem rx_stages_of_run {s t : State}
    (h : core.run 5 (s.running .rx .rect [.engine, .engine, .engine, .engine, .engine]) = .next t)
    (hclean : t.err = false) :
    ∃ a b c d, runStage .rect s = .ok a ∧ runStage .lpf a = .ok b ∧ runStage .slice b = .ok c
      ∧ runStage .sync c = .ok d ∧ (d.found = false → t = d.ended .rx [])
      ∧ (d.found = true → ∃ e, runStage .dec d = .ok e ∧ t = e.ended .rx []) := by
  obtain ⟨a, ha⟩ := runStage_ok_of_run (n := 4) h hclean
  rw [run_succ 4 _ _ (step_running_stage ha rfl _)] at h
  obtain ⟨b, hb⟩ := runStage_ok_of_run (n := 3) h hclean
  rw [run_succ 3 _ _ (step_running_stage hb rfl _)] at h
  obtain ⟨c, hc⟩ := runStage_ok_of_run (n := 2) h hclean
  rw [run_succ 2 _ _ (step_running_stage hc rfl _)] at h
  obtain ⟨d, hd⟩ := runStage_ok_of_run (n := 1) h hclean
  refine ⟨a, b, c, d, ha, hb, hc, hd, fun hlost => ?_, fun hfound => ?_⟩
  · rw [run_succ 1 _ _ (step_running_done hd (by rw [hlost]; rfl) _), run_idle_engine 1 rfl rfl] at h
    cases h
    rfl
  · rw [run_succ 1 _ _ (step_running_stage (st' := .dec) hd (by rw [hfound]; rfl) _)] at h
    obtain ⟨e, he⟩ := runStage_ok_of_run (n := 0) h hclean
    rw [run_succ 0 _ _ (step_running_done he rfl _)] at h
    cases h
    exact ⟨e, he, rfl⟩

/-- Settles O23: the parts run the same stages, each on what the one before left. -/
theorem rxEqualsItsPartsInTurn : Obligations.RxEqualsItsPartsInTurn := by
  intro s t u _ hrst hidle hclean hrx ht hparts
  have hs : TakesCommandsAt s.params s := ⟨hrst, hclean, rfl⟩
  have hstart : step { s with agenda :=
        [.write s.params.base 9, .engine, .engine, .engine, .engine, .engine] }
      = .next (s.running .rx .rect [.engine, .engine, .engine, .engine, .engine]) :=
    step_accept hs hidle rfl rfl
  have hrx' : core.run 5 (s.running .rx .rect [.engine, .engine, .engine, .engine, .engine]) = .next t :=
    (run_succ 5 _ _ hstart).symm.trans hrx
  obtain ⟨a, b, c, d, ha, hb, hc, hd, hlost, hfound⟩ := rx_stages_of_run hrx' ht
  have hsa := takesCommandsAt_of_runStage hs ha
  have hsb := takesCommandsAt_of_runStage hsa hb
  have hsc := takesCommandsAt_of_runStage hsb hc
  have hsd := takesCommandsAt_of_runStage hsc hd
  have hu : u = d.ended .sync [] := by
    refine Host.Outcome.next.inj (hparts.symm.trans ?_)
    exact (run_command (i := .rect) (w := 3) hs hidle rfl rfl ha rfl 6).trans <|
      (run_next_command (i := .lpf) (w := 4) hsa rfl rfl hb rfl 4).trans <|
      (run_next_command (i := .slice) (w := 5) hsb rfl rfl hc rfl 2).trans <|
      run_next_command (i := .sync) (w := 6) hsc rfl rfl hd rfl 0
  subst hu
  refine ⟨fun hf => ?_, fun hf => ?_⟩
  · rw [hlost hf]
    rfl
  · obtain ⟨e, he, rfl⟩ := hfound hf
    exact ⟨e.ended .dec [], run_next_command (i := .dec) (w := 7) hsd rfl rfl he rfl 0, rfl⟩

end Sys2Proof.Machine
end

section
/-! PROOFS. The round trip: what TX has sent, RX reads back (44_sequencer_commands.md R206). -/

namespace Sys2Proof.Machine

/-! ### What no stage writes -/

/-- `s` without what the stages write: the configuration, the handshake and the errors. -/
def State.settings (s : State) : State :=
  { s with
    byteBuf := [], byteLen := 0, symBuf := [], symLen := 0, sigBuf := [], sigLen := 0, payloadStart := 0
    found := false, notfound := false }

theorem settings_of_runStage {st : Stage} {s t : State} (h : runStage st s = .ok t) : t.settings = s.settings := by
  rw [runStage_frame st s t h]
  rfl

/-- The settings of R206 (c): windows of one symbol, no smoothing, and a threshold below the energy of a 1 symbol. -/
def RoundTripSettings (s : State) : Prop :=
  1 ≤ s.sps ∧ s.period.toNat = s.sps ∧ s.lpfN = 1 ∧ (1 ≤ s.bitDepth.toNat ∧ s.bitDepth.toNat ≤ 32)
  ∧ (s.thresh.toNat : Int) * s.sps
      < (∑ k ∈ Finset.range s.sps, |sinQ s.sampleRate.toNat s.carrierFreq.toNat k|) * 2 ^ s.bitDepth.toNat

/-! ### The signal -/

/-- RECT and LPF with LPF_N = 1 make the carrier of a 1 its absolute value and keep the silence of a 0. -/
theorem envelope_of_modulated {e m r l : State} (hmod : ModEffect e m) (hrect : RectEffect m r)
    (hlpf : LpfEffect r l) (hone : r.lpfN = 1) {a k : Nat} (ha : a < e.symLen.toNat) (hk : k < e.sps) :
    (l.sigAt (a * e.sps + k)).toInt
      = if e.symAt a then |sinQ e.sampleRate.toNat e.carrierFreq.toNat k| else 0 := by
  obtain ⟨-, hlen, hcarrier, -⟩ := hmod
  have hindex : a * e.sps + k < m.sigLen.toNat := by
    rw [hlen]
    exact window_index_lt (by rwa [Nat.mul_div_cancel _ (Nat.zero_lt_of_lt hk)]) hk
  have hkept : l.sigAt (a * e.sps + k) = r.sigAt (a * e.sps + k) :=
    lpfEffect_sigAt_of_single hlpf (by simp [hone])
  obtain ⟨-, habs, -⟩ := hrect
  rw [hkept, habs _ hindex, hcarrier a k ha hk]
  split
  · rfl
  · rfl

/-- SLICE reads keyed symbols back where a 1 symbol's energy is above the threshold. -/
theorem sliceEffect_symAt_of_keyed {e l x : State} {q : Nat → Int} (h : SliceEffect l x) (hsps : 1 ≤ e.sps)
    (hperiod : l.period.toNat = e.sps) (hlen : l.sigLen.toNat = e.symLen.toNat * e.sps)
    (hkeyed : ∀ a k, a < e.symLen.toNat → k < e.sps →
      (l.sigAt (a * e.sps + k)).toInt = if e.symAt a then q k else 0)
    (henergy : (l.thresh.toNat : Int) * e.sps < (∑ k ∈ Finset.range e.sps, q k) * 2 ^ l.bitDepth.toNat) :
    x.symLen = e.symLen ∧ ∀ a, a < e.symLen.toNat → x.symAt a = e.symAt a := by
  obtain ⟨-, hcount, hbit, -⟩ := h
  have hwindows : l.sigLen.toNat / l.period.toNat = e.symLen.toNat := by
    rw [hlen, hperiod, Nat.mul_div_cancel _ hsps]
  refine ⟨BitVec.eq_of_toNat_eq (hcount.trans hwindows), fun a ha => ?_⟩
  have hsum : ∑ j ∈ Finset.range l.period.toNat, (l.sigAt (a * l.period.toNat + j)).toInt
      = ∑ j ∈ Finset.range e.sps, if e.symAt a then q j else 0 := by
    rw [hperiod]
    exact Finset.sum_congr rfl fun j hj => hkeyed a j ha (Finset.mem_range.1 hj)
  rw [hbit a (hwindows ▸ ha), hsum, hperiod]
  cases e.symAt a with
  | true => simpa using henergy
  | false =>
    have hpos : (0 : Int) ≤ l.thresh.toNat * e.sps := by positivity
    simpa using hpos

/-! ### The frame -/

/-- SYM of `t` holds the preamble and then the bytes of `s`. -/
def HoldsFrameOf (s t : State) : Prop :=
  t.symLen.toNat = 8 + 8 * s.byteLen.toNat
  ∧ (∀ j, j < 8 → t.symAt j = decide (j % 2 = 0))
  ∧ (∀ c j, c < s.byteLen.toNat → j < 8 → t.symAt (8 + 8 * c + j) = (s.byteAt c).getLsbD (7 - j))

theorem holdsFrameOf_of_encEffect {s e : State} (h : EncEffect s e) : HoldsFrameOf s e := by
  obtain ⟨-, hlen, hpreamble, hpayload, -⟩ := h
  exact ⟨hlen, hpreamble, hpayload⟩

theorem holdsFrameOf_congr {s e x : State} (h : HoldsFrameOf s e) (hlen : x.symLen = e.symLen)
    (hsame : ∀ a, a < e.symLen.toNat → x.symAt a = e.symAt a) : HoldsFrameOf s x := by
  obtain ⟨hcount, hpreamble, hpayload⟩ := h
  refine ⟨hlen ▸ hcount, fun j hj => ?_, fun c j hc hj => ?_⟩
  · rw [hsame j (by omega), hpreamble j hj]
  · rw [hsame _ (by omega), hpayload c j hc hj]

/-- SYNC finds the preamble of a frame at once; with REFSCAN = 1 only if a byte follows it (R176). -/
theorem syncEffect_of_frame {s x y : State} (h : SyncEffect x y) (hframe : HoldsFrameOf s x)
    (hbyte : x.refscan = false ∨ s.byteLen.toNat ≠ 0) : y.payloadStart.toNat = 8 ∧ y.found = true := by
  obtain ⟨hlen, hpreamble, -⟩ := hframe
  obtain ⟨-, hhit, -⟩ := h
  have htests : ScanTests x 0 := by
    unfold ScanTests
    split
    next hrefscan =>
      have hne : s.byteLen.toNat ≠ 0 := hbyte.resolve_left (by simp [hrefscan])
      omega
    next => omega
  have hstands : PreambleStandsAt x 0 := fun j hj => by rw [Nat.zero_add, hpreamble j hj]
  obtain ⟨hstart, hfound, -⟩ := hhit 0 htests hstands nofun
  exact ⟨hstart, hfound⟩

/-- DEC reads the bytes of a frame back. -/
theorem decEffect_of_frame {s y z : State} (h : DecEffect y z) (hframe : HoldsFrameOf s y)
    (hstart : y.payloadStart.toNat = 8) :
    z.byteLen = s.byteLen ∧ ∀ c, c < s.byteLen.toNat → z.byteAt c = s.byteAt c := by
  obtain ⟨hlen, -, hpayload⟩ := hframe
  obtain ⟨-, hcount, hbits, -⟩ := h
  rw [hstart] at hcount hbits
  have hgroups : (y.symLen.toNat - 8) / 8 = s.byteLen.toNat := by omega
  refine ⟨BitVec.eq_of_toNat_eq (hcount.trans hgroups), fun c hc => byte_eq_of_symbols fun j hj => ?_⟩
  rw [hbits c j (hgroups ▸ hc) hj, hpayload c j hc hj]

/-! ### The stages in turn -/

/-- RECT, LPF and SLICE read the symbols of what MOD has written back. -/
theorem receive_symbols {e m : State} (hmod : ModEffect e m) (hready : ModReady e) (hrange : samplesInRange m.sigBuf)
    (hsettings : m.settings = e.settings) (hset : RoundTripSettings e) :
    ∃ r l x, runStage .rect m = .ok r ∧ runStage .lpf r = .ok l ∧ runStage .slice l = .ok x ∧ SyncReady x
      ∧ x.settings = e.settings ∧ x.symLen = e.symLen ∧ ∀ a, a < e.symLen.toNat → x.symAt a = e.symAt a := by
  obtain ⟨hsps, hperiod, hone, hdepth, henergy⟩ := hset
  obtain ⟨-, hsyms, hsamples⟩ := hready
  have ⟨_, hlen, _⟩ := hmod
  have hrect : RectReady m := by
    have hparams : m.params = e.params := (congrArg State.params hsettings :)
    rw [RectReady, hlen, hparams]
    exact hsamples
  obtain ⟨r, hr, heffect⟩ := runStage_of_ready (st := .rect) (fun _ => hrange) hrect
  have hsettings' : r.settings = e.settings := (settings_of_runStage hr).trans hsettings
  have hone' : r.lpfN = 1 := (congrArg State.lpfN hsettings' :).trans hone
  have hlpf : LpfReady r := ⟨by rw [hone']; decide, rectEffect_restores heffect RectReady hrect⟩
  obtain ⟨l, hl, heffect'⟩ := runStage_of_ready (st := .lpf)
    (fun _ => samplesInRange_of_runStage hrange hr) hlpf
  have hsettings'' : l.settings = e.settings := (settings_of_runStage hl).trans hsettings'
  have hperiod' : l.period.toNat = e.sps := (congrArg (fun v => v.period.toNat) hsettings'' :).trans hperiod
  have hdepth' : l.bitDepth = e.bitDepth := (congrArg State.bitDepth hsettings'' :)
  have hthresh' : l.thresh = e.thresh := (congrArg State.thresh hsettings'' :)
  have hparams' : l.params = e.params := (congrArg State.params hsettings'' :)
  have hlen' : l.sigLen.toNat = e.symLen.toNat * e.sps := by
    rw [lpfEffect_sigLen heffect', rectEffect_sigLen heffect, hlen]
  have hslice : SliceReady l := by
    rw [SliceReady, hperiod', hdepth', hparams', hlen', Nat.mul_div_cancel _ hsps]
    exact ⟨hsps, hdepth, hsamples, hsyms⟩
  obtain ⟨x, hx, heffect''⟩ := runStage_of_ready (st := .slice) (by simp) hslice
  have hkeyed := sliceEffect_symAt_of_keyed heffect'' hsps hperiod' hlen'
    (fun a k => envelope_of_modulated hmod heffect heffect' hone') (by rw [hdepth', hthresh']; exact henergy)
  exact ⟨r, l, x, hr, hl, hx, sliceEffect_syncReady heffect'' hslice, (settings_of_runStage hx).trans hsettings'',
    hkeyed⟩

/-- SYNC and DEC read the bytes of a frame back. -/
theorem receive_bytes {s x : State} (hframe : HoldsFrameOf s x) (hready : SyncReady x)
    (hfit : s.byteLen.toNat ≤ x.params.byteMax.val) (hbyte : x.refscan = false ∨ s.byteLen.toNat ≠ 0) :
    ∃ y z, runStage .sync x = .ok y ∧ y.found = true ∧ runStage .dec y = .ok z ∧ z.found = true
      ∧ z.byteLen = s.byteLen ∧ ∀ c, c < s.byteLen.toNat → z.byteAt c = s.byteAt c := by
  obtain ⟨y, hy, hsync⟩ := runStage_of_ready (st := .sync) (by simp) hready
  obtain ⟨hstart, hfound⟩ := syncEffect_of_frame hsync hframe hbyte
  have hframe' : HoldsFrameOf s y := holdsFrameOf_congr hframe (congrArg State.symLen hsync.1 :)
    fun a _ => (congrArg (fun v => v.symAt a) hsync.1 :)
  have ⟨hlen, _⟩ := hframe
  have hdec : DecReady y := syncEffect_decReady hsync hready (by omega) (by omega)
  obtain ⟨z, hz, heffect⟩ := runStage_of_ready (st := .dec) (by simp) hdec
  have hfound' : z.found = y.found := (congrArg State.found heffect.1 :)
  exact ⟨y, z, hy, hfound, hz, hfound'.trans hfound, decEffect_of_frame heffect hframe' hstart⟩

/-! ### The runs -/

theorem run_tx {d e m : State} (he : runStage .enc d = .ok e) (hm : runStage .mod e = .ok m) (es : List Event)
    (n : Nat) : core.run (n + 2) (d.running .tx .enc (.engine :: .engine :: es)) = core.run n (m.ended .tx es) :=
  (run_succ (n + 1) _ _ (step_running_stage he rfl _)).trans (run_succ n _ _ (step_running_done hm rfl _))

theorem run_rx_found {d r l x y z : State} (hr : runStage .rect d = .ok r) (hl : runStage .lpf r = .ok l)
    (hx : runStage .slice l = .ok x) (hy : runStage .sync x = .ok y) (hfound : y.found = true)
    (hz : runStage .dec y = .ok z) :
    core.run 5 (d.running .rx .rect [.engine, .engine, .engine, .engine, .engine]) = .next (z.ended .rx []) := by
  rw [run_succ 4 _ _ (step_running_stage hr rfl _), run_succ 3 _ _ (step_running_stage hl rfl _),
    run_succ 2 _ _ (step_running_stage hx rfl _),
    run_succ 1 _ _ (step_running_stage (st' := .dec) hy (by rw [hfound]; rfl) _),
    run_succ 0 _ _ (step_running_done hz rfl _)]
  rfl

/-- Settles O57: RX reads back the symbols that TX has keyed, and in them the frame of the bytes. -/
theorem roundTripReturnsTheBytes : Obligations.RoundTripReturnsTheBytes := by
  intro s hinv hrst hidle hclean henc hsps hfit hperiod hone hpos hdepth henergy hbyte
  have hs : TakesCommandsAt s.params s := ⟨hrst, hclean, rfl⟩
  have hset : RoundTripSettings s := ⟨hsps, hperiod, hone, ⟨hpos, hdepth⟩, henergy⟩
  obtain ⟨e, he, heffect⟩ := runStage_of_ready (st := .enc) (by simp) henc
  have hsettings : e.settings = s.settings := settings_of_runStage he
  have hset' : RoundTripSettings e.settings := hsettings ▸ hset
  have hmod : ModReady e := encEffect_modReady heffect henc hsps hfit
  obtain ⟨m, hm, heffect'⟩ := runStage_of_ready (st := .mod) (by simp) hmod
  have hrange : samplesInRange m.sigBuf :=
    samplesInRange_of_runStage (samplesInRange_of_runStage hinv.sigRange he) hm
  obtain ⟨r, l, x, hr, hl, hx, hready, hsettings', hlen, hsame⟩ :=
    receive_symbols heffect' hmod hrange (settings_of_runStage hm)
      hset'
  have hsettings'' : x.settings = s.settings := hsettings'.trans hsettings
  have hframe : HoldsFrameOf s x := holdsFrameOf_congr (holdsFrameOf_of_encEffect heffect) hlen hsame
  have hparams : x.params = s.params := (congrArg State.params hsettings'' :)
  have hrefscan : x.refscan = s.refscan := (congrArg State.refscan hsettings'' :)
  have hbyte' : x.refscan = false ∨ s.byteLen.toNat ≠ 0 :=
    hrefscan ▸ hbyte.imp id fun hne hzero => hne (BitVec.eq_of_toNat_eq hzero)
  obtain ⟨y, z, hy, hfound, hz, hfound', hbytes⟩ := receive_bytes hframe hready (hparams ▸ henc.1) hbyte'
  have hclean' : z.err = false :=
    calc z.err = y.err := runStage_ok_err _ _ _ hz
      _ = x.err := runStage_ok_err _ _ _ hy
      _ = s.err := (congrArg State.err hsettings'' :)
      _ = false := hclean
  refine ⟨z.ended .rx [], ?_, ⟨rfl, rfl, rfl⟩, hclean', hfound', hbytes⟩
  have hsm : TakesCommandsAt s.params m := takesCommandsAt_of_runStage (takesCommandsAt_of_runStage hs he) hm
  calc core.run 9 { s with agenda :=
          [.write s.params.base 8, .engine, .engine,
           .write s.params.base 9, .engine, .engine, .engine, .engine, .engine] }
      = core.run 8 (s.running .tx .enc
          [.engine, .engine, .write s.params.base 9, .engine, .engine, .engine, .engine, .engine]) :=
        run_succ 8 _ _ (step_accept hs hidle rfl rfl)
    _ = core.run 6 (m.ended .tx [.write s.params.base 9, .engine, .engine, .engine, .engine, .engine]) :=
        run_tx he hm _ 6
    _ = core.run 5 (m.running .rx .rect [.engine, .engine, .engine, .engine, .engine]) :=
        run_succ 5 _ _ (step_accept_next hsm rfl rfl .tx _)
    _ = .next (z.ended .rx []) := run_rx_found hr hl hx hy hfound hz

end Sys2Proof.Machine
end

section
/-! PROOFS. The stage errors: which cause a stage raises, what error entry leaves, and how long the record is kept
(60_exceptions.md R217 to R225). -/

namespace Sys2Proof.Machine

/-! ### The error that a stage raises -/

/-- The error of a stage in the order of R220: E_CFG before E_RANGE before E_OVF; no stage raises E_CMD (R216). -/
def FirstCause (s : State) (st : Stage) (c : ErrCode) : Prop :=
  match c with
  | .cmd => False
  | .cfg => CfgCause s st
  | .range => ¬CfgCause s st ∧ RangeCause s st
  | .ovf => ¬CfgCause s st ∧ ¬RangeCause s st ∧ OvfCause s st

/-- R217's causes in MOD are those that leave no whole sample per symbol; a sample rate of 0 is one of the others. -/
theorem cfgCause_mod_iff (s : State) : CfgCause s .mod ↔ s.sps < 1 := by
  rw [sps_lt_one_iff]
  simp only [CfgCause, ← BitVec.toNat_inj, BitVec.toNat_zero, BitVec.ofNat_eq_ofNat]
  omega

theorem cfgCause_lpf_iff (s : State) : CfgCause s .lpf ↔ s.lpfN.toNat < 1 := by
  simp only [CfgCause, Nat.lt_one_iff, ← BitVec.toNat_inj, BitVec.toNat_zero, BitVec.ofNat_eq_ofNat]

theorem runStage_eq_cfg {st : Stage} {s : State} (h : CfgCause s st) : runStage st s = .error .cfg := by
  cases st with
  | mod => exact stageMod_eq_cfg ((cfgCause_mod_iff s).1 h)
  | lpf => exact stageLpf_eq_cfg h
  | slice => exact stageSlice_eq_cfg h
  | enc | rect | sync | dec => exact h.elim

theorem runStage_eq_range {st : Stage} {s : State} (hcfg : ¬CfgCause s st) (h : RangeCause s st) :
    runStage st s = .error .range := by
  cases st with
  | enc => exact stageEnc_eq_range h
  | mod =>
    rw [cfgCause_mod_iff, Nat.not_lt] at hcfg
    exact stageMod_eq_range hcfg h
  | rect => exact stageRect_eq_range h
  | lpf => exact stageLpf_eq_range hcfg h
  | slice => exact stageSlice_eq_range hcfg h
  | sync => exact stageSync_eq_range h
  | dec => exact stageDec_eq_range h

theorem runStage_eq_ovf {st : Stage} {s : State} (hcfg : ¬CfgCause s st) (hrange : ¬RangeCause s st)
    (h : OvfCause s st) : runStage st s = .error .ovf := by
  cases st with
  | enc => exact stageEnc_eq_ovf (Nat.not_lt.1 hrange) h
  | mod =>
    rw [cfgCause_mod_iff, Nat.not_lt] at hcfg
    exact stageMod_eq_ovf hcfg (Nat.not_lt.1 hrange) h
  | slice => exact stageSlice_eq_ovf hcfg (Nat.not_lt.1 hrange) h
  | dec =>
    obtain ⟨hlen, hstart⟩ := not_or.1 hrange
    exact stageDec_eq_ovf (Nat.not_lt.1 hlen) (Nat.not_lt.1 hstart) h
  | rect | lpf | sync => exact h.elim

/-- The causes of R217 to R219 are all that a stage's `require` block can fail for. -/
theorem stageReady_of_no_cause {st : Stage} {s : State} (hcfg : ¬CfgCause s st) (hrange : ¬RangeCause s st)
    (hovf : ¬OvfCause s st) : StageReady st s := by
  cases st with
  | enc => exact ⟨Nat.not_lt.1 hrange, Nat.not_lt.1 hovf⟩
  | mod =>
    rw [cfgCause_mod_iff, Nat.not_lt] at hcfg
    exact ⟨hcfg, Nat.not_lt.1 hrange, Nat.not_lt.1 hovf⟩
  | rect => exact Nat.not_lt.1 hrange
  | lpf =>
    rw [cfgCause_lpf_iff, Nat.not_lt] at hcfg
    exact ⟨hcfg, Nat.not_lt.1 hrange⟩
  | slice =>
    rw [cfgCause_slice_iff, not_or, not_or, Nat.not_lt, Nat.not_lt, Nat.not_lt] at hcfg
    obtain ⟨hperiod, hdepth⟩ := hcfg
    exact ⟨hperiod, hdepth, Nat.not_lt.1 hrange, Nat.not_lt.1 hovf⟩
  | sync => exact Nat.not_lt.1 hrange
  | dec =>
    obtain ⟨hlen, hstart⟩ := not_or.1 hrange
    exact ⟨Nat.not_lt.1 hlen, Nat.not_lt.1 hstart, Nat.not_lt.1 hovf⟩

theorem runStage_of_firstCause {st : Stage} {s : State} {c : ErrCode} (h : FirstCause s st c) :
    runStage st s = .error c := by
  cases c with
  | cmd => exact h.elim
  | cfg => exact runStage_eq_cfg h
  | range =>
    obtain ⟨hcfg, hrange⟩ := h
    exact runStage_eq_range hcfg hrange
  | ovf =>
    obtain ⟨hcfg, hrange, hovf⟩ := h
    exact runStage_eq_ovf hcfg hrange hovf

/-- A stage without a cause is ready; legal samples are what RECT and LPF need beside that (R45). -/
theorem exists_firstCause_or_ok (st : Stage) {s : State} (hlegal : samplesInRange s.sigBuf) :
    (∃ c, FirstCause s st c) ∨ ∃ t, runStage st s = .ok t := by
  by_cases hcfg : CfgCause s st
  · exact .inl ⟨.cfg, hcfg⟩
  by_cases hrange : RangeCause s st
  · exact .inl ⟨.range, hcfg, hrange⟩
  by_cases hovf : OvfCause s st
  · exact .inl ⟨.ovf, hcfg, hrange, hovf⟩
  obtain ⟨t, hrun, -⟩ := runStage_of_ready (fun _ => hlegal) (stageReady_of_no_cause hcfg hrange hovf)
  exact .inr ⟨t, hrun⟩

/-- R217 to R220 in one: a stage raises its first cause, and nothing else. -/
theorem runStage_error_iff {st : Stage} {s : State} {c : ErrCode} (hlegal : samplesInRange s.sigBuf) :
    runStage st s = .error c ↔ FirstCause s st c := by
  refine ⟨fun h => ?_, runStage_of_firstCause⟩
  rcases exists_firstCause_or_ok st hlegal with ⟨c', hcause⟩ | ⟨t, hrun⟩
  · cases (runStage_of_firstCause hcause).symm.trans h
    exact hcause
  · cases hrun.symm.trans h

/-! ### Error entry -/

/-- An ENGINE step of a sound state enters the error that its stage raises, or leaves no error at all (R197, R221). -/
theorem exec_entersError_or_clean {i : Instr} {s t : State} (hinv : s.Inv) (hbusy : s.busy = true)
    (h : exec i s = .next t) :
    (∃ c st, s.stage = some st ∧ runStage st s = .error c ∧ t = afterError s c st)
    ∨ (t.err = false ∧ t.errCode = none) := by
  obtain ⟨-, hclean⟩ := hinv.busyClean hbusy
  obtain ⟨hcode, -⟩ := hinv.noErrorNoInfo hclean
  rw [exec_busy i s hbusy] at h
  rcases engineStep_cases i s with
    ⟨-, e⟩ | ⟨st, hstage, ⟨c, hraise, e⟩ | ⟨u, hu, ⟨-, e⟩ | ⟨st', -, e⟩ | ⟨-, e⟩⟩⟩ <;> cases e.symm.trans h
  · exact .inr ⟨hclean, hcode⟩
  · exact .inl ⟨c, st, hstage, hraise, rfl⟩
  all_goals
    rw [runStage_frame st s u hu]
    exact .inr ⟨hclean, hcode⟩

/-- The ENGINE step of a stage records a code exactly where the stage's first cause has that code. -/
theorem exec_records_iff {i : Instr} {s : State} {st : Stage} {c : ErrCode} (hinv : s.Inv) (hbusy : s.busy = true)
    (hstage : s.stage = some st) :
    (∃ t, exec i s = .next t ∧ t.errCode = some c) ↔ FirstCause s st c := by
  rw [← runStage_error_iff hinv.sigRange]
  refine ⟨fun ⟨t, hexec, hcode⟩ => ?_, fun hraise => ⟨_, exec_error i s st c hbusy hstage hraise, rfl⟩⟩
  rcases exec_entersError_or_clean hinv hbusy hexec with ⟨c', st', hstage', hraise, rfl⟩ | ⟨-, hnone⟩
  · cases hstage.symm.trans hstage'
    cases hcode
    exact hraise
  · cases hnone.symm.trans hcode

theorem exec_of_firstCause (i : Instr) {s : State} {st : Stage} {c : ErrCode} (hbusy : s.busy = true)
    (hstage : s.stage = some st) (h : FirstCause s st c) : exec i s = .next (afterError s c st) :=
  exec_error i s st c hbusy hstage (runStage_of_firstCause h)

/-- ESTAGE stands in bits 11:8 of ERR_INFO and CODE in bits 7:0, so neither is cut off (R38). -/
theorem toNat_errInfoWord (s : State) :
    s.errInfoWord.toNat = 256 * (stageCode s.errStage).toNat + (errorCode s.errCode).toNat := by
  have hstage := (stageCode s.errStage).isLt
  have hcode := (errorCode s.errCode).isLt
  rw [errInfoWord_eq, BitVec.toNat_ofNat, Nat.mod_eq_of_lt (by omega)]

/-- Settles O24: E_CFG stands first in the order of R220. -/
theorem configurationErrorExactlyOnItsCauses : Obligations.ConfigurationErrorExactlyOnItsCauses :=
  fun i _ _ hinv hbusy hstage => ⟨exec_records_iff (c := .cfg) hinv hbusy hstage, fun hcfg =>
    ⟨exec_of_firstCause (c := .cfg) i hbusy hstage hcfg, toNat_errInfoWord _⟩⟩

/-- Settles O25: E_RANGE is the first cause where E_CFG has none. -/
theorem rangeErrorExactlyOnItsCauses : Obligations.RangeErrorExactlyOnItsCauses :=
  fun i _ _ hinv hbusy hstage => ⟨exec_records_iff (c := .range) hinv hbusy hstage, fun hcfg hrange =>
    ⟨exec_of_firstCause (c := .range) i hbusy hstage ⟨hcfg, hrange⟩, toNat_errInfoWord _⟩⟩

/-- Settles O26: E_OVF is the first cause where E_CFG and E_RANGE have none. -/
theorem overflowErrorExactlyOnItsCauses : Obligations.OverflowErrorExactlyOnItsCauses :=
  fun i _ _ hinv hbusy hstage => ⟨exec_records_iff (c := .ovf) hinv hbusy hstage, fun hcfg hrange hovf =>
    ⟨exec_of_firstCause (c := .ovf) i hbusy hstage ⟨hcfg, hrange, hovf⟩, toNat_errInfoWord _⟩⟩

/-- Settles O27: a step that leaves ERR = 1 was an error entry, of a code that a stage can raise. -/
theorem errorEntryWritesNothingElse : Obligations.ErrorEntryWritesNothingElse := by
  intro i s t hinv hbusy hexec herr
  rcases exec_entersError_or_clean hinv hbusy hexec with ⟨c, st, hstage, hraise, rfl⟩ | ⟨hclean, -⟩
  · refine ⟨c, st, hstage, rfl, ?_, errInfoWord_eq _⟩
    cases c with
    | cmd => exact absurd rfl (runStage_error_ne_cmd st s .cmd hraise)
    | cfg => exact .inl rfl
    | range => exact .inr (.inl rfl)
    | ovf => exact .inr (.inr rfl)
  · cases hclean.symm.trans herr

/-! ### An error after stages that have finished -/

/-- An error entered after RECT or LPF differs in SIG alone from the same error entered before it (R223). -/
theorem afterError_of_sigBuf_written {s t : State} (c : ErrCode) (st : Stage)
    (h : { t with sigBuf := s.sigBuf, busy := s.busy, done := s.done, stage := s.stage } = s)
    (hdone : t.done = s.done) : afterError t c st = { afterError s c st with sigBuf := t.sigBuf } := by
  rw [← hdone] at h
  exact congrArg (fun x : State => { afterError x c st with sigBuf := t.sigBuf }) h

/-- Settles O20: RECT and LPF leave the configuration of SLICE, so its cause still stands after them. -/
theorem rxKeepsTheEnvelopeWhenSliceFails : Obligations.RxKeepsTheEnvelopeWhenSliceFails := by
  intro s hinv hbusy hstage hrect hlpf hcause
  obtain ⟨t1, hexec1, heffect1, hbusy1, hstage1, hdone1⟩ :=
    exec_goesOn (i := .rx) (st := .rect) (fun _ => hinv.sigRange) hbusy hstage hrect fun _ => rfl
  have hlegal1 := samplesInRange_of_exec hinv.sigRange hbusy hexec1
  have hlpf1 : LpfReady t1 := rectEffect_restores heffect1 LpfReady hlpf
  have hcause1 : CfgCause t1 .slice := rectEffect_restores heffect1 (CfgCause · .slice) hcause
  obtain ⟨t2, hexec2, heffect2, hbusy2, hstage2, hdone2⟩ :=
    exec_goesOn (i := .rx) (st := .lpf) (fun _ => hlegal1) hbusy1 hstage1 hlpf1 fun _ => rfl
  have hcause2 : CfgCause t2 .slice := lpfEffect_restores heffect2 (CfgCause · .slice) hcause1
  have hentry : afterError t2 .cfg .slice = { afterError s .cfg .slice with sigBuf := t2.sigBuf } := by
    rw [afterError_of_sigBuf_written _ _ heffect2.1 hdone2, afterError_of_sigBuf_written _ _ heffect1.1 hdone1]
  exact ⟨t1, t2, _, hexec1, heffect1, hexec2, heffect2,
    exec_of_firstCause (c := .cfg) .rx hbusy2 hstage2 hcause2, errInfoWord_eq _, fun _ => rfl, hentry⟩

/-! ### How long the record is kept -/

/-- The error record and BUSY are in `t` as in `s`. -/
def SameErrorRecord (s t : State) : Prop :=
  t.errCode = s.errCode ∧ t.errStage = s.errStage ∧ t.busy = s.busy

/-- Only STATUS writes the record, and what it writes is the error return (R224). -/
theorem writeReg_sameErrorRecord {r : Reg} {w : Word} {s : State} (h : (writeReg r w s).err = true) :
    SameErrorRecord s (writeReg r w s) := by
  cases r with
  | status =>
    simp only [writeReg, writeStatus] at h ⊢
    split at h
    next => cases h
    next hkept =>
      rw [if_neg hkept]
      exact ⟨rfl, rfl, rfl⟩
  | byteData => simp only [writeReg, writeByteData]; split <;> exact ⟨rfl, rfl, rfl⟩
  | symData => simp only [writeReg, writeSymData]; split <;> exact ⟨rfl, rfl, rfl⟩
  | sigData => simp only [writeReg, writeSigData]; split <;> exact ⟨rfl, rfl, rfl⟩
  | _ => exact ⟨rfl, rfl, rfl⟩

/-- With ERR = 1 no command is running, and none is taken or refused (R195, R225). -/
theorem transition_sameErrorRecord {s t : State} (hidle : s.busy = false) (herr : s.err = true)
    (h : Transition s t) (herr' : t.err = true) : SameErrorRecord s t := by
  cases h with
  | stay | releaseRst => exact ⟨rfl, rfl, rfl⟩
  | engine hbusy => cases hidle.symm.trans hbusy
  | assertRst => cases herr'
  | read off =>
    rw [busRead_frame]
    exact ⟨rfl, rfl, rfl⟩
  | accept _ _ _ hclean | illegalCommand _ _ hclean => cases hclean.symm.trans herr
  | write r w => exact writeReg_sameErrorRecord herr'

/-- A sound state with ERR = 1 is idle (R52 (b)). -/
theorem idle_of_err {s : State} (hinv : s.Inv) (herr : s.err = true) : s.busy = false :=
  Bool.eq_false_iff.2 fun hbusy => by
    obtain ⟨-, hclean⟩ := hinv.busyClean hbusy
    cases hclean.symm.trans herr

/-- Settles O29, over the transitions that a step can be. -/
theorem recordedErrorIsKeptUntilAcknowledged : Obligations.RecordedErrorIsKeptUntilAcknowledged := by
  intro s t hinv herr hstep herr'
  have hidle := idle_of_err hinv herr
  obtain ⟨hcode, hestage, hbusy⟩ :=
    transition_sameErrorRecord (s := { s with agenda := s.agenda.tail }) hidle herr (transition_of_step hstep) herr'
  exact ⟨hcode, hestage, hbusy.trans hidle⟩

end Sys2Proof.Machine
end

section
/-! PROOFS. What can stop the machine: from a sound state, only an access that the bus cannot express
(R199, R222, U5). -/

namespace Sys2Proof.Machine

/-- The ENGINE of a sound state stands on the sequencer's table, so it never faults (R196, log 9). -/
theorem engineTurn_answers {s : State} (hinv : s.Inv) : ∃ t, engineTurn s = .next t := by
  unfold engineTurn
  split
  case isFalse => exact ⟨s, rfl⟩
  case isTrue hbusy =>
    rw [exec_busy _ _ hbusy]
    rcases engineStep_cases s.op s with
      ⟨-, e⟩ | ⟨st, hstage, ⟨c, -, e⟩ | ⟨u, -, ⟨-, e⟩ | ⟨st', -, e⟩ | ⟨hoff, -⟩⟩⟩
    · exact ⟨_, e⟩
    · exact ⟨_, e⟩
    · exact ⟨_, e⟩
    · exact ⟨_, e⟩
    · exact absurd hoff (nextStage_ne_offTable (hstage ▸ hinv.onTable hbusy) u.found)

/-- Each branch of a CMD write answers a state: it runs no stage itself (R195). -/
theorem writeCommand_answers (w : Word) (s : State) : ∃ t, writeCommand w s = .next t := by
  rcases writeCommand_cases w s with ⟨-, e⟩ | ⟨-, -, e⟩ | ⟨-, -, -, e⟩ | ⟨-, -, i, -, e⟩
  all_goals exact ⟨_, e⟩

theorem busWrite_answers (off : Nat) (w : Word) (s : State) : ∃ t, busWrite off w s = .next t := by
  rcases busWrite_cases off w s with ⟨-, e⟩ | ⟨-, -, e⟩ | ⟨-, -, e⟩
  · exact ⟨_, e⟩
  · rw [e]
    exact writeCommand_answers w s
  · exact ⟨_, e⟩

/-- Settles O43: the ENGINE's turn by the invariant, a bus access by its register offset. -/
theorem onlyInexpressibleAccessesStopTheMachine : Obligations.OnlyInexpressibleAccessesStopTheMachine := by
  intro s hinv hexpr
  cases hagenda : s.agenda with
  | nil =>
    rw [step_nil s hagenda]
    exact engineTurn_answers hinv
  | cons e rest =>
    have hwf : eventExpressible s.params e = true := hexpr e (by rw [hagenda]; rfl)
    cases e with
    | engine =>
      rw [step_cons s _ rest hagenda]
      exact engineTurn_answers (inv_agenda s rest hinv)
    | assertRst => exact ⟨_, step_cons s _ rest hagenda⟩
    | releaseRst => exact ⟨_, step_cons s _ rest hagenda⟩
    | read a =>
      obtain ⟨off, hlt, h4, rfl⟩ := exists_offset_of_wellFormed hwf
      exact ⟨_, step_read s off rest hlt h4 hagenda⟩
    | write a w =>
      obtain ⟨off, hlt, h4, rfl⟩ := exists_offset_of_wellFormed hwf
      rw [step_write s off w rest hlt h4 hagenda]
      exact busWrite_answers off w _

end Sys2Proof.Machine
end

section
/-! PROOFS. The block while `rst` is asserted: the reset state, whatever the host and the ENGINE do, and at the release too
(70_reset_and_hazards.md R245, 00_scope.md R12). -/

namespace Sys2Proof.Machine

/-! ### The state held in reset -/

/-- The reset state with `rst` asserted, on the machine of `s`, with `rest` scheduled and the host's word `w`. -/
def State.heldInResetWith (s : State) (rest : List Event) (w : Word) : State :=
  { State.reset with
    rstAsserted := true, params := s.params, agenda := rest, busOut := w, resets := s.resets }

/-- While `rst` is asserted only the schedule and the host's word can differ from the reset state (R245). -/
theorem eq_heldInResetWith {s : State} (hinv : s.Inv) (hrst : s.rstAsserted = true) (rest : List Event) (w : Word) :
    { s with agenda := rest, busOut := w } = s.heldInResetWith rest w :=
  calc { s with agenda := rest, busOut := w }
    _ = { resetOf s with agenda := rest, busOut := w } :=
      congrArg (fun t : State => { t with agenda := rest, busOut := w }) (hinv.heldInReset hrst)
    _ = s.heldInResetWith rest w := by rw [resetOf, hrst, State.heldInResetWith]

/-- No command runs while `rst` is asserted (R245, R247). -/
theorem idle_of_held {s : State} (hinv : s.Inv) (hrst : s.rstAsserted = true) : s.busy = false :=
  congrArg State.busy (hinv.heldInReset hrst)

/-! ### A DATA port at index 0 -/

theorem readByteData_word_at_zero {s : State} (hidle : s.busy = false) (hidx : s.byteIdx.toNat = 0) :
    (readByteData s).busOut.toNat = if s.params.byteMax.val = 0 then 0 else (s.byteAt 0).toNat := by
  split
  next hcap => rw [readByteData_blocked (.inr (by omega))]; rfl
  next hcap => rw [readByteData_below hidle (by omega), hidx]; exact toNat_fromByte _

theorem readSymData_word_at_zero {s : State} (hidle : s.busy = false) (hidx : s.symIdx.toNat = 0) :
    (readSymData s).busOut.toNat = if s.params.symMax.val = 0 then 0 else (s.symAt 0).toNat := by
  split
  next hcap => rw [readSymData_blocked (.inr (by omega))]; rfl
  next hcap => rw [readSymData_below hidle (by omega), hidx]; exact toNat_fromSymbol _

theorem readSigData_word_at_zero {s : State} (hidle : s.busy = false) (hidx : s.sigIdx.toNat = 0) :
    (readSigData s).busOut.toInt = if s.params.sigMax.val = 0 then 0 else (s.sigAt 0).toInt := by
  split
  next hcap => rw [readSigData_blocked (.inr (by omega))]; rfl
  next hcap => rw [readSigData_below hidle (by omega), hidx]; exact toInt_fromSample _

/-! ### One step while `rst` is asserted -/

/-- With nothing scheduled an idle block waits for the host (R50, R262). -/
theorem step_idle_nil {s : State} (hidle : s.busy = false) (hagenda : s.agenda = []) : step s = .next s := by
  rw [step_nil s hagenda, engineTurn, if_neg (by simp [hidle])]

/-- While `rst` is asserted a write is dropped, a CMD write too (R245, log 15). -/
theorem step_write_held {s : State} {off : Nat} {w : Word} {rest : List Event} (hrst : s.rstAsserted = true)
    (hlt : off < 256) (h4 : off % 4 = 0) (hagenda : s.agenda = .write (s.params.base + off) w :: rest) :
    step s = .next { s with agenda := rest } := by
  rw [step_write s off w rest hlt h4 hagenda, busWrite, if_pos hrst]

/-- While `rst` is asserted a read gives its word and moves no index (R245, log 15). -/
theorem step_read_held {s : State} {off : Nat} {rest : List Event} (hrst : s.rstAsserted = true)
    (hlt : off < 256) (h4 : off % 4 = 0) (hagenda : s.agenda = .read (s.params.base + off) :: rest) :
    step s = .next { s with agenda := rest, busOut := (hostRead off { s with agenda := rest }).busOut } := by
  rw [step_read s off rest hlt h4 hagenda, busRead_held off { s with agenda := rest } hrst]

/-- Settles O5, event by event: each leaves all but the schedule, the host's word and the level of `rst` as they
are, so the reset state that the invariant gives stands on. -/
theorem heldResetIsLeftOnlyByItsRelease : Obligations.HeldResetIsLeftOnlyByItsRelease := by
  intro s hinv hrst
  have hidle := idle_of_held hinv hrst
  have hheld := eq_heldInResetWith hinv hrst
  refine ⟨fun hagenda => ?nothing, fun rest hagenda => ?engine, fun a w rest hagenda hexpr => ?write,
    fun a rest hagenda hexpr => ?read, fun rest hagenda => ?release⟩
  case nothing =>
    have hsame : s = s.heldInResetWith [] s.busOut := hagenda ▸ hheld s.agenda s.busOut
    exact (step_idle_nil hidle hagenda).trans (congrArg Host.Outcome.next hsame)
  case engine =>
    exact (step_idle_engine hidle hagenda).trans (congrArg Host.Outcome.next (hheld rest s.busOut))
  case write =>
    obtain ⟨off, hlt, h4, rfl⟩ := exists_offset_of_wellFormed hexpr
    exact (step_write_held hrst hlt h4 hagenda).trans (congrArg Host.Outcome.next (hheld rest s.busOut))
  case read =>
    obtain ⟨off, hlt, h4, rfl⟩ := exists_offset_of_wellFormed hexpr
    have hreset := hinv.heldInReset hrst
    refine ⟨_, (step_read_held hrst hlt h4 hagenda).trans (congrArg Host.Outcome.next (hheld rest _)),
      fun hport => ?_, fun hport => ?_, fun hport => ?_⟩ <;> cases Nat.add_left_cancel hport
    · exact readByteData_word_at_zero (s := { s with agenda := rest }) hidle (congrArg (·.byteIdx.toNat) hreset)
    · exact readSymData_word_at_zero (s := { s with agenda := rest }) hidle (congrArg (·.symIdx.toNat) hreset)
    · exact readSigData_word_at_zero (s := { s with agenda := rest }) hidle (congrArg (·.sigIdx.toNat) hreset)
  case release =>
    have hreleased := congrArg releaseReset (hheld rest s.busOut)
    exact (step_cons s .releaseRst rest hagenda).trans (congrArg Host.Outcome.next hreleased)

end Sys2Proof.Machine
end

section
/-! PROOFS. What one entry of the schedule is: an edge of `rst`, the write of a command word, the ENGINE's turn, the
write of STATUS (70_reset_and_hazards.md R245 to R247, 44_sequencer_commands.md R195 and R197, 10_state.md R23,
60_exceptions.md R224). -/

namespace Sys2Proof.Machine

/-! ### The edges of `rst` -/

theorem releaseReset_of_released {s : State} (h : s.rstAsserted = false) : releaseReset s = s := by
  rw [releaseReset, ← h]

/-- Settles O4: each edge is its own operation on the state with the edge taken from the schedule. -/
theorem resetInputLeavesTheResetState : Obligations.ResetInputLeavesTheResetState := by
  refine fun s rest => ⟨fun hagenda => step_cons s .assertRst rest hagenda, fun hagenda hrst => ?_⟩
  calc step s
    _ = .next (releaseReset { s with agenda := rest }) := step_cons s .releaseRst rest hagenda
    _ = .next { s with agenda := rest } := by rw [releaseReset_of_released (s := { s with agenda := rest }) hrst]

/-! ### The write of a command word -/

/-- An idle block with no error to acknowledge runs the command that the word decodes to (R195). -/
theorem writeCommand_of_decode {w : Word} {i : Instr} {s : State} (hidle : s.busy = false) (hclean : s.err = false)
    (hdecode : decode w = .ok i) : writeCommand w s = exec i s := by
  have hrequest : commandRequest w s = .ok i := by simp [commandRequest, hidle, hclean, hdecode]
  rw [writeCommand, hrequest]

/-- Settles O6: no guard of R195 stops the decoded command. -/
theorem stepRunsTheDecodedCommandWord : Obligations.StepRunsTheDecodedCommandWord := by
  intro s w i rest hrst hidle hclean hagenda hdecode
  rw [step_writeCommand s w rest hrst hagenda]
  exact writeCommand_of_decode (s := { s with agenda := rest }) hidle hclean hdecode

/-! ### The ENGINE's turn -/

theorem engineTurn_of_busy {s : State} (hbusy : s.busy = true) : engineTurn s = exec s.op s := by
  rw [engineTurn, if_pos hbusy]

/-- Settles O7: the ENGINE's turn, unscheduled and scheduled, on a busy and on an idle block. -/
theorem stepAtTheEnginesTurnRunsTheAcceptedCommand : Obligations.StepAtTheEnginesTurnRunsTheAcceptedCommand := by
  refine fun s => ⟨fun hbusy hagenda => ?_, fun rest hbusy hagenda => ?_, step_idle_nil, fun _ => step_idle_engine⟩
  · exact (step_nil s hagenda).trans (engineTurn_of_busy hbusy)
  · exact (step_cons s .engine rest hagenda).trans (engineTurn_of_busy (s := { s with agenda := rest }) hbusy)

/-! ### The write of STATUS -/

/-- The write that acknowledges an error is the error return beside the written flags (R224). -/
theorem writeStatus_acknowledging {w : Word} {s : State} (hbit : w.getLsbD 4 = true) (herr : s.err = true) :
    writeStatus w s
      = { s with done := s.done && !w.getLsbD 1, found := s.found && !w.getLsbD 2,
                 notfound := s.notfound && !w.getLsbD 3, err := false, errCode := none, errStage := none } := by
  rw [writeStatus, if_pos (by rw [hbit, herr, Bool.and_self])]
  rfl

/-- Any other write leaves ERR and its record alone (R23, log 12). -/
theorem writeStatus_not_acknowledging {w : Word} {s : State} (h : w.getLsbD 4 = false ∨ s.err = false) :
    writeStatus w s
      = { s with done := s.done && !w.getLsbD 1, found := s.found && !w.getLsbD 2,
                 notfound := s.notfound && !w.getLsbD 3 } := by
  have hcond : (w.getLsbD 4 && s.err) = false := Bool.and_eq_false_iff.2 h
  rw [writeStatus, if_neg (Bool.eq_false_iff.1 hcond)]

/-- A step at a write of STATUS, `rst` released and BUSY = 0. -/
theorem step_writeStatus {s : State} {w : Word} {rest : List Event} (hrst : s.rstAsserted = false)
    (hidle : s.busy = false) (hagenda : s.agenda = .write (s.params.base + 0x04) w :: rest) :
    step s = .next (writeStatus w { s with agenda := rest }) := by
  rw [step_write s 0x04 w rest (by decide) (by decide) hagenda,
    busWrite_of_ne_zero 0x04 w { s with agenda := rest } hrst (by decide),
    hostWrite_reg (r := .status) w { s with agenda := rest } rfl hidle]
  rfl

/-- The register is 0 where nothing is recorded (R38). -/
theorem errInfoWord_of_none {s : State} (hcode : s.errCode = none) (hstage : s.errStage = none) :
    s.errInfoWord = 0 := by
  rw [errInfoWord_eq, hcode, hstage]
  rfl

/-- Settles O28, by whether the write acknowledges an error. -/
theorem statusWriteClearsTheWrittenFlags : Obligations.StatusWriteClearsTheWrittenFlags := by
  intro s w rest hrst hidle hagenda
  rw [step_writeStatus hrst hidle hagenda]
  by_cases hack : w.getLsbD 4 = true ∧ s.err = true
  · obtain ⟨hbit, herr⟩ := hack
    rw [writeStatus_acknowledging (s := { s with agenda := rest }) hbit herr]
    exact ⟨_, rfl, rfl, rfl, rfl, rfl, by simp [hbit], fun _ _ => errInfoWord_of_none rfl rfl, by simp [hbit, herr]⟩
  · have hkept : w.getLsbD 4 = false ∨ s.err = false := by
      simpa only [not_and_or, Bool.not_eq_true] using hack
    have hsame : s.err = (s.err && !w.getLsbD 4) := by
      rcases hkept with h | h <;> rw [h]
      · exact (Bool.and_true s.err).symm
      · rfl
    rw [writeStatus_not_acknowledging (s := { s with agenda := rest }) hkept]
    exact ⟨_, rfl, rfl, rfl, rfl, rfl, hsame, fun hbit herr => absurd ⟨hbit, herr⟩ hack, fun _ => ⟨rfl, rfl⟩⟩

end Sys2Proof.Machine
end
